-- ==== Sys2Proof/Word.lean ====
section
/-! DEFINITION. Words of the BitDelay core (`00_scope.md` R7, R8): the 32-bit sample, gain, parameter and register word,
its byte, and its two integer readings. -/

namespace Sys2Proof

/-- A 32-bit word: every sample, gain, parameter, register and command word (R6 `SW` = 32, R7). -/
abbrev Word := BitVec 32

/-- One byte of a word on a byte-wide bus (`20_memory.md` R40). -/
abbrev Byte := BitVec 8

/-- `raw(w)` of R7: the two's-complement value, in `[-2^31, 2^31 - 1]`. -/
abbrev raw (w : Word) : Int := w.toInt

/-- `u(w)` of R7: the unsigned value, in `[0, 2^32 - 1]`. -/
abbrev u (w : Word) : Nat := w.toNat

/-- `word(n)` of R7 for an integer `n`: the word with `n mod 2^32` as its unsigned value. -/
abbrev word (n : Int) : Word := BitVec.ofInt 32 n

end Sys2Proof
end

