-- ==== Sys2Proof/Config.lean ====
section
/-! DEFINITION. What one instance of the hardware fixes (`00_scope.md` R5, R6), and the free values, which no rule fixes.
The OPEN parameters of R6 are arguments of the model: a `Hardware` record that the state carries and no step changes
(log 5), so that what is stated of every state is stated of every instance. The instance `State.reset` starts has the
spec's defaults (DESIGN CHOICE, log 5 and log 6); `DEF`, which has no default, and what a buffer byte or a ring byte
holds that nothing has given a value are constants without a body (log 7, log 8, log 9). -/

namespace Sys2Proof

/-- The two readings of the quantizer's remainder (`QUANT_MODE`, R6, R13, `90_conflicts.md` C5). -/
inductive QuantMode where
  /-- the remainder is never negative: the greatest level not above the sample -/
  | floor
  /-- the remainder has the sample's sign: the level nearest to zero from the sample -/
  | trunc
  deriving DecidableEq, Repr

/-- One word for each parameter of the bank, in the fixed order of `10_state.md` R19: indices 0 to 4. -/
structure Params where
  time : Word
  echoVolume : Word
  regen : Word
  dry : Word
  wet : Word
  deriving DecidableEq, Repr

/-- The OPEN parameters of one instance (R6). -/
structure Hardware where
  /-- `MAXCH`: physical channel rows -/
  maxCh : Nat
  /-- `RING_DEPTH`: physical sample words per ring row -/
  ringDepth : Nat
  /-- `BLK_DEPTH`: physical sample words per channel of each block buffer -/
  blkDepth : Nat
  /-- `QUANT_MODE` -/
  quantMode : QuantMode
  /-- `DEF[0..4]` -/
  defaults : Params
  deriving DecidableEq, Repr

/-- The constraints of R6 on the OPEN parameters; the last is that a capacity fits the 32 bits of CAP (R17; log 5). -/
def Hardware.ok (hw : Hardware) : Bool :=
  decide (1 ≤ hw.maxCh) && decide (hw.maxCh ≤ 16) && decide (hw.maxCh * hw.blkDepth ≤ 2 ^ 22) &&
    decide (hw.ringDepth < 2 ^ 32)

namespace Config

/-- `NPARAM` of R5: the number of parameters. -/
def nparam : Nat := 5

/-- `BITDEPTH` of R5: the bit depth PROCESS uses. -/
def bitdepth : Nat := 8

/-- `CRUSH_BASE` of R5: base effective rate in Hz. -/
def crushBase : Nat := 22050

/-- `RING_SECONDS` of R5: ring capacity in seconds. -/
def ringSeconds : Nat := 2

/-- `DEF[i]` of R6, OPEN and without a default (R136, D27, `91_not_in_source.md` N5): a free value (log 7). -/
opaque paramDefault : Fin 5 → Word

/-- What byte `addr` of the buffer windows holds after the `epoch`-th reset before anything writes it: "any value"
(`10_state.md` R31, `93_implementation_defined.md` U10): a free value (log 8). -/
opaque powerOnByte (epoch addr : Nat) : Byte

/-- What a ring byte holds that neither PREPARE cleared nor a command wrote, after the `epoch`-th event that left it
unspecified: "any value", and no command can read it (`93_implementation_defined.md` U11, U12): a free value (log 9). -/
opaque unclearedByte (epoch addr : Nat) : Byte

/-- The instance `State.reset` starts: `MAXCH`, `RING_DEPTH`, `BLK_DEPTH` and `QUANT_MODE` at the defaults of R6 (DESIGN
CHOICE, log 5 and log 6), `DEF` free. -/
def hardware : Hardware where
  maxCh := 2
  ringDepth := 384000
  blkDepth := 4096
  quantMode := .floor
  defaults := ⟨paramDefault 0, paramDefault 1, paramDefault 2, paramDefault 3, paramDefault 4⟩

/-- The name string of a parameter (`10_state.md` R19): a fixed table of the specification, not hardware state (D22).
GETPARAM returns the index as its id (R109). -/
def paramName : Fin 5 → String
  | 0 => "time"
  | 1 => "echoVolume"
  | 2 => "regen"
  | 3 => "dry"
  | 4 => "wet"

end Config

end Sys2Proof
end

