-- ==== Sys2Proof/Machine/Fixed.lean ====
section
/-! DEFINITION. The Q8.24 arithmetic of `00_scope.md` R8 to R13: exact rational forms as the rules write them, and the
integer forms the same rules give, which are what a command computes. -/

namespace Sys2Proof.Machine

/-- `val(w) = raw(w) / 2^24` (R8). -/
def val (w : Word) : Rat := (raw w : Rat) / 2 ^ 24

/-- `sat32` of R9. -/
def sat32 (n : Int) : Int := max (-2147483648) (min 2147483647 n)

/-- The stored word of an exact value given as a floored integer of units of `2^-24`: `word(sat32(n))` (R9). -/
def satWord (n : Int) : Word := word (sat32 n)

/-- `fx(v) = word(sat32(floor(v * 2^24)))` (R9). -/
def fx (v : Rat) : Word := satWord (v * 2 ^ 24).floor

/-- `ramp(a, b, i, L)` of R12 as an exact rational. -/
def ramp (a b : Word) (i len : Nat) : Rat := val a + (val b - val a) * (i : Rat) / (len : Rat)

/-- `scale(x, a, b, i, L)` of R12 as an exact rational. -/
def scale (x a b : Word) (i len : Nat) : Rat := val x * ramp a b i len

/-- `Gnum(a, b, i, L)` of R12. -/
def gnum (a b : Word) (i len : Nat) : Int := raw a * ((len : Int) - (i : Int)) + raw b * (i : Int)

/-- `floor(scale(x, a, b, i, L) * 2^24)` in the integer form of R12. -/
def scaleRaw (x a b : Word) (i len : Nat) : Int := (raw x * gnum a b i len) / ((len : Int) * 2 ^ 24)

/-- `fx(scale(x, a, b, i, L))` in the integer form of R12. -/
def scaled (x a b : Word) (i len : Nat) : Word := satWord (scaleRaw x a b i len)

/-- `fx(val(d) + scale(x, a, b, i, L))` in the integer form of `40_ring.md` R74 and `42_mix.md` R91. -/
def addScaled (d x a b : Word) (i len : Nat) : Word := satWord (raw d + scaleRaw x a b i len)

/-- `fx(val(d) - val(x))` in the integer form of `42_mix.md` R89. -/
def subSat (d x : Word) : Word := satWord (raw d - raw x)

/-- The quantization step `M = 2^(24 - bd)` as a raw integer (R13). -/
def quantStep (bd : Nat) : Int := 2 ^ (24 - bd)

/-- `quant(x, bd)` of R13, in the mode of the instance. -/
def quant (mode : QuantMode) (x : Word) (bd : Nat) : Word :=
  match mode with
  | .floor => word (raw x - raw x % quantStep bd)
  | .trunc => word ((raw x).sign * (((raw x).natAbs : Int) - ((raw x).natAbs : Int) % quantStep bd))

/-- The effective crush rate times `2^24`: `E = 11025 * (2^25 - raw(t))` (`41_crush.md` R80), from
`CRUSH_BASE - CRUSH_BASE * val(t) / 2`. -/
def crushRate (t : Word) : Int := ((Config.crushBase / 2 : Nat) : Int) * (2 ^ 25 - raw t)

/-- `RD = min((SR * 2^24) div E, 2^32 - 1)` (`41_crush.md` R80), for `E > 0`. -/
def rateDivider (sr t : Word) : Nat := min (((u sr : Int) * 2 ^ 24) / crushRate t).toNat (2 ^ 32 - 1)

/-- `D = (SR * raw(t)) div 2^24`, the delay in whole samples (`40_ring.md` R73). -/
def delaySamples (sr t : Word) : Int := ((u sr : Int) * raw t) / 2 ^ 24

/-- `rp = (WCUR - D) mod CAP`, the read position (`40_ring.md` R73). -/
def readPosition (wcur cap sr t : Word) : Nat := (((u wcur : Int) - delaySamples sr t) % (u cap : Int)).toNat

end Sys2Proof.Machine
end

