-- ==== Sys2Proof/Syntax.lean ====
section
/-! DEFINITION. The 21 commands of BDC-1 (`30_encoding.md` R58), one constructor per row of spec/opcode_table.json, with
the operands the command word itself carries (R55): the channel `CH` and the buffers `BA` and `BB`. Every other operand
is an ARG register (R57). -/

namespace Sys2Proof

/-- The three block buffers (`10_state.md` R24). Buffer id 3 does not exist. -/
inductive BufId where
  | io
  | wet
  | dry
  deriving DecidableEq, Repr

/-- A decoded command. `ch` is the channel number `CH`; `dst` and `buf` are the buffer `BA` the command writes, `src` the
buffer `BB` it only reads (R55). -/
inductive Instr where
  | nop
  | prepare
  | process
  | getpcount
  | getparam
  | setparam
  | savestate
  | loadstate
  | rbWrite (ch : Nat) (src : BufId)
  | rbWriteRamp (ch : Nat) (src : BufId)
  | rbReadaddRamp (ch : Nat) (dst : BufId)
  | rbRdpos
  | cursorAdv
  | ratediv
  | decimate (ch : Nat) (buf : BufId)
  | decimateBlk (ch : Nat) (buf : BufId)
  | bufCopy (ch : Nat) (dst src : BufId)
  | bufSub (ch : Nat) (dst src : BufId)
  | bufCopyRamp (ch : Nat) (dst src : BufId)
  | bufAddRamp (ch : Nat) (dst src : BufId)
  | rampCommit
  deriving DecidableEq, Repr

end Sys2Proof
end

