-- ==== Sys2Proof/WellFormed.lean ====
section
/-! DEFINITION. Which terms of `Instr` the encoding can carry (`30_encoding.md` R55): a channel number is a field of four
bits, 0..15. A buffer is one of the three by its type, so buffer id 3 cannot be written down (R60). -/

namespace Sys2Proof

/-- The channel number a command carries, if its format has the field `CH` (R56). -/
def Instr.channel? : Instr → Option Nat
  | .nop => none
  | .prepare => none
  | .process => none
  | .getpcount => none
  | .getparam => none
  | .setparam => none
  | .savestate => none
  | .loadstate => none
  | .rbWrite c _ => some c
  | .rbWriteRamp c _ => some c
  | .rbReadaddRamp c _ => some c
  | .rbRdpos => none
  | .cursorAdv => none
  | .ratediv => none
  | .decimate c _ => some c
  | .decimateBlk c _ => some c
  | .bufCopy c _ _ => some c
  | .bufSub c _ _ => some c
  | .bufCopyRamp c _ _ => some c
  | .bufAddRamp c _ _ => some c
  | .rampCommit => none

/-- The channel fits the four bits of `CH` (R55). -/
def Instr.wellFormed (i : Instr) : Bool :=
  match i.channel? with
  | some c => decide (c < 16)
  | none => true

end Sys2Proof
end

