-- ==== Sys2Proof/Decode.lean ====
section
/-! DEFINITION. The command word (`30_encoding.md` R55 to R60): a decoder that is total on every 32-bit word and rejects an
illegal one by the reason R60 gives, and the encoder written from the same tables. -/

namespace Sys2Proof

/-- Why a word is an illegal encoding: the four cases of R60. -/
inductive DecodeError where
  /-- the opcode is not listed in R58 -/
  | reservedOpcode
  /-- a bit of `[31:16]` is not 0 -/
  | reservedBits
  /-- a field the format does not use is not 0 -/
  | unusedField
  /-- a buffer field the format uses is 3 -/
  | noSuchBuffer
  deriving DecidableEq, Repr

/-- The four formats of R56. -/
inductive Format where
  | z
  | ca
  | cb
  | cab
  deriving DecidableEq, Repr

/-- The column "mask of the bits that must match" of R56. -/
def Format.mask : Format → Word
  | .z => 0xFFFFFFFF#32
  | .ca => 0xFFFFC0FF#32
  | .cb => 0xFFFF30FF#32
  | .cab => 0xFFFF00FF#32

/-- `OPC = w[7:0]` (R55). -/
def opcField (w : Word) : BitVec 8 := w.extractLsb' 0 8

/-- `CH = w[11:8]` (R55). -/
def chField (w : Word) : Nat := (w.extractLsb' 8 4).toNat

/-- `BA = w[13:12]` (R55). -/
def baField (w : Word) : BitVec 2 := w.extractLsb' 12 2

/-- `BB = w[15:14]` (R55). -/
def bbField (w : Word) : BitVec 2 := w.extractLsb' 14 2

/-- The bits `[31:16]`, which must be 0 (R55). -/
def zeroField (w : Word) : BitVec 16 := w.extractLsb' 16 16

/-- The buffer a field names (R24, R55): 0 IO, 1 WET, 2 DRY, and 3 names none. -/
def bufOfField (b : BitVec 2) : Option BufId :=
  if b = 0#2 then some .io
  else if b = 1#2 then some .wet
  else if b = 2#2 then some .dry
  else none

/-- The buffer id of a buffer (R24, R55). -/
def BufId.code : BufId → BitVec 2
  | .io => 0#2
  | .wet => 1#2
  | .dry => 2#2

/-- The columns "OPC" and "fmt" of R58. -/
def formatOf (opc : BitVec 8) : Option Format :=
  match opc with
  | 0x00#8 => some .z
  | 0x01#8 => some .z
  | 0x02#8 => some .z
  | 0x03#8 => some .z
  | 0x04#8 => some .z
  | 0x05#8 => some .z
  | 0x06#8 => some .z
  | 0x07#8 => some .z
  | 0x10#8 => some .cb
  | 0x11#8 => some .cb
  | 0x12#8 => some .ca
  | 0x13#8 => some .z
  | 0x14#8 => some .z
  | 0x18#8 => some .z
  | 0x19#8 => some .ca
  | 0x1A#8 => some .ca
  | 0x20#8 => some .cab
  | 0x21#8 => some .cab
  | 0x22#8 => some .cab
  | 0x23#8 => some .cab
  | 0x24#8 => some .z
  | _ => none

/-- The columns "OPC" and "mnemonic" of R58, with the fields of the row's format filled in. -/
def instrOf (opc : BitVec 8) (ch : Nat) (ba bb : BufId) : Option Instr :=
  match opc with
  | 0x00#8 => some .nop
  | 0x01#8 => some .prepare
  | 0x02#8 => some .process
  | 0x03#8 => some .getpcount
  | 0x04#8 => some .getparam
  | 0x05#8 => some .setparam
  | 0x06#8 => some .savestate
  | 0x07#8 => some .loadstate
  | 0x10#8 => some (.rbWrite ch bb)
  | 0x11#8 => some (.rbWriteRamp ch bb)
  | 0x12#8 => some (.rbReadaddRamp ch ba)
  | 0x13#8 => some .rbRdpos
  | 0x14#8 => some .cursorAdv
  | 0x18#8 => some .ratediv
  | 0x19#8 => some (.decimate ch ba)
  | 0x1A#8 => some (.decimateBlk ch ba)
  | 0x20#8 => some (.bufCopy ch ba bb)
  | 0x21#8 => some (.bufSub ch ba bb)
  | 0x22#8 => some (.bufCopyRamp ch ba bb)
  | 0x23#8 => some (.bufAddRamp ch ba bb)
  | 0x24#8 => some .rampCommit
  | _ => none

/-- R59: the opcode selects the row, the row's mask tests the unused bits, and each buffer field used must not be 3. A
buffer field the format does not use has been tested to be 0 by then; it reads as IO and `instrOf` drops it. -/
def decode (w : Word) : Except DecodeError Instr :=
  match formatOf (opcField w) with
  | none => .error .reservedOpcode
  | some fmt =>
    if zeroField w ≠ 0#16 then .error .reservedBits
    else if w &&& fmt.mask ≠ (opcField w).setWidth 32 then .error .unusedField
    else
      match bufOfField (baField w), bufOfField (bbField w) with
      | some ba, some bb =>
        match instrOf (opcField w) (chField w) ba bb with
        | some i => .ok i
        | none => .error .reservedOpcode
      | _, _ => .error .noSuchBuffer

/-- A command word from its fields (R55): `[31:16]` zero, `BB`, `BA`, `CH`, `OPC`. -/
def packWord (opc : BitVec 8) (ch : Nat) (ba bb : BitVec 2) : Word :=
  0#16 ++ bb ++ ba ++ BitVec.ofNat 4 ch ++ opc

/-- The command word of a well-formed command (R55, R56, R58): fields its format does not use are 0. -/
def encode : Instr → Word
  | .nop => packWord 0x00#8 0 0#2 0#2
  | .prepare => packWord 0x01#8 0 0#2 0#2
  | .process => packWord 0x02#8 0 0#2 0#2
  | .getpcount => packWord 0x03#8 0 0#2 0#2
  | .getparam => packWord 0x04#8 0 0#2 0#2
  | .setparam => packWord 0x05#8 0 0#2 0#2
  | .savestate => packWord 0x06#8 0 0#2 0#2
  | .loadstate => packWord 0x07#8 0 0#2 0#2
  | .rbWrite c src => packWord 0x10#8 c 0#2 src.code
  | .rbWriteRamp c src => packWord 0x11#8 c 0#2 src.code
  | .rbReadaddRamp c dst => packWord 0x12#8 c dst.code 0#2
  | .rbRdpos => packWord 0x13#8 0 0#2 0#2
  | .cursorAdv => packWord 0x14#8 0 0#2 0#2
  | .ratediv => packWord 0x18#8 0 0#2 0#2
  | .decimate c buf => packWord 0x19#8 c buf.code 0#2
  | .decimateBlk c buf => packWord 0x1A#8 c buf.code 0#2
  | .bufCopy c dst src => packWord 0x20#8 c dst.code src.code
  | .bufSub c dst src => packWord 0x21#8 c dst.code src.code
  | .bufCopyRamp c dst src => packWord 0x22#8 c dst.code src.code
  | .bufAddRamp c dst src => packWord 0x23#8 c dst.code src.code
  | .rampCommit => packWord 0x24#8 0 0#2 0#2

/-- The command word whose low `nbits` bits are those of `w` and whose other bits are 0. -/
def tableWord (nbits w : Nat) : Word := BitVec.ofNat 32 (w % 2 ^ nbits)

/-- The command the decoder reads from a word numbered as spec/opcode_table.json numbers it; `none` where it refuses. -/
def decodeTableWord (nbits w : Nat) : Option Instr :=
  match decode (tableWord nbits w) with
  | .ok i => some i
  | .error _ => none

end Sys2Proof
end

