-- ==== Sys2Proof/Machine/State.lean ====
section
/-! DEFINITION. The architectural state (`10_state.md` R15 to R31) as plain data, the agents' actions, the reasons a step
of the model could stop, and the state after reset (R31, R135). -/

namespace Sys2Proof.Machine

/-- Bytes by address, addresses strictly rising, holding only what an unlisted address does not read as (log 11). -/
abbrev Memory := List Host.Cell

/-- The canonical form: addresses strictly rising, and no entry equal to what its address reads as unlisted. `unlisted` is
that reading, `none` where the specification gives an unlisted address no value. -/
def Memory.wf (unlisted : Nat → Option Byte) : Memory → Bool
  | [] => true
  | [(a, v)] => decide (unlisted a ≠ some v)
  | (a, v) :: (a', v') :: m =>
    decide (a < a') && decide (unlisted a ≠ some v) && Memory.wf unlisted ((a', v') :: m)

/-- What a buffer byte reads as that is not listed: no value the specification gives, nothing has written it since reset
(log 8). -/
def bufUnlisted (_addr : Nat) : Option Byte := none

/-- The ring memory (R16): the bytes written since the last PREPARE or reset, the region `[0, rows) x [0, width)` of
elements the last successful PREPARE cleared (`44_system.md` R106), where an unlisted byte is 0, and a counter of the events
that left the other elements with "any value" (U11, U12), on which their free value depends (log 9). -/
structure Ring where
  epoch : Nat
  rows : Nat
  width : Nat
  cells : Memory
  deriving DecidableEq, Repr

/-- The byte belongs to an element PREPARE cleared. -/
def Ring.cleared (hw : Hardware) (r : Ring) (a : Nat) : Bool :=
  decide (a / 4 / hw.ringDepth < r.rows) && decide (a / 4 % hw.ringDepth < r.width)

/-- What a ring byte reads as that is not listed: 0 where PREPARE cleared it, no value the specification gives elsewhere. -/
def Ring.unlisted (hw : Hardware) (r : Ring) (a : Nat) : Option Byte := if r.cleared hw a then some 0#8 else none

/-- The block buffers (R24): the bytes written since the last reset, by the host address of `20_memory.md` R37, and the
number of the reset, on which the free value of every other byte depends (log 8). -/
structure Buffers where
  epoch : Nat
  cells : Memory
  deriving DecidableEq, Repr

/-- The gain-ramp state (R21): `LAST_IN`, `LAST_FB`, `LAST_DRY`, `LAST_WET`. -/
structure Gains where
  input : Word
  feedback : Word
  dry : Word
  wet : Word
  deriving DecidableEq, Repr

/-- `ARG[0..3]` (R25). -/
structure Args where
  a0 : Word
  a1 : Word
  a2 : Word
  a3 : Word
  deriving DecidableEq, Repr

/-- `RES[0..2]` (R25). -/
structure Results where
  r0 : Word
  r1 : Word
  r2 : Word
  deriving DecidableEq, Repr

/-- The widths narrower than a word that an access could have (`20_memory.md` R39). -/
inductive Narrow where
  | byte
  | halfword
  deriving DecidableEq, Repr

/-- One action of one agent, or a pulse on the reset input (R15, R38, R135). What an agent cannot do (R127) cannot be
written down here: the control surface has no constructor but `ctrlWrite`, the engine has none. -/
inductive Action where
  /-- HOST reads the word at a byte address. -/
  | hostRead (addr : Nat)
  /-- HOST writes a word to a byte address; at CMD this executes one command. -/
  | hostWrite (addr : Nat) (data : Word)
  /-- HOST tries to read less than a word, which the block answers as an access error (`20_memory.md` R39,
  `92_eei_decisions.md` D21; log 19). -/
  | narrowRead (size : Narrow) (addr : Nat)
  /-- HOST tries to write less than a word (R39, D21; log 19); only the low bits of `data` are on the bus. -/
  | narrowWrite (size : Narrow) (addr : Nat) (data : Word)
  /-- CONTROL SURFACE: `PCUR[i] <- v`. -/
  | ctrlWrite (i : Fin 5) (v : Word)
  /-- The reset input is asserted and released (R135; log 4). -/
  | resetInput
  deriving DecidableEq, Repr

/-- The whole state. -/
structure State where
  /-- MODEL's own: the OPEN parameters of this instance, constant (R6, R30; log 5). -/
  hw : Hardware
  /-- `PREPARED` (R17). -/
  prepared : Bool
  /-- `SR`, the sample rate in Hz (R17). -/
  sr : Word
  /-- `CAP`, the ring capacity in samples (R17). -/
  cap : Word
  /-- `NCH`, the allocated channels (R17). -/
  nch : Word
  /-- `MAXBLK`, the largest accepted block length (R17). -/
  maxblk : Word
  /-- `WCUR`, the write cursor (R18). -/
  wcur : Word
  /-- `PCUR[0..4]`, the current parameter values (R19, R20). -/
  pcur : Params
  /-- `PDEF[0..4]`, the default parameter values (R19). -/
  pdef : Params
  /-- `LAST_*` (R21, R22). -/
  last : Gains
  /-- `ARG[0..3]` (R25). -/
  arg : Args
  /-- `RES[0..2]` (R25). -/
  res : Results
  /-- `LASTERR` (R26). -/
  lasterr : BitVec 8
  /-- `FAULTLOG` (R26). -/
  faultlog : Word
  /-- `RING` (R16). -/
  ring : Ring
  /-- `BUF` (R24). -/
  buf : Buffers
  /-- MODEL's own: the word the last HostRead returned to the host (R38; log 3). -/
  readData : Option Word
  /-- MODEL's own: the agent actions not yet taken, oldest first (R45; log 1). -/
  inbox : List Action
  deriving DecidableEq, Repr

/-- The model never stops with a fault of its own: every fault of `60_exceptions.md` R115 is a NEXT state with LASTERR and
FAULTLOG written (R118), and the hardware always accepts the next action. Nothing raises a `Fault`, so the type has no
constructor. Safe or unsafe does not arise (log 16). -/
inductive Fault where
  deriving DecidableEq, Repr

/-- A step that has no meaning in the model. -/
inductive Refusal where
  /-- Raised by `exec` for a command of the opcode table the model gives no meaning yet; no arm raises it. Safe: nothing
  is claimed of such a step. -/
  | notModelled (mnemonic : String)
  deriving DecidableEq, Repr

/-- Every element at its reset value (R31, R135), for one instance: no agent has acted, so nothing is pending and nothing
has been read. -/
def State.resetOf (hw : Hardware) : State where
  hw := hw
  prepared := false
  sr := 0#32
  cap := 0#32
  nch := 0#32
  maxblk := 0#32
  wcur := 0#32
  pcur := hw.defaults
  pdef := hw.defaults
  last := ⟨0#32, 0#32, 0#32, 0#32⟩
  arg := ⟨0#32, 0#32, 0#32, 0#32⟩
  res := ⟨0#32, 0#32, 0#32⟩
  lasterr := 0#8
  faultlog := 0#32
  ring := ⟨0, 0, 0, []⟩
  buf := ⟨0, []⟩
  readData := none
  inbox := []

/-- The machine right after reset. -/
def State.reset : State := State.resetOf Config.hardware

end Sys2Proof.Machine
end

