-- ==== Sys2Proof/Machine/Flags.lean ====
section
/-! DEFINITION. The status state (`10_state.md` R26, `60_exceptions.md` R115): fault codes, FAULTLOG bits, STATUS. -/

namespace Sys2Proof.Machine

/-- The fault codes of R115. -/
inductive ErrCode where
  /-- `E_ILLEGAL_CMD`: the decoder, for any CMD write -/
  | illegalCmd
  /-- `E_NOT_PREPARED`: a command that needs `PREPARED = 1` -/
  | notPrepared
  /-- `E_BAD_ARG`: an operand outside the range its rule allows -/
  | badArg
  /-- `E_RATE_UNDEF`: the effective crush rate is zero or negative -/
  | rateUndef
  /-- `E_ALLOC`: PREPARE asks for more than the physical sizes -/
  | alloc
  /-- `E_BUS`: a register or buffer access the map does not allow -/
  | bus
  deriving DecidableEq, Repr

/-- The code of a fault: what LASTERR receives and the number of the FAULTLOG bit (R115). -/
def errNumber : ErrCode → Nat
  | .illegalCmd => 1
  | .notPrepared => 2
  | .badArg => 3
  | .rateUndef => 4
  | .alloc => 5
  | .bus => 6

/-- The code as LASTERR holds it (R26). -/
def errByte (k : ErrCode) : BitVec 8 := BitVec.ofNat 8 (errNumber k)

/-- FAULTLOG with the bit of a fault set (R26, R118): bits are only ever gained. -/
def logged (k : ErrCode) (log : Word) : Word := log ||| (1#32 <<< errNumber k)

/-- The STATUS register (R26, `20_memory.md` R36): `[0]` PREPARED, `[1]` BUSY (always 0, R46), `[15:8]` LASTERR, other
bits 0. -/
def statusWord (prepared : Bool) (lasterr : BitVec 8) : Word :=
  0#16 ++ lasterr ++ 0#7 ++ BitVec.ofBool prepared

end Sys2Proof.Machine
end

