-- ==== Sys2Proof/Machine/Ops.lean ====
section
/-! DEFINITION. The named operations over memory and registers: bytes and words of memory, ring and buffer elements, the
register banks, the updates of the state, and how a command ends, by a fault (`60_exceptions.md` R118) or by completing. -/

namespace Sys2Proof.Machine

/-- `for i in 0 .. n-1` (`00_scope.md` R11): `f 0` first, `f (n-1)` last, nothing when `n = 0`. -/
def loop {α : Type} : Nat → (Nat → α → α) → α → α
  | 0, _, x => x
  | n + 1, f, x => f n (loop n f x)

/-! ### Bytes and words of memory -/

/-- The byte listed at an address. -/
def Memory.lookup : Memory → Nat → Option Byte
  | [], _ => none
  | (k, v) :: m, a => if a = k then some v else Memory.lookup m a

/-- Lists a byte at an address, in its place in the order. -/
def Memory.insert : Memory → Nat → Byte → Memory
  | [], a, v => [(a, v)]
  | (k, w) :: m, a, v =>
    if a < k then (a, v) :: (k, w) :: m
    else if a = k then (a, v) :: m
    else (k, w) :: Memory.insert m a v

/-- Takes an address off the list. -/
def Memory.erase (m : Memory) (a : Nat) : Memory := m.filter fun cell => cell.1 ≠ a

/-- Writes one byte and keeps the canonical form: a byte equal to what its address reads as unlisted is not listed. -/
def Memory.store (unlisted : Nat → Option Byte) (m : Memory) (a : Nat) (v : Byte) : Memory :=
  if unlisted a = some v then m.erase a else m.insert a v

/-- Byte `j` of a word, `w[8j+7:8j]` (R7). -/
def byteOf (w : Word) (j : Nat) : Byte := w.extractLsb' (8 * j) 8

/-- Four bytes as a word, the first the low one (`20_memory.md` R40). -/
def wordOf (b0 b1 b2 b3 : Byte) : Word := b3 ++ b2 ++ b1 ++ b0

/-- Writes the four bytes of a word, the low byte at the lowest address (`20_memory.md` R39, R40). -/
def Memory.storeWord (unlisted : Nat → Option Byte) (m : Memory) (a : Nat) (w : Word) : Memory :=
  (((m.store unlisted a (byteOf w 0)).store unlisted (a + 1) (byteOf w 1)).store unlisted (a + 2) (byteOf w 2)).store
    unlisted (a + 3) (byteOf w 3)

/-! ### The ring (`10_state.md` R16) -/

/-- The place of `RING[c][k]` in the ring's list: rows of `RING_DEPTH` words. The ring has no host address (R35); this
numbering is the model's (log 11). -/
def ringAddr (hw : Hardware) (c k : Nat) : Nat := 4 * (c * hw.ringDepth + k)

/-- One byte of the ring: what was written last, else 0 where PREPARE cleared it, else the free value (log 9). -/
def ringByte (hw : Hardware) (r : Ring) (a : Nat) : Byte :=
  (r.cells.lookup a).getD (if r.cleared hw a then 0#8 else Config.unclearedByte r.epoch a)

/-- `RING[c][k]` read (`MemRead` of R11). -/
def ringGet (hw : Hardware) (r : Ring) (c k : Nat) : Word :=
  wordOf (ringByte hw r (ringAddr hw c k)) (ringByte hw r (ringAddr hw c k + 1)) (ringByte hw r (ringAddr hw c k + 2))
    (ringByte hw r (ringAddr hw c k + 3))

/-- `RING[c][k] <- w` (`MemWrite` of R11). -/
def ringSet (hw : Hardware) (r : Ring) (c k : Nat) (w : Word) : Ring :=
  { r with cells := r.cells.storeWord (r.unlisted hw) (ringAddr hw c k) w }

/-- PREPARE's clearing loops (`44_system.md` R106), as one update: `RING[c][k] <- 0` for `c < ch`, `k < cap`, by making that
region the cleared one with nothing listed. The other elements "are not cleared and not observable" (R106, U12). -/
def ringClear (ch cap : Nat) (r : Ring) : Ring := ⟨r.epoch + 1, ch, cap, []⟩

/-- A ring whose content is unspecified, after a failed PREPARE or a reset (R106, `70_reset_and_hazards.md` R136, U11). -/
def ringLose (r : Ring) : Ring := ⟨r.epoch + 1, 0, 0, []⟩

/-! ### The block buffers (`10_state.md` R24) -/

/-- The host address of `BUF[b][c][i]` (`20_memory.md` R37). -/
def bufAddr (hw : Hardware) (b : BufId) (c i : Nat) : Nat :=
  0x01000000 * (b.code.toNat + 1) + 4 * (c * hw.blkDepth + i)

/-- One byte of the buffer windows: what was last written, else the free value (log 8). -/
def Buffers.byte (m : Buffers) (a : Nat) : Byte := (m.cells.lookup a).getD (Config.powerOnByte m.epoch a)

/-- The word at a byte address of the buffer windows (R39, R40). -/
def Buffers.wordAt (m : Buffers) (a : Nat) : Word :=
  wordOf (m.byte a) (m.byte (a + 1)) (m.byte (a + 2)) (m.byte (a + 3))

/-- Writes the word at a byte address of the buffer windows (R39, R40). -/
def Buffers.setWordAt (m : Buffers) (a : Nat) (w : Word) : Buffers :=
  { m with cells := m.cells.storeWord bufUnlisted a w }

/-- `BUF[b][c][i]` read. -/
def Buffers.get (m : Buffers) (hw : Hardware) (b : BufId) (c i : Nat) : Word := m.wordAt (bufAddr hw b c i)

/-- `BUF[b][c][i] <- w`. -/
def Buffers.set (m : Buffers) (hw : Hardware) (b : BufId) (c i : Nat) (w : Word) : Buffers :=
  m.setWordAt (bufAddr hw b c i) w

/-! ### Register banks -/

/-- `PCUR[i]` or `PDEF[i]` read (R19). -/
def paramGet (p : Params) : Fin 5 → Word
  | 0 => p.time
  | 1 => p.echoVolume
  | 2 => p.regen
  | 3 => p.dry
  | 4 => p.wet

/-- `PCUR[i] <- v` (R20): any word is stored as given. -/
def paramSet (p : Params) (i : Fin 5) (v : Word) : Params :=
  match i with
  | 0 => { p with time := v }
  | 1 => { p with echoVolume := v }
  | 2 => { p with regen := v }
  | 3 => { p with dry := v }
  | 4 => { p with wet := v }

/-- The four gain parameters in the order of the gain-ramp registers (R21): echoVolume, regen, dry, wet. -/
def paramGains (p : Params) : Gains := ⟨p.echoVolume, p.regen, p.dry, p.wet⟩

/-- `LAST_IN`, `LAST_FB`, `LAST_DRY`, `LAST_WET` by position (`20_memory.md` R36). -/
def Gains.get (g : Gains) : Fin 4 → Word
  | 0 => g.input
  | 1 => g.feedback
  | 2 => g.dry
  | 3 => g.wet

/-- `ARG[k]` read (R25). -/
def Args.get (a : Args) : Fin 4 → Word
  | 0 => a.a0
  | 1 => a.a1
  | 2 => a.a2
  | 3 => a.a3

/-- `ARG[k] <- v` (R25). -/
def Args.set (a : Args) (k : Fin 4) (v : Word) : Args :=
  match k with
  | 0 => { a with a0 := v }
  | 1 => { a with a1 := v }
  | 2 => { a with a2 := v }
  | 3 => { a with a3 := v }

/-- `RES[k]` read (R25). -/
def Results.get (r : Results) : Fin 3 → Word
  | 0 => r.r0
  | 1 => r.r1
  | 2 => r.r2

/-! ### Updates of the state -/

/-- `BUF[b][c][i]` of the state. -/
def State.bufAt (s : State) (b : BufId) (c i : Nat) : Word := s.buf.get s.hw b c i

/-- `RING[c][k]` of the state. -/
def State.ringAt (s : State) (c k : Nat) : Word := ringGet s.hw s.ring c k

/-- The ring replaced. -/
def State.setRing (s : State) (r : Ring) : State := { s with ring := r }

/-- The block buffers replaced. -/
def State.setBuf (s : State) (m : Buffers) : State := { s with buf := m }

/-- `WCUR` written. -/
def State.setWcur (s : State) (n : Nat) : State := { s with wcur := BitVec.ofNat 32 n }

/-- All four `LAST_*` written. -/
def State.setLast (s : State) (g : Gains) : State := { s with last := g }

/-- `PCUR[i]` written. -/
def State.setPcur (s : State) (i : Fin 5) (v : Word) : State := { s with pcur := paramSet s.pcur i v }

/-- `ARG[k]` written. -/
def State.setArg (s : State) (k : Fin 4) (v : Word) : State := { s with arg := s.arg.set k v }

/-- `RES[0..2]` written. -/
def State.setRes (s : State) (r : Results) : State := { s with res := r }

/-- The word a HostRead returns (R38; log 3). -/
def State.setReadData (s : State) (w : Word) : State := { s with readData := some w }

/-- The pending actions replaced (log 1). -/
def State.setInbox (s : State) (rest : List Action) : State := { s with inbox := rest }

/-- The configuration of a successful PREPARE (`44_system.md` R106), `WCUR` at 0. -/
def State.configure (s : State) (sr cap nch maxblk : Word) : State :=
  { s with prepared := true, sr := sr, cap := cap, nch := nch, maxblk := maxblk, wcur := 0#32 }

/-- The state after a failed PREPARE (`44_system.md` R106): un-prepared, all six at 0, the ring content unspecified. -/
def State.unprepare (s : State) : State :=
  { s with
    prepared := false, sr := 0#32, cap := 0#32, nch := 0#32, maxblk := 0#32, wcur := 0#32, ring := ringLose s.ring }

/-! ### How a command ends -/

/-- The Outcome of a step of this machine. -/
abbrev Result := Host.Outcome State Fault Refusal

/-- TAKING A FAULT (`60_exceptions.md` R118): `LASTERR <- k`, `FAULTLOG[k] <- 1`, and no other state changes. There is no
vector, no saved state and no mode to change. -/
def State.raise (s : State) (k : ErrCode) : State :=
  { s with lasterr := errByte k, faultlog := logged k s.faultlog }

/-- A command that completes: `LASTERR <- 0`, FAULTLOG left alone (R118). There is no return command (R122). -/
def State.complete (s : State) : State := { s with lasterr := 0#8 }

/-- An access error (`20_memory.md` R42): `FAULTLOG[6] <- 1`, LASTERR unchanged. -/
def State.accessError (s : State) : State := { s with faultlog := logged .bus s.faultlog }

/-- The first check that is violated, in the order a command lists them (R121). -/
def firstFault : List (Bool × ErrCode) → Option ErrCode
  | [] => none
  | (violated, k) :: rest => if violated then some k else firstFault rest

/-- One command: its checks before any state changes, then its effect (R118). -/
def runCommand (checks : List (Bool × ErrCode)) (effect : State → State) (s : State) : Result :=
  .next (match firstFault checks with
    | some k => s.raise k
    | none => (effect s).complete)

end Sys2Proof.Machine
end

