-- ==== Sys2Proof/Machine/Operands.lean ====
section
/-! DEFINITION. The operands of the commands by position (`30_encoding.md` R57) and the checks commands share. Nothing is
scaled, shifted or extended on the way; a command never writes an ARG register. -/

namespace Sys2Proof.Machine

/-- `u(ARG[0])`: ring start index, sample index, parameter index or sample rate (R57). -/
def State.position (s : State) : Nat := u (s.arg.get 0)

/-- `u(ARG[1])`: a length in samples (R57). -/
def State.length (s : State) : Nat := u (s.arg.get 1)

/-- `ARG[1]` as the value of SETPARAM, the word unchanged (R57). -/
def State.value (s : State) : Word := s.arg.get 1

/-- `ARG[2]` as `gainFrom`, a Q8.24 word (R57). -/
def State.gainFrom (s : State) : Word := s.arg.get 2

/-- `ARG[3]` as `gainTo`, a Q8.24 word (R57). -/
def State.gainTo (s : State) : Word := s.arg.get 3

/-- `u(ARG[2])` as `rateDivide` (R57). -/
def State.rateDivide (s : State) : Nat := u (s.arg.get 2)

/-- `u(ARG[2])` as a channel count (R57). -/
def State.channelCount (s : State) : Nat := u (s.arg.get 2)

/-- `u(ARG[3])` as `bitDepth` (R57). -/
def State.bitDepth (s : State) : Nat := u (s.arg.get 3)

/-- The parameter an index operand names, if it is one of 0..4 (`44_system.md` R109, R110). -/
def paramIndex (n : Nat) : Option (Fin 5) := if h : n < 5 then some ⟨n, h⟩ else none

/-- `PREPARED = 1`, else `E_NOT_PREPARED` (`60_exceptions.md` R117). -/
def needPrepared (s : State) : Bool × ErrCode := (!s.prepared, .notPrepared)

/-- `c < NCH`, else `E_BAD_ARG`. -/
def needChannel (s : State) (c : Nat) : Bool × ErrCode := (decide (u s.nch ≤ c), .badArg)

/-- The checks of RB.WRITE, RB.WRITE.RAMP and RB.READADD.RAMP, in order (`40_ring.md` R76). -/
def ringChecks (s : State) (c : Nat) : List (Bool × ErrCode) :=
  [needPrepared s, needChannel s c, (decide (u s.cap ≤ s.position), .badArg),
    (decide (u s.cap < s.length) || decide (u s.maxblk < s.length), .badArg)]

/-- The checks of DECIMATE.BLK and of the four BUF commands, in order (`41_crush.md` R79). -/
def bufChecks (s : State) (c : Nat) : List (Bool × ErrCode) :=
  [needPrepared s, needChannel s c, (decide (u s.maxblk < s.length), .badArg)]

end Sys2Proof.Machine
end

