-- ==== Sys2Proof/Machine/Crush.lean ====
section
/-! DEFINITION. The Bitcrush/Decimate Stage commands (`41_crush.md`): RATEDIV, DECIMATE, DECIMATE.BLK. -/

namespace Sys2Proof.Machine

/-- One sample: amplitude quantization, then sample and hold from the most recent multiple of `rd` (R81). The hold copies
whatever that element holds at this moment. -/
def decimateSample (hw : Hardware) (c : Nat) (b : BufId) (rd bd i : Nat) (m : Buffers) : Buffers :=
  let q := m.set hw b c i (quant hw.quantMode (m.get hw b c i) bd)
  if 1 < rd ∧ i % rd ≠ 0 then q.set hw b c i (q.get hw b c (i - i % rd)) else q

/-- The samples `0 .. len-1` of a block, strictly left to right (R82). -/
def decimateBlock (hw : Hardware) (c : Nat) (b : BufId) (len rd bd : Nat) (m : Buffers) : Buffers :=
  loop len (fun i m => decimateSample hw c b rd bd i m) m

/-- `effectiveRate > 0`, else `E_RATE_UNDEF` (R80). -/
def needRate (s : State) : Bool × ErrCode := (decide (crushRate s.pcur.time ≤ 0), .rateUndef)

/-- `bd <= 24`, else `E_BAD_ARG` (R81, R82). -/
def needBitDepth (s : State) : Bool × ErrCode := (decide (24 < s.bitDepth), .badArg)

/-- RATEDIV (R80). -/
def execRatediv (s : State) : Result :=
  runCommand [needPrepared s, needRate s]
    (fun s => s.setRes { s.res with r0 := BitVec.ofNat 32 (rateDivider s.sr s.pcur.time) }) s

/-- DECIMATE (R81). -/
def execDecimate (c : Nat) (b : BufId) (s : State) : Result :=
  runCommand [needPrepared s, needChannel s c, (decide (u s.maxblk ≤ s.position), .badArg), needBitDepth s]
    (fun s => s.setBuf (decimateSample s.hw c b s.rateDivide s.bitDepth s.position s.buf)) s

/-- DECIMATE.BLK (R82). -/
def execDecimateBlk (c : Nat) (b : BufId) (s : State) : Result :=
  runCommand (bufChecks s c ++ [needBitDepth s])
    (fun s => s.setBuf (decimateBlock s.hw c b s.length s.rateDivide s.bitDepth s.buf)) s

end Sys2Proof.Machine
end

