-- ==== Sys2Proof/Machine/Mix.lean ====
section
/-! DEFINITION. The ramped gain and mixing commands (`42_mix.md`): BUF.COPY, BUF.SUB, BUF.COPY.RAMP, BUF.ADD.RAMP,
RAMP.COMMIT. -/

namespace Sys2Proof.Machine

/-- The element-wise pass the four BUF commands share (R87): element `i` of `dst` becomes `f i d x`, from its own old value
`d` and element `i` of `src`, for `i < len` in increasing order. -/
def mixBlock (hw : Hardware) (c : Nat) (dst src : BufId) (len : Nat) (f : Nat → Word → Word → Word) (m : Buffers) :
    Buffers :=
  loop len (fun i m => m.set hw dst c i (f i (m.get hw dst c i) (m.get hw src c i))) m

/-- R88: the source element, bit for bit. -/
def copySample (_i : Nat) (_d x : Word) : Word := x

/-- R89: the saturated difference. -/
def subSample (_i : Nat) (d x : Word) : Word := subSat d x

/-- R90: the source element scaled by the ramp. -/
def copyRampSample (a b : Word) (len : Nat) (i : Nat) (_d x : Word) : Word := scaled x a b i len

/-- R91: the destination plus the scaled source element. -/
def addRampSample (a b : Word) (len : Nat) (i : Nat) (d x : Word) : Word := addScaled d x a b i len

/-- BUF.COPY (R88). -/
def execBufCopy (c : Nat) (dst src : BufId) (s : State) : Result :=
  runCommand (bufChecks s c) (fun s => s.setBuf (mixBlock s.hw c dst src s.length copySample s.buf)) s

/-- BUF.SUB (R89). -/
def execBufSub (c : Nat) (dst src : BufId) (s : State) : Result :=
  runCommand (bufChecks s c) (fun s => s.setBuf (mixBlock s.hw c dst src s.length subSample s.buf)) s

/-- BUF.COPY.RAMP (R90). -/
def execBufCopyRamp (c : Nat) (dst src : BufId) (s : State) : Result :=
  runCommand (bufChecks s c)
    (fun s => s.setBuf (mixBlock s.hw c dst src s.length (copyRampSample s.gainFrom s.gainTo s.length) s.buf)) s

/-- BUF.ADD.RAMP (R91). -/
def execBufAddRamp (c : Nat) (dst src : BufId) (s : State) : Result :=
  runCommand (bufChecks s c)
    (fun s => s.setBuf (mixBlock s.hw c dst src s.length (addRampSample s.gainFrom s.gainTo s.length) s.buf)) s

/-- RAMP.COMMIT (R92): no check; the current parameter words become the gain-ramp state. -/
def execRampCommit (s : State) : Result :=
  runCommand [] (fun s => s.setLast (paramGains s.pcur)) s

end Sys2Proof.Machine
end

