-- ==== Sys2Proof/Machine/Ring.lean ====
section
/-! DEFINITION. The Ring Delay Buffer commands (`40_ring.md`): RB.WRITE, RB.WRITE.RAMP, RB.READADD.RAMP, RB.RDPOS,
CURSOR.ADV. -/

namespace Sys2Proof.Machine

/-- The ring element sample `i` of an access from `s` uses: `(s + i) mod CAP` (R70). -/
def ringIndex (cap s i : Nat) : Nat := (s + i) % cap

/-- The write port: sample `i` of `len` is `f i` and goes to `RING[c][(s + i) mod cap]` (R70, R71, R72). -/
def ringWriteBlock (hw : Hardware) (cap c s len : Nat) (f : Nat → Word) (r : Ring) : Ring :=
  loop len (fun i r => ringSet hw r c (ringIndex cap s i) (f i)) r

/-- The samples RB.WRITE stores: bit for bit (R71). -/
def plainSamples (hw : Hardware) (m : Buffers) (src : BufId) (c : Nat) : Nat → Word := fun i => m.get hw src c i

/-- The samples RB.WRITE.RAMP stores: scaled by the ramp from `a` to `b` over `len` samples (R72). -/
def rampSamples (hw : Hardware) (m : Buffers) (src : BufId) (c : Nat) (a b : Word) (len : Nat) : Nat → Word :=
  fun i => scaled (m.get hw src c i) a b i len

/-- The read port: adds the scaled ring samples into a buffer (R74). -/
def ringReadAddBlock (hw : Hardware) (cap c s len : Nat) (dst : BufId) (a b : Word) (r : Ring) (m : Buffers) :
    Buffers :=
  loop len (fun i m =>
    m.set hw dst c i (addScaled (m.get hw dst c i) (ringGet hw r c (ringIndex cap s i)) a b i len)) m

/-- RB.WRITE (R71). -/
def execRbWrite (c : Nat) (src : BufId) (s : State) : Result :=
  runCommand (ringChecks s c)
    (fun s => s.setRing (ringWriteBlock s.hw (u s.cap) c s.position s.length (plainSamples s.hw s.buf src c) s.ring)) s

/-- RB.WRITE.RAMP (R72). -/
def execRbWriteRamp (c : Nat) (src : BufId) (s : State) : Result :=
  runCommand (ringChecks s c)
    (fun s => s.setRing (ringWriteBlock s.hw (u s.cap) c s.position s.length
      (rampSamples s.hw s.buf src c s.gainFrom s.gainTo s.length) s.ring)) s

/-- RB.READADD.RAMP (R74). -/
def execRbReadaddRamp (c : Nat) (dst : BufId) (s : State) : Result :=
  runCommand (ringChecks s c)
    (fun s => s.setBuf (ringReadAddBlock s.hw (u s.cap) c s.position s.length dst s.gainFrom s.gainTo s.ring s.buf)) s

/-- RB.RDPOS (R73): `RES[0]` the read position, `RES[1]` the delay as a 32-bit two's-complement word. -/
def execRbRdpos (s : State) : Result :=
  runCommand [needPrepared s]
    (fun s => s.setRes { s.res with
      r0 := BitVec.ofNat 32 (readPosition s.wcur s.cap s.sr s.pcur.time)
      r1 := word (delaySamples s.sr s.pcur.time) }) s

/-- CURSOR.ADV (R75). -/
def execCursorAdv (s : State) : Result :=
  runCommand [needPrepared s, (decide (u s.cap < s.length), .badArg)]
    (fun s => s.setWcur ((u s.wcur + s.length) % u s.cap)) s

end Sys2Proof.Machine
end

