-- ==== Sys2Proof/Machine/Block.lean ====
section
/-! DEFINITION. The Block Processor (`43_block.md`): PROCESS. -/

namespace Sys2Proof.Machine

/-- What PROCESS holds fixed during its channel loop (R96): the block length, the start-of-command configuration, cursor
and gain-ramp state, and the parameter snapshot with the values derived from it (`10_state.md` R29). -/
structure Block where
  hw : Hardware
  len : Nat
  cap : Nat
  wcur : Nat
  rd : Nat
  rp : Nat
  before : Gains
  target : Gains
  deriving DecidableEq, Repr

/-- The snapshot and the derived values of R96, from the state at the start of the command. -/
def blockOf (s : State) : Block where
  hw := s.hw
  len := s.length
  cap := u s.cap
  wcur := u s.wcur
  rd := rateDivider s.sr s.pcur.time
  rp := readPosition s.wcur s.cap s.sr s.pcur.time
  before := s.last
  target := paramGains s.pcur

/-- The two memories a channel of a block reads and writes. -/
structure Store where
  ring : Ring
  buf : Buffers
  deriving DecidableEq, Repr

/-- Steps 1 and 2 of R96: both scratch copies, and the raw WET copy into the ring. -/
def blockWrite (p : Block) (c : Nat) (x : Store) : Store :=
  let m := mixBlock p.hw c .wet .io p.len copySample x.buf
  let m := mixBlock p.hw c .dry .io p.len copySample m
  ⟨ringWriteBlock p.hw p.cap c p.wcur p.len (plainSamples p.hw m .wet c) x.ring, m⟩

/-- Steps 3 and 4 of R96: WET and IO decimated, then the delayed ring samples added to WET. -/
def blockRead (p : Block) (c : Nat) (x : Store) : Store :=
  let m := decimateBlock p.hw c .wet p.len p.rd Config.bitdepth x.buf
  let m := decimateBlock p.hw c .io p.len p.rd Config.bitdepth m
  ⟨x.ring, ringReadAddBlock p.hw p.cap c p.rp p.len .wet p.before.feedback p.target.feedback x.ring m⟩

/-- Step 5 of R96: WET written back into the ring under the input gain, then the clean input subtracted from WET. -/
def blockRewrite (p : Block) (c : Nat) (x : Store) : Store :=
  let r := ringWriteBlock p.hw p.cap c p.wcur p.len
    (rampSamples p.hw x.buf .wet c p.before.input p.target.input p.len) x.ring
  ⟨r, mixBlock p.hw c .wet .dry p.len subSample x.buf⟩

/-- Step 6 of R96: the output from DRY under the dry ramp, plus WET under the wet ramp. -/
def blockMix (p : Block) (c : Nat) (x : Store) : Store :=
  let m := mixBlock p.hw c .io .dry p.len (copyRampSample p.before.dry p.target.dry p.len) x.buf
  let m := mixBlock p.hw c .io .wet p.len (addRampSample p.before.wet p.target.wet p.len) m
  ⟨x.ring, m⟩

/-- Steps 1 to 6 of R96 for one channel. -/
def processChannel (p : Block) (c : Nat) (x : Store) : Store :=
  blockMix p c (blockRewrite p c (blockRead p c (blockWrite p c x)))

/-- The channel loop of R96, channels in increasing order. -/
def processChannels (p : Block) (k : Nat) (x : Store) : Store :=
  loop k (fun c x => processChannel p c x) x

/-- The effect of PROCESS once its checks have passed (R96): the channel loop, then step 7 once, then the cursor. -/
def processEffect (s : State) : State :=
  let x := processChannels (blockOf s) s.channelCount ⟨s.ring, s.buf⟩
  (((s.setRing x.ring).setBuf x.buf).setLast (paramGains s.pcur)).setWcur ((u s.wcur + s.length) % u s.cap)

/-- The checks of PROCESS, in order (R96). -/
def processChecks (s : State) : List (Bool × ErrCode) :=
  [needPrepared s, (decide (u s.maxblk < s.length) || decide (u s.cap < s.length), .badArg),
    (decide (u s.nch < s.channelCount), .badArg), needRate s]

/-- PROCESS (R96). -/
def execProcess (s : State) : Result := runCommand (processChecks s) processEffect s

end Sys2Proof.Machine
end

