-- ==== Sys2Proof/Machine/System.lean ====
section
/-! DEFINITION. The host-interface commands (`44_system.md`): NOP, PREPARE, GETPCOUNT, GETPARAM, SETPARAM, SAVESTATE,
LOADSTATE. -/

namespace Sys2Proof.Machine

/-- NOP (R105): no state change but `LASTERR <- 0`. -/
def execNop (s : State) : Result := runCommand [] (fun s => s) s

/-- The ring capacity for a sample rate: `ceil(RING_SECONDS * sr) = 2 * sr` (R106). -/
def capacityFor (sr : Nat) : Nat := Config.ringSeconds * sr

/-- "allocation" as the comparison R106 makes: the request exceeds a physical size. -/
def tooLarge (hw : Hardware) (cap ch mb : Nat) : Bool :=
  decide (hw.ringDepth < cap) || decide (hw.maxCh < ch) || decide (hw.blkDepth < mb)

/-- PREPARE (R106). `E_ALLOC` is the only fault that changes other state: it un-prepares the block. -/
def execPrepare (s : State) : Result :=
  if s.position = 0 then .next (s.raise .badArg)
  else if tooLarge s.hw (capacityFor s.position) s.channelCount s.length then .next (s.unprepare.raise .alloc)
  else
    .next ((s.configure (s.arg.get 0) (BitVec.ofNat 32 (capacityFor s.position)) (s.arg.get 2) (s.arg.get 1)).setRing
      (ringClear s.channelCount (capacityFor s.position) s.ring)).complete

/-- GETPCOUNT (R108). -/
def execGetpcount (s : State) : Result :=
  runCommand [] (fun s => s.setRes { s.res with r0 := BitVec.ofNat 32 Config.nparam }) s

/-- GETPARAM (R109): the name id, the default and the current value. -/
def execGetparam (s : State) : Result :=
  match paramIndex s.position with
  | none => .next (s.raise .badArg)
  | some i => .next (s.setRes ⟨BitVec.ofNat 32 i, paramGet s.pdef i, paramGet s.pcur i⟩).complete

/-- SETPARAM (R110): any value word is stored as given. -/
def execSetparam (s : State) : Result :=
  match paramIndex s.position with
  | none => .next (s.raise .badArg)
  | some i => .next (s.setPcur i s.value).complete

/-- SAVESTATE (R111): the length of the saved state is always zero; nothing is saved. -/
def execSavestate (s : State) : Result :=
  runCommand [] (fun s => s.setRes { s.res with r0 := 0#32 }) s

/-- LOADSTATE (R112): the operand is ignored and nothing changes but `LASTERR <- 0`. -/
def execLoadstate (s : State) : Result := runCommand [] (fun s => s) s

end Sys2Proof.Machine
end

