-- ==== Sys2Proof/Machine/Dispatch.lean ====
section
/-! DEFINITION. The meaning of each command, one arm per row of `30_encoding.md` R58. -/

namespace Sys2Proof.Machine

/-- What one command does to the state (R58, column "rule"). -/
def exec (i : Instr) (s : State) : Host.Outcome State Fault Refusal :=
  match i with
  | .nop => Sys2Proof.Machine.execNop s
  | .prepare => Sys2Proof.Machine.execPrepare s
  | .process => Sys2Proof.Machine.execProcess s
  | .getpcount => Sys2Proof.Machine.execGetpcount s
  | .getparam => Sys2Proof.Machine.execGetparam s
  | .setparam => Sys2Proof.Machine.execSetparam s
  | .savestate => Sys2Proof.Machine.execSavestate s
  | .loadstate => Sys2Proof.Machine.execLoadstate s
  | .rbWrite ch src => Sys2Proof.Machine.execRbWrite ch src s
  | .rbWriteRamp ch src => Sys2Proof.Machine.execRbWriteRamp ch src s
  | .rbReadaddRamp ch dst => Sys2Proof.Machine.execRbReadaddRamp ch dst s
  | .rbRdpos => Sys2Proof.Machine.execRbRdpos s
  | .cursorAdv => Sys2Proof.Machine.execCursorAdv s
  | .ratediv => Sys2Proof.Machine.execRatediv s
  | .decimate ch buf => Sys2Proof.Machine.execDecimate ch buf s
  | .decimateBlk ch buf => Sys2Proof.Machine.execDecimateBlk ch buf s
  | .bufCopy ch dst src => Sys2Proof.Machine.execBufCopy ch dst src s
  | .bufSub ch dst src => Sys2Proof.Machine.execBufSub ch dst src s
  | .bufCopyRamp ch dst src => Sys2Proof.Machine.execBufCopyRamp ch dst src s
  | .bufAddRamp ch dst src => Sys2Proof.Machine.execBufAddRamp ch dst src s
  | .rampCommit => Sys2Proof.Machine.execRampCommit s

end Sys2Proof.Machine
end

