-- ==== Sys2Proof/Machine/Bus.lean ====
section
/-! DEFINITION. The host interface (`20_memory.md`): the register map, the buffer windows, the transactions of the agents,
the CMD write that executes a command, and the reset input (`70_reset_and_hazards.md` R135). -/

namespace Sys2Proof.Machine

/-- A register of the map (R36). -/
inductive Reg where
  | id
  | status
  | faultlog
  | cmd
  | arg (k : Fin 4)
  | res (k : Fin 3)
  | sr
  | cap
  | nch
  | maxblk
  | wcur
  | last (k : Fin 4)
  | pcur (i : Fin 5)
  | pdef (i : Fin 5)
  deriving DecidableEq, Repr

/-- The register map of R36, by byte address. -/
def regMap : List (Nat × Reg) :=
  [(0x000, .id), (0x004, .status), (0x008, .faultlog), (0x00C, .cmd),
   (0x010, .arg 0), (0x014, .arg 1), (0x018, .arg 2), (0x01C, .arg 3),
   (0x020, .res 0), (0x024, .res 1), (0x028, .res 2),
   (0x030, .sr), (0x034, .cap), (0x038, .nch), (0x03C, .maxblk), (0x040, .wcur),
   (0x050, .last 0), (0x054, .last 1), (0x058, .last 2), (0x05C, .last 3),
   (0x060, .pcur 0), (0x064, .pcur 1), (0x068, .pcur 2), (0x06C, .pcur 3), (0x070, .pcur 4),
   (0x080, .pdef 0), (0x084, .pdef 1), (0x088, .pdef 2), (0x08C, .pdef 3), (0x090, .pdef 4)]

/-- The register at a byte address; none where the address is unmapped or misaligned (R36, R41). -/
def regAt (addr : Nat) : Option Reg := regMap.lookup addr

/-- The address of CMD (R36). -/
def cmdAddr : Nat := 0x00C

/-- The word ID reads as: ASCII "BDLY" (R26, R36). -/
def idWord : Word := 0x42444C59#32

/-- The content column of R36; none for CMD, which is write only. -/
def State.readReg (s : State) : Reg → Option Word
  | .id => some idWord
  | .status => some (statusWord s.prepared s.lasterr)
  | .faultlog => some s.faultlog
  | .cmd => none
  | .arg k => some (s.arg.get k)
  | .res k => some (s.res.get k)
  | .sr => some s.sr
  | .cap => some s.cap
  | .nch => some s.nch
  | .maxblk => some s.maxblk
  | .wcur => some s.wcur
  | .last k => some (s.last.get k)
  | .pcur i => some (paramGet s.pcur i)
  | .pdef i => some (paramGet s.pdef i)

/-- The access column of R36: a write to an RW register stores the word and does nothing else (R43); none for the others.
A write to CMD is no plain store (`hostWrite`). -/
def State.writeReg (s : State) (v : Word) : Reg → Option State
  | .arg k => some (s.setArg k v)
  | .pcur i => some (s.setPcur i v)
  | .id => none
  | .status => none
  | .faultlog => none
  | .cmd => none
  | .res _ => none
  | .sr => none
  | .cap => none
  | .nch => none
  | .maxblk => none
  | .wcur => none
  | .last _ => none
  | .pdef _ => none

/-- The address is the aligned address of a buffer element (R37, R41): one of the three windows, within the physical
depth. -/
def inWindow (hw : Hardware) (addr : Nat) : Bool :=
  decide (addr % 4 = 0) && decide (0x01000000 ≤ addr) && decide (addr < 0x04000000) &&
    decide (addr % 0x01000000 < 4 * (hw.maxCh * hw.blkDepth))

/-- The word at a mapped, aligned, readable address (R36, R37); none where the access is an error (R42). -/
def State.readWord (s : State) (addr : Nat) : Option Word :=
  match regAt addr with
  | some r => s.readReg r
  | none => if inWindow s.hw addr then some (s.buf.wordAt addr) else none

/-- The state after a write to a mapped, aligned, writable address other than CMD; none where the access is an error
(R42). -/
def State.writeWord (s : State) (addr : Nat) (v : Word) : Option State :=
  match regAt addr with
  | some r => s.writeReg v r
  | none => if inWindow s.hw addr then some (s.setBuf (s.buf.setWordAt addr v)) else none

/-- HostRead (R38): an access error returns 0 and is logged (R42); no other read has a side effect (R43). -/
def hostRead (addr : Nat) (s : State) : State :=
  match s.readWord addr with
  | some w => s.setReadData w
  | none => s.accessError.setReadData 0#32

/-- One command (`30_encoding.md` R59, R60): an illegal word raises `E_ILLEGAL_CMD`, decided from the word alone
(`60_exceptions.md` R116). -/
def command (w : Word) (s : State) : Result :=
  match decode w with
  | .ok i => exec i s
  | .error _ => .next (s.raise .illegalCmd)

/-- HostWrite (R38): at CMD it contains the whole execution of one command (R45, R46). -/
def hostWrite (addr : Nat) (v : Word) (s : State) : Result :=
  if addr = cmdAddr then command v s
  else
    match s.writeWord addr v with
    | some t => .next t
    | none => .next s.accessError

/-- A read of less than a word (R39): an access error at every address (`92_eei_decisions.md` D21; log 19), so it returns 0
and is logged (R42). -/
def narrowRead (_size : Narrow) (_addr : Nat) (s : State) : State := s.accessError.setReadData 0#32

/-- A write of less than a word (R39): an access error at every address, CMD included (D21; log 19), logged and nothing
else (R42). -/
def narrowWrite (_size : Narrow) (_addr : Nat) (_data : Word) (s : State) : State := s.accessError

/-- The reset input (`70_reset_and_hazards.md` R135): every state element at its reset value. BUF and RING are unspecified
again (R136), so their free values are those of a new epoch (log 8, log 9); what the outside still has in mind to do stays
pending. -/
def resetPulse (s : State) : State :=
  { State.resetOf s.hw with ring := ringLose s.ring, buf := ⟨s.buf.epoch + 1, []⟩, inbox := s.inbox }

/-- One action of one agent (`10_state.md` R15). -/
def perform (a : Action) (s : State) : Result :=
  match a with
  | .hostRead addr => .next (hostRead addr s)
  | .hostWrite addr v => hostWrite addr v s
  | .narrowRead size addr => .next (narrowRead size addr s)
  | .narrowWrite size addr v => .next (narrowWrite size addr v s)
  | .ctrlWrite i v => .next (s.setPcur i v)
  | .resetInput => .next (resetPulse s)

/-- The oldest pending action and the state without it (R45; log 1). -/
def nextAction (s : State) : Option (Action × State) :=
  match s.inbox with
  | [] => none
  | a :: rest => some (a, s.setInbox rest)

/-- The host about to write a command word to CMD: the oldest pending action (log 2). -/
def submitCommand (s : State) (w : Word) : State := s.setInbox (.hostWrite cmdAddr w :: s.inbox)

end Sys2Proof.Machine
end

