-- ==== Sys2Proof/Machine/Step.lean ====
section
/-! DEFINITION. One step: the oldest pending action of an agent (`10_state.md` R15, `20_memory.md` R45). With none pending
the block is idle between commands and keeps all its state (`60_exceptions.md` R128). -/

namespace Sys2Proof.Machine

/-- One step of the machine. -/
def step (s : State) : Host.Outcome State Fault Refusal :=
  match nextAction s with
  | none => .next s
  | some (a, t) => perform a t

/-- The command whose word has the low `nbits` bits of `w` stands where the next step takes its command from: the host's
write of it to CMD is the oldest pending action (log 2). -/
def State.withFetchWord (s : State) (nbits w : Nat) : State := submitCommand s (tableWord nbits w)

end Sys2Proof.Machine
end

