-- ==== Sys2Proof/Machine/Assembler.lean ====
section
/-! DEFINITION. The notation of `30_encoding.md` R62 to R64 on tokens: a command line, a directive or a pseudo-instruction
is a list of agent actions. The characters of a line (separators, comments, the spelling of numbers) are left to whoever
splits it into tokens (log 13). -/

namespace Sys2Proof.Machine

/-- An operand of a line (R62): a number, a Q8.24 fraction written with `q`, or a buffer name. -/
inductive Operand where
  | num (n : Nat)
  | q (v : Rat)
  | buf (b : BufId)
  deriving DecidableEq, Repr

/-- The mnemonic of a command (R58). -/
def mnemonic : Instr → String
  | .nop => "NOP"
  | .prepare => "PREPARE"
  | .process => "PROCESS"
  | .getpcount => "GETPCOUNT"
  | .getparam => "GETPARAM"
  | .setparam => "SETPARAM"
  | .savestate => "SAVESTATE"
  | .loadstate => "LOADSTATE"
  | .rbWrite _ _ => "RB.WRITE"
  | .rbWriteRamp _ _ => "RB.WRITE.RAMP"
  | .rbReadaddRamp _ _ => "RB.READADD.RAMP"
  | .rbRdpos => "RB.RDPOS"
  | .cursorAdv => "CURSOR.ADV"
  | .ratediv => "RATEDIV"
  | .decimate _ _ => "DECIMATE"
  | .decimateBlk _ _ => "DECIMATE.BLK"
  | .bufCopy _ _ _ => "BUF.COPY"
  | .bufSub _ _ _ => "BUF.SUB"
  | .bufCopyRamp _ _ _ => "BUF.COPY.RAMP"
  | .bufAddRamp _ _ _ => "BUF.ADD.RAMP"
  | .rampCommit => "RAMP.COMMIT"

/-- The ARG registers a command uses, ascending (R58, columns ARG[0] to ARG[3]; R63). -/
def argsUsed : Instr → List (Fin 4)
  | .nop => []
  | .prepare => [0, 1, 2]
  | .process => [1, 2]
  | .getpcount => []
  | .getparam => [0]
  | .setparam => [0, 1]
  | .savestate => []
  | .loadstate => [1]
  | .rbWrite _ _ => [0, 1]
  | .rbWriteRamp _ _ => [0, 1, 2, 3]
  | .rbReadaddRamp _ _ => [0, 1, 2, 3]
  | .rbRdpos => []
  | .cursorAdv => [1]
  | .ratediv => []
  | .decimate _ _ => [0, 2, 3]
  | .decimateBlk _ _ => [1, 2, 3]
  | .bufCopy _ _ _ => [1]
  | .bufSub _ _ _ => [1]
  | .bufCopyRamp _ _ _ => [1, 2, 3]
  | .bufAddRamp _ _ _ => [1, 2, 3]
  | .rampCommit => []

/-- The byte address of `ARG[k]` (`20_memory.md` R36). -/
def argAddr (k : Fin 4) : Nat := 0x010 + 4 * k.val

/-- The HostWrites of a command line (R63): each ARG register the command uses, ascending, then the command word to CMD.
An assembler may omit a write whose register already holds the value; this one omits none. -/
def assemble (i : Instr) (operands : List Word) : List Action :=
  (List.zipWith (fun k w => Action.hostWrite (argAddr k) w) (argsUsed i) operands) ++
    [Action.hostWrite cmdAddr (encode i)]

/-- The opcode of a mnemonic (R58). -/
def opcodeNamed (name : String) : Option (BitVec 8) :=
  [("NOP", 0x00#8), ("PREPARE", 0x01#8), ("PROCESS", 0x02#8), ("GETPCOUNT", 0x03#8), ("GETPARAM", 0x04#8),
   ("SETPARAM", 0x05#8), ("SAVESTATE", 0x06#8), ("LOADSTATE", 0x07#8), ("RB.WRITE", 0x10#8),
   ("RB.WRITE.RAMP", 0x11#8), ("RB.READADD.RAMP", 0x12#8), ("RB.RDPOS", 0x13#8), ("CURSOR.ADV", 0x14#8),
   ("RATEDIV", 0x18#8), ("DECIMATE", 0x19#8), ("DECIMATE.BLK", 0x1A#8), ("BUF.COPY", 0x20#8), ("BUF.SUB", 0x21#8),
   ("BUF.COPY.RAMP", 0x22#8), ("BUF.ADD.RAMP", 0x23#8), ("RAMP.COMMIT", 0x24#8)].lookup name

/-- The value of an operand that goes to an ARG register (R62): `q` means `fx` of the fraction. -/
def operandWord : Operand → Option Word
  | .num n => if n < 2 ^ 32 then some (BitVec.ofNat 32 n) else none
  | .q v => some (fx v)
  | .buf _ => none

/-- The operands of the command word, in the order of R62 (channel, destination, source, as the format has them), and the
operands left for the ARG registers. -/
def wordOperands : Format → List Operand → Option (Nat × BufId × BufId × List Operand)
  | .z, rest => some (0, .io, .io, rest)
  | .ca, .num c :: .buf d :: rest => some (c, d, .io, rest)
  | .cb, .num c :: .buf x :: rest => some (c, .io, x, rest)
  | .cab, .num c :: .buf d :: .buf x :: rest => some (c, d, x, rest)
  | .ca, _ => none
  | .cb, _ => none
  | .cab, _ => none

/-- The values of all ARG operands, if each is one. -/
def operandWords : List Operand → Option (List Word)
  | [] => some []
  | o :: rest =>
    match operandWord o, operandWords rest with
    | some w, some ws => some (w :: ws)
    | _, _ => none

/-- One command line (R62, R63); none where the line is not of the form R62 gives. -/
def assembleLine (name : String) (operands : List Operand) : Option (List Action) :=
  match opcodeNamed name with
  | none => none
  | some opc =>
    match formatOf opc with
    | none => none
    | some fmt =>
      match wordOperands fmt operands with
      | none => none
      | some (c, ba, bb, rest) =>
        match instrOf opc c ba bb, operandWords rest with
        | some i, some ws =>
          if i.wellFormed && decide (ws.length = (argsUsed i).length) then some (assemble i ws) else none
        | _, _ => none

/-- The directive `WR addr, data` (R64). -/
def directiveWr (addr : Nat) (data : Word) : List Action := [.hostWrite addr data]

/-- The directive `RD addr` (R64). -/
def directiveRd (addr : Nat) : List Action := [.hostRead addr]

/-- The directive `CTRL i, value` (R64). -/
def directiveCtrl (i : Fin 5) (v : Word) : List Action := [.ctrlWrite i v]

/-- The directive `LD buf, c, i0, w0, w1, ...` (R64): HostWrites to consecutive elements. -/
def directiveLd (hw : Hardware) (b : BufId) (c : Nat) : Nat → List Word → List Action
  | _, [] => []
  | i, w :: ws => .hostWrite (bufAddr hw b c i) w :: directiveLd hw b c (i + 1) ws

/-- The pseudo-instruction `RAMP.PRELOAD` (R64): `PROCESS 0, 0`. -/
def rampPreload : List Action := assemble .process [0#32, 0#32]

/-- The pseudo-instructions `SETPARAM.time v` .. `SETPARAM.wet v` (R64): `SETPARAM 0, v` .. `SETPARAM 4, v`. -/
def setparamNamed (i : Fin 5) (v : Word) : List Action := assemble .setparam [BitVec.ofNat 32 i, v]

end Sys2Proof.Machine
end

