-- ==== Sys2Proof/Safety.lean ====
section
/-! DEFINITION. The terms the claims use: the invariant of every state (`10_state.md` R32), a run, the bytes a command stores
to, and the spec's values written as the rules write them, over exact rationals. Nothing here is part of the machine. -/

namespace Sys2Proof.Machine

/-! ### States and runs -/

/-- The invariant. (a), (b) and (d) of R32 are `unprepared`, `prepared` and `defaults`; `lasterr` and `faultlog` say which
codes and bits there are (R26, R115, U18); the others say that both memories keep their canonical form (log 11), that
the ring's cleared region is the allocation, and that only bytes of elements that exist are listed (R16, R24, R37, U12). -/
structure State.Inv (s : State) : Prop where
  hardware : s.hw.ok = true
  unprepared : s.prepared = false →
    s.sr = 0#32 ∧ s.cap = 0#32 ∧ s.nch = 0#32 ∧ s.maxblk = 0#32 ∧ s.wcur = 0#32
  prepared : s.prepared = true →
    1 ≤ u s.sr ∧ u s.cap = 2 * u s.sr ∧ u s.cap ≤ s.hw.ringDepth ∧ u s.nch ≤ s.hw.maxCh ∧
      u s.maxblk ≤ s.hw.blkDepth ∧ u s.wcur < u s.cap
  defaults : s.pdef = s.hw.defaults
  lasterr : s.lasterr.toNat ≤ 5
  faultlog : s.faultlog &&& 0xFFFFFF81#32 = 0#32
  ringForm : s.ring.cells.wf (s.ring.unlisted s.hw) = true
  bufForm : s.buf.cells.wf bufUnlisted = true
  ringRegion : s.ring.rows = u s.nch ∧ s.ring.width = u s.cap
  ringPlace : ∀ cell ∈ s.ring.cells, s.ring.cleared s.hw cell.1 = true
  bufPlace : ∀ cell ∈ s.buf.cells, inWindow s.hw (cell.1 / 4 * 4) = true

/-- No fault has occurred since reset: R122 reads it from FAULTLOG. -/
def State.faultFree (s : State) : Bool := decide (s.faultlog = 0#32)

/-- The state `k` steps lead to from `s`, if no step on the way stops. -/
def State.after (s : State) : Nat → Option State
  | 0 => some s
  | k + 1 =>
    match step s with
    | .next t => State.after t k
    | .fault _ => none
    | .refused _ => none

/-- What a fault with code `k` leaves (R118): LASTERR is `k`, bit `k` of FAULTLOG is set, and nothing else changed. -/
def faulted (k : Nat) (s : State) : State :=
  { s with lasterr := BitVec.ofNat 8 k, faultlog := s.faultlog ||| BitVec.ofNat 32 (2 ^ k) }

/-! ### The bytes a command stores to -/

/-- `x` is a byte of `BUF[b][c][0 .. len-1]`. -/
def inBufBlock (hw : Hardware) (b : BufId) (c len x : Nat) : Prop := ∃ i < len, ∃ j < 4, x = bufAddr hw b c i + j

/-- `x` is a byte of `RING[c][(s + i) mod cap]` for some `i < len` (R70). -/
def inRingBlock (hw : Hardware) (cap c s len x : Nat) : Prop :=
  ∃ i < len, ∃ j < 4, x = ringAddr hw c ((s + i) % cap) + j

/-- The command completes, element `i` of the block `BUF[b][c]` of length `len` becomes `f i`, every other byte of the
buffers reads as before, and nothing but the buffers and LASTERR changes. -/
def StoresBlock (s : State) (r : Result) (b : BufId) (c len : Nat) (f : Nat → Word) : Prop :=
  ∃ t : State, r = .next t ∧ (∀ i < len, t.bufAt b c i = f i) ∧
    (∀ x, ¬ inBufBlock s.hw b c len x → t.buf.byte x = s.buf.byte x) ∧
    t = { s with buf := t.buf, lasterr := 0#8 }

/-- The command completes, the ring element of sample `i` of an access of length `len` from `start` becomes `f i`, every
other byte of the ring reads as before, and nothing but the ring and LASTERR changes. -/
def StoresRing (s : State) (r : Result) (c start len : Nat) (f : Nat → Word) : Prop :=
  ∃ t : State, r = .next t ∧ (∀ i < len, t.ringAt c ((start + i) % u s.cap) = f i) ∧
    (∀ x, ¬ inRingBlock s.hw (u s.cap) c start len x → ringByte s.hw t.ring x = ringByte s.hw s.ring x) ∧
    t = { s with ring := t.ring, lasterr := 0#8 }

/-! ### The spec's values over exact rationals -/

/-- The index whose quantized sample element `i` of a block ends with (`41_crush.md` R82): the largest multiple of `rd` not
above `i` when `rd > 1`, else `i` itself. -/
def holdIndex (rd i : Nat) : Nat := if 1 < rd then i - i % rd else i

/-- `effectiveRate = 22050 - 22050 * timeParam * 0.5` in Hz (`41_crush.md` R80). -/
def effectiveRate (t : Word) : Rat := 22050 - 22050 * val t * (1 / 2)

/-- `floor(SR / effectiveRate)`, saturated to 32 bits (`41_crush.md` R80). -/
def exactDivider (sr t : Word) : Int := min ((u sr : Rat) / effectiveRate t).floor (2 ^ 32 - 1)

/-- `floor(SR * val(time))`, the delay in whole samples (`40_ring.md` R73). -/
def exactDelay (sr t : Word) : Int := ((u sr : Rat) * val t).floor

/-! ### One block through PROCESS, sample by sample (`43_block.md` R98) -/

/-- `x_i`: the input sample. -/
def inSample (s : State) (c i : Nat) : Word := s.bufAt .io c i

/-- `q_i = quant(x_{j(i)}, 8)`. -/
def crushedSample (s : State) (c i : Nat) : Word :=
  quant s.hw.quantMode (inSample s c (holdIndex (exactDivider s.sr s.pcur.time).toNat i)) 8

/-- `rp`, the read position. -/
def readStart (s : State) : Nat := (((u s.wcur : Int) - exactDelay s.sr s.pcur.time) % (u s.cap : Int)).toNat

/-- How far behind the write cursor, going up the ring, the element is that step 4 reads for sample `i`. -/
def readOffset (s : State) (i : Nat) : Nat := ((readStart s + i) % u s.cap + u s.cap - u s.wcur) % u s.cap

/-- `r_i`: the content of `RING[c][(rp + i) mod CAP]` after step 2, which is the input sample step 2 wrote there if it wrote
there, and the content before the command otherwise. -/
def delayedSample (s : State) (c i : Nat) : Word :=
  if readOffset s i < s.length then inSample s c (readOffset s i) else s.ringAt c ((readStart s + i) % u s.cap)

/-- `w_i`: WET after step 4. -/
def wetSample (s : State) (c i : Nat) : Word :=
  fx (val (crushedSample s c i) + scale (delayedSample s c i) s.last.feedback s.pcur.regen i s.length)

/-- The ring element written by step 5. -/
def trailSample (s : State) (c i : Nat) : Word :=
  fx (scale (wetSample s c i) s.last.input s.pcur.echoVolume i s.length)

/-- `tail_i`: WET after step 5. -/
def tailSample (s : State) (c i : Nat) : Word := fx (val (wetSample s c i) - val (inSample s c i))

/-- `d_i`: IO after the first half of step 6. -/
def drySample (s : State) (c i : Nat) : Word := fx (scale (inSample s c i) s.last.dry s.pcur.dry i s.length)

/-- The output sample, IO after step 6. -/
def outSample (s : State) (c i : Nat) : Word :=
  fx (val (drySample s c i) + scale (tailSample s c i) s.last.wet s.pcur.wet i s.length)

/-- The checks of PROCESS pass (`43_block.md` R96): prepared, `N <= MAXBLK`, `N <= CAP`, `K <= NCH`, `time < 2.0`. -/
def ProcessRuns (s : State) : Prop :=
  s.prepared = true ∧ s.length ≤ u s.maxblk ∧ s.length ≤ u s.cap ∧ s.channelCount ≤ u s.nch ∧ val s.pcur.time < 2

/-! ### PROCESS as micro-commands (`43_block.md` R100) -/

/-- The ten commands of the loop body of R96 for channel `c` of a block of `n` samples, with the operand values the state
`s` before the block gives. -/
def channelCommands (s : State) (n : Word) (c : Nat) : List Action :=
  let rd := BitVec.ofInt 32 (exactDivider s.sr s.pcur.time)
  assemble (.bufCopy c .wet .io) [n] ++
  assemble (.bufCopy c .dry .io) [n] ++
  assemble (.rbWrite c .wet) [s.wcur, n] ++
  assemble (.decimateBlk c .wet) [n, rd, 8#32] ++
  assemble (.decimateBlk c .io) [n, rd, 8#32] ++
  assemble (.rbReadaddRamp c .wet) [BitVec.ofNat 32 (readStart s), n, s.last.feedback, s.pcur.regen] ++
  assemble (.rbWriteRamp c .wet) [s.wcur, n, s.last.input, s.pcur.echoVolume] ++
  assemble (.bufSub c .wet .dry) [n] ++
  assemble (.bufCopyRamp c .io .dry) [n, s.last.dry, s.pcur.dry] ++
  assemble (.bufAddRamp c .io .wet) [n, s.last.wet, s.pcur.wet]

/-- The sequence R100 gives for `PROCESS n, k`. -/
def blockCommands (s : State) (n : Word) (k : Nat) : List Action :=
  assemble .ratediv [] ++ assemble .rbRdpos [] ++
    ((List.range k).flatMap (channelCommands s n) ++ (assemble .rampCommit [] ++ assemble .cursorAdv [n]))

/-! ### Streams written through the ring (`40_ring.md` R77) -/

/-- From `s`, pairs (`RB.WRITE c, b, WCUR, L`; `CURSOR.ADV L`) wrote the samples `xs` and led to `t`. Between the pairs the
host may have put anything into the buffers and the ARG registers. -/
inductive WritesStream (c : Nat) (b : BufId) : State → List Word → State → Prop where
  | start (s : State) : WritesStream c b s [] s
  | block {s t t1 t2 : State} {xs : List Word} (m : Buffers) (len a2 a3 : Word) :
      WritesStream c b s xs t → u len ≤ u t.cap → u len ≤ u t.maxblk →
      exec (.rbWrite c b) { t with buf := m, arg := ⟨t.wcur, len, a2, a3⟩ } = .next t1 →
      exec .cursorAdv t1 = .next t2 →
      WritesStream c b s (xs ++ (List.range (u len)).map fun i => m.get t.hw b c i) t2

/-! ### Causes of the faults (`60_exceptions.md` R115 to R120) -/

/-- The commands that need `PREPARED = 1` (R115, row 2, and R117). -/
def needsPreparation : Instr → Prop
  | .nop => False
  | .prepare => False
  | .process => True
  | .getpcount => False
  | .getparam => False
  | .setparam => False
  | .savestate => False
  | .loadstate => False
  | .rbWrite _ _ => True
  | .rbWriteRamp _ _ => True
  | .rbReadaddRamp _ _ => True
  | .rbRdpos => True
  | .cursorAdv => True
  | .ratediv => True
  | .decimate _ _ => True
  | .decimateBlk _ _ => True
  | .bufCopy _ _ _ => True
  | .bufSub _ _ _ => True
  | .bufCopyRamp _ _ _ => True
  | .bufAddRamp _ _ _ => True
  | .rampCommit => False

/-- The causes of `E_BAD_ARG`, every one (R119). -/
def badArgCause (s : State) : Instr → Prop
  | .nop => False
  | .prepare => u s.arg.a0 = 0
  | .process => u s.maxblk < u s.arg.a1 ∨ u s.cap < u s.arg.a1 ∨ u s.nch < u s.arg.a2
  | .getpcount => False
  | .getparam => 5 ≤ u s.arg.a0
  | .setparam => 5 ≤ u s.arg.a0
  | .savestate => False
  | .loadstate => False
  | .rbWrite c _ => u s.nch ≤ c ∨ u s.cap ≤ u s.arg.a0 ∨ u s.cap < u s.arg.a1 ∨ u s.maxblk < u s.arg.a1
  | .rbWriteRamp c _ => u s.nch ≤ c ∨ u s.cap ≤ u s.arg.a0 ∨ u s.cap < u s.arg.a1 ∨ u s.maxblk < u s.arg.a1
  | .rbReadaddRamp c _ => u s.nch ≤ c ∨ u s.cap ≤ u s.arg.a0 ∨ u s.cap < u s.arg.a1 ∨ u s.maxblk < u s.arg.a1
  | .rbRdpos => False
  | .cursorAdv => u s.cap < u s.arg.a1
  | .ratediv => False
  | .decimate c _ => u s.nch ≤ c ∨ u s.maxblk ≤ u s.arg.a0 ∨ 24 < u s.arg.a3
  | .decimateBlk c _ => u s.nch ≤ c ∨ u s.maxblk < u s.arg.a1 ∨ 24 < u s.arg.a3
  | .bufCopy c _ _ => u s.nch ≤ c ∨ u s.maxblk < u s.arg.a1
  | .bufSub c _ _ => u s.nch ≤ c ∨ u s.maxblk < u s.arg.a1
  | .bufCopyRamp c _ _ => u s.nch ≤ c ∨ u s.maxblk < u s.arg.a1
  | .bufAddRamp c _ _ => u s.nch ≤ c ∨ u s.maxblk < u s.arg.a1
  | .rampCommit => False

/-- The cause of `E_ALLOC` (`44_system.md` R106): the request exceeds a physical size. -/
def allocCause (s : State) : Prop :=
  s.hw.ringDepth < 2 * u s.arg.a0 ∨ s.hw.maxCh < u s.arg.a2 ∨ s.hw.blkDepth < u s.arg.a1

/-- A host address that is misaligned or not in the maps of `20_memory.md` R36 and R37 (R41, R42). -/
def badAddress (hw : Hardware) (addr : Nat) : Prop :=
  addr % 4 ≠ 0 ∨ addr ∈ [0x02C, 0x044, 0x048, 0x04C, 0x074, 0x078, 0x07C] ∨
    (0x094 ≤ addr ∧ addr < 0x01000000) ∨
    (0x01000000 ≤ addr ∧ 4 * (hw.maxCh * hw.blkDepth) ≤ addr % 0x01000000) ∨ 0x04000000 ≤ addr

/-- The address of a register whose access is RO (`20_memory.md` R36). -/
def readOnly (addr : Nat) : Prop :=
  addr ∈ [0x000, 0x004, 0x008, 0x020, 0x024, 0x028, 0x030, 0x034, 0x038, 0x03C, 0x040, 0x050, 0x054, 0x058, 0x05C,
    0x080, 0x084, 0x088, 0x08C, 0x090]

/-- The actions that are access errors (`20_memory.md` R42, and for the narrow ones `92_eei_decisions.md` D21). -/
def isAccessError (hw : Hardware) : Action → Prop
  | .hostRead addr => badAddress hw addr ∨ addr = 0x00C
  | .hostWrite addr _ => badAddress hw addr ∨ readOnly addr
  | .narrowRead _ _ => True
  | .narrowWrite _ _ _ => True
  | .ctrlWrite _ _ => False
  | .resetInput => False

/-! ### Command words (`30_encoding.md` R60) -/

/-- The word is a legal encoding, in numbers: nothing in `[31:16]`, a listed opcode, 0 in every field its format does not
use, and no buffer field used equal to 3. -/
def legalWord (w : Word) : Prop :=
  let opc := u w % 256
  let ch := u w / 256 % 16
  let ba := u w / 4096 % 4
  let bb := u w / 16384 % 4
  u w / 65536 = 0 ∧
    ((opc ∈ [0, 1, 2, 3, 4, 5, 6, 7, 0x13, 0x14, 0x18, 0x24] ∧ ch = 0 ∧ ba = 0 ∧ bb = 0) ∨
      (opc ∈ [0x12, 0x19, 0x1A] ∧ ba ≠ 3 ∧ bb = 0) ∨
      (opc ∈ [0x10, 0x11] ∧ ba = 0 ∧ bb ≠ 3) ∨
      (opc ∈ [0x20, 0x21, 0x22, 0x23] ∧ ba ≠ 3 ∧ bb ≠ 3))

end Sys2Proof.Machine
end

