-- ==== Sys2Proof/Certificates/Slice0/Obligations.lean ====
section
/-! DEFINITION. The statements for the provers, one `def Obligations.<Name> : Prop` each, in the order of OBLIGATIONS.json. -/

open Sys2Proof Sys2Proof.Machine

/-! ### Command words -/

/-- `30_encoding.md` R55 to R59: the decoder answers a command exactly on that command's encoding. -/
def Obligations.DecodeExactlyInvertsEncode : Prop :=
  ∀ (w : Word) (i : Instr), decode w = .ok i ↔ i.wellFormed = true ∧ encode i = w

/-- `30_encoding.md` R60: the legal words are those of the list there, and every other word raises `E_ILLEGAL_CMD` and has
no other effect when the host writes it to CMD, whatever the state. -/
def Obligations.IllegalWordsFaultAndLegalWordsDecode : Prop :=
  ∀ w : Word,
    (legalWord w → ∃ i, decode w = .ok i) ∧
    (¬ legalWord w → (∃ e, decode w = .error e) ∧ ∀ s : State, perform (.hostWrite 0x00C w) s = .next (faulted 1 s))

/-- `95_test_vectors.md` V64: sample words. -/
def Obligations.SampleCommandWordsDecode : Prop :=
  decode 0x00000000#32 = .ok .nop ∧
  decode 0x00000002#32 = .ok .process ∧
  decode 0x00000024#32 = .ok .rampCommit ∧
  decode 0x00004111#32 = .ok (.rbWriteRamp 1 .wet) ∧
  decode 0x00009021#32 = .ok (.bufSub 0 .wet .dry) ∧
  decode 0x0000A023#32 = .ok (.bufAddRamp 0 .dry .dry) ∧
  decode 0x0000201A#32 = .ok (.decimateBlk 0 .dry) ∧
  decode 0x00000F19#32 = .ok (.decimate 15 .io) ∧
  decode 0x00010002#32 = .error .reservedBits ∧
  decode 0x80000000#32 = .error .reservedBits ∧
  decode 0x00000102#32 = .error .unusedField ∧
  decode 0x00001011#32 = .error .unusedField ∧
  decode 0x00004012#32 = .error .unusedField ∧
  decode 0x0000C010#32 = .error .noSuchBuffer ∧
  decode 0x00003020#32 = .error .noSuchBuffer ∧
  decode 0x00000017#32 = .error .reservedOpcode

/-! ### Steps -/

/-- `10_state.md` R15, `20_memory.md` R45: when the oldest pending action is the host's write of a decodable word to CMD, the
step is the command's meaning on the state without that action. -/
def Obligations.StepRunsDecodedCommand : Prop :=
  ∀ (s : State) (w : Word) (i : Instr) (rest : List Action),
    s.inbox = .hostWrite 0x00C w :: rest → decode w = .ok i → step s = exec i { s with inbox := rest }

/-- `93_implementation_defined.md`: the hardware always accepts the next action; a step is the oldest pending
action, and a step with none pending changes nothing (the list and the idle step are the model's choice, log 1). -/
def Obligations.EveryStepGoesOn : Prop :=
  ∀ s : State, (∃ t, step s = .next t) ∧ (s.inbox = [] → step s = .next s) ∧
    (∀ a rest, s.inbox = a :: rest → step s = perform a { s with inbox := rest }) ∧
    (∀ a rest t, s.inbox = a :: rest → step s = .next t → t.inbox = rest)

/-- `30_encoding.md` R63: the actions of an assembled command line, run one after the other, are the command on the state
whose ARG registers hold the operands. -/
def Obligations.AssembledLineRunsCommand : Prop :=
  ∀ (s t : State) (i : Instr) (ws : List Word), i.wellFormed = true → ws.length = (argsUsed i).length →
    exec i { s with inbox := [], arg := (List.zip (argsUsed i) ws).foldl (fun a kw => a.set kw.1 kw.2) s.arg } = .next t →
    ({ s with inbox := assemble i ws } : State).after (ws.length + 1) = some t

/-- `30_encoding.md` R63: the example line. -/
def Obligations.ExampleLineAssembles : Prop :=
  assembleLine "RB.WRITE.RAMP" [.num 1, .buf .wet, .num 5, .num 6, .num 0, .q (3 / 4)] =
    some [.hostWrite 0x010 0x00000005#32, .hostWrite 0x014 0x00000006#32, .hostWrite 0x018 0x00000000#32,
      .hostWrite 0x01C 0x00C00000#32, .hostWrite 0x00C 0x00004111#32]

/-! ### System commands -/

/-- `44_system.md` R105, R108, R111, R112 and `42_mix.md` R92: commands without a check complete in every state, with this
effect and no other; and their words. -/
def Obligations.UncheckedCommandsComplete : Prop :=
  ∀ s : State,
    decode 0x00000000#32 = .ok .nop ∧ decode 0x00000007#32 = .ok .loadstate ∧ decode 0x00000003#32 = .ok .getpcount ∧
    decode 0x00000006#32 = .ok .savestate ∧ decode 0x00000024#32 = .ok .rampCommit ∧
    exec .nop s = .next { s with lasterr := 0#8 } ∧
    exec .loadstate s = .next { s with lasterr := 0#8 } ∧
    exec .getpcount s = .next { s with lasterr := 0#8, res := { s.res with r0 := 5#32 } } ∧
    exec .savestate s = .next { s with lasterr := 0#8, res := { s.res with r0 := 0#32 } } ∧
    exec .rampCommit s = .next { s with
      lasterr := 0#8
      last := ⟨s.pcur.echoVolume, s.pcur.regen, s.pcur.dry, s.pcur.wet⟩ }

/-- `44_system.md` R109: GETPARAM, and the two registers a HostRead gives the same values from. -/
def Obligations.GetparamReturnsParameter : Prop :=
  ∀ s : State,
    decode 0x00000004#32 = .ok .getparam ∧
    (∀ i : Fin 5, u s.arg.a0 = i.val →
      exec .getparam s = .next { s with
        lasterr := 0#8
        res := ⟨BitVec.ofNat 32 i.val, paramGet s.pdef i, paramGet s.pcur i⟩ } ∧
      perform (.hostRead (0x080 + 4 * i.val)) s = .next { s with readData := some (paramGet s.pdef i) } ∧
      perform (.hostRead (0x060 + 4 * i.val)) s = .next { s with readData := some (paramGet s.pcur i) }) ∧
    (5 ≤ u s.arg.a0 → exec .getparam s = .next (faulted 3 s))

/-- `44_system.md` R110: SETPARAM stores any word as given, and a CtrlWrite and a HostWrite to the parameter's address do the
same to the parameter. -/
def Obligations.SetparamStoresAsGiven : Prop :=
  ∀ s : State,
    decode 0x00000005#32 = .ok .setparam ∧
    (∀ i : Fin 5, u s.arg.a0 = i.val → ∃ p : Params,
      (∀ j : Fin 5, paramGet p j = if j = i then s.arg.a1 else paramGet s.pcur j) ∧
      exec .setparam s = .next { s with lasterr := 0#8, pcur := p } ∧
      perform (.ctrlWrite i s.arg.a1) s = .next { s with pcur := p } ∧
      perform (.hostWrite (0x060 + 4 * i.val) s.arg.a1) s = .next { s with pcur := p }) ∧
    (5 ≤ u s.arg.a0 → exec .setparam s = .next (faulted 3 s))

/-- `44_system.md` R106: PREPARE, on success. -/
def Obligations.PrepareAllocatesAndClears : Prop :=
  ∀ s : State, s.hw.ok = true → 1 ≤ u s.arg.a0 → 2 * u s.arg.a0 ≤ s.hw.ringDepth → u s.arg.a2 ≤ s.hw.maxCh →
    u s.arg.a1 ≤ s.hw.blkDepth →
    ∃ t : State, exec .prepare s = .next t ∧ u t.cap = 2 * u s.arg.a0 ∧
      (∀ c < u s.arg.a2, ∀ k < 2 * u s.arg.a0, t.ringAt c k = 0#32) ∧
      t = { s with
        prepared := true
        sr := s.arg.a0
        cap := t.cap
        nch := s.arg.a2
        maxblk := s.arg.a1
        wcur := 0#32
        lasterr := 0#8
        ring := t.ring }

/-- `44_system.md` R106: PREPARE, its two faults. -/
def Obligations.PrepareRefusesBadRequests : Prop :=
  ∀ s : State,
    (u s.arg.a0 = 0 → exec .prepare s = .next (faulted 3 s)) ∧
    (1 ≤ u s.arg.a0 →
      (s.hw.ringDepth < 2 * u s.arg.a0 ∨ s.hw.maxCh < u s.arg.a2 ∨ s.hw.blkDepth < u s.arg.a1) →
      ∃ r : Ring, exec .prepare s = .next (faulted 5 { s with
        prepared := false
        sr := 0#32
        cap := 0#32
        nch := 0#32
        maxblk := 0#32
        wcur := 0#32
        ring := r }))

/-! ### Ring commands -/

/-- `40_ring.md` R71: RB.WRITE. -/
def Obligations.RbWriteStoresSamples : Prop :=
  ∀ (s : State) (c : Nat) (src : BufId),
    (c < 16 → decode (BitVec.ofNat 32 (0x10 + 0x100 * c + 0x4000 * src.code.toNat)) = .ok (.rbWrite c src)) ∧
    (s.prepared = false → exec (.rbWrite c src) s = .next (faulted 2 s)) ∧
    (s.prepared = true →
      u s.nch ≤ c ∨ u s.cap ≤ u s.arg.a0 ∨ u s.cap < u s.arg.a1 ∨ u s.maxblk < u s.arg.a1 →
      exec (.rbWrite c src) s = .next (faulted 3 s)) ∧
    (s.Inv → s.prepared = true → c < u s.nch → u s.arg.a0 < u s.cap → u s.arg.a1 ≤ u s.cap →
      u s.arg.a1 ≤ u s.maxblk →
      StoresRing s (exec (.rbWrite c src) s) c (u s.arg.a0) (u s.arg.a1) fun i => s.bufAt src c i)

/-- `40_ring.md` R72: RB.WRITE.RAMP, with the exact ramp of R12 and one rounding. -/
def Obligations.RbWriteRampStoresScaledSamples : Prop :=
  ∀ (s : State) (c : Nat) (src : BufId),
    (c < 16 → decode (BitVec.ofNat 32 (0x11 + 0x100 * c + 0x4000 * src.code.toNat)) = .ok (.rbWriteRamp c src)) ∧
    (s.prepared = false → exec (.rbWriteRamp c src) s = .next (faulted 2 s)) ∧
    (s.prepared = true →
      u s.nch ≤ c ∨ u s.cap ≤ u s.arg.a0 ∨ u s.cap < u s.arg.a1 ∨ u s.maxblk < u s.arg.a1 →
      exec (.rbWriteRamp c src) s = .next (faulted 3 s)) ∧
    (s.Inv → s.prepared = true → c < u s.nch → u s.arg.a0 < u s.cap → u s.arg.a1 ≤ u s.cap →
      u s.arg.a1 ≤ u s.maxblk →
      StoresRing s (exec (.rbWriteRamp c src) s) c (u s.arg.a0) (u s.arg.a1) fun i =>
        fx (scale (s.bufAt src c i) s.arg.a2 s.arg.a3 i (u s.arg.a1)))

/-- `40_ring.md` R72, corner case: at gain 1.0 throughout, RB.WRITE.RAMP equals RB.WRITE. -/
def Obligations.UnityRampWriteEqualsPlainWrite : Prop :=
  ∀ (s : State) (c : Nat) (src : BufId), s.arg.a2 = 0x01000000#32 → s.arg.a3 = 0x01000000#32 →
    exec (.rbWriteRamp c src) s = exec (.rbWrite c src) s

/-- `40_ring.md` R74: RB.READADD.RAMP. -/
def Obligations.RbReadaddRampAddsScaledRing : Prop :=
  ∀ (s : State) (c : Nat) (dst : BufId),
    (c < 16 → decode (BitVec.ofNat 32 (0x12 + 0x100 * c + 0x1000 * dst.code.toNat)) = .ok (.rbReadaddRamp c dst)) ∧
    (s.prepared = false → exec (.rbReadaddRamp c dst) s = .next (faulted 2 s)) ∧
    (s.prepared = true →
      u s.nch ≤ c ∨ u s.cap ≤ u s.arg.a0 ∨ u s.cap < u s.arg.a1 ∨ u s.maxblk < u s.arg.a1 →
      exec (.rbReadaddRamp c dst) s = .next (faulted 3 s)) ∧
    (s.Inv → s.prepared = true → c < u s.nch → u s.arg.a0 < u s.cap → u s.arg.a1 ≤ u s.cap →
      u s.arg.a1 ≤ u s.maxblk →
      StoresBlock s (exec (.rbReadaddRamp c dst) s) dst c (u s.arg.a1) fun i =>
        fx (val (s.bufAt dst c i) +
          scale (s.ringAt c ((u s.arg.a0 + i) % u s.cap)) s.arg.a2 s.arg.a3 i (u s.arg.a1)))

/-- `40_ring.md` R73: RB.RDPOS. For `time` in `[0, 1.7]` one addition of `CAP` is the whole wrap. -/
def Obligations.RbRdposReturnsReadPosition : Prop :=
  ∀ s : State,
    decode 0x00000013#32 = .ok .rbRdpos ∧
    (s.prepared = false → exec .rbRdpos s = .next (faulted 2 s)) ∧
    (s.prepared = true → exec .rbRdpos s = .next { s with
      lasterr := 0#8
      res := { s.res with
        r0 := BitVec.ofNat 32 (readStart s)
        r1 := BitVec.ofInt 32 (exactDelay s.sr s.pcur.time) } }) ∧
    (s.Inv → s.prepared = true → readStart s < u s.cap ∧
      ∃ k : Int, (readStart s : Int) = u s.wcur - exactDelay s.sr s.pcur.time + k * u s.cap) ∧
    |exactDelay s.sr s.pcur.time| < 2 ^ 39 ∧
    (s.Inv → s.prepared = true → 0 ≤ val s.pcur.time → val s.pcur.time ≤ 17 / 10 →
      0 ≤ exactDelay s.sr s.pcur.time ∧ (exactDelay s.sr s.pcur.time : Rat) ≤ 17 / 10 * (u s.sr : Rat) ∧
      exactDelay s.sr s.pcur.time < u s.cap ∧
      (readStart s : Int) = if exactDelay s.sr s.pcur.time ≤ u s.wcur then u s.wcur - exactDelay s.sr s.pcur.time
        else u s.wcur - exactDelay s.sr s.pcur.time + u s.cap)

/-- `40_ring.md` R75: CURSOR.ADV. -/
def Obligations.CursorAdvAdvancesModuloCapacity : Prop :=
  ∀ s : State,
    decode 0x00000014#32 = .ok .cursorAdv ∧
    (s.prepared = false → exec .cursorAdv s = .next (faulted 2 s)) ∧
    (s.prepared = true → u s.cap < u s.arg.a1 → exec .cursorAdv s = .next (faulted 3 s)) ∧
    (s.prepared = true → u s.arg.a1 ≤ u s.cap →
      exec .cursorAdv s = .next { s with
        lasterr := 0#8
        wcur := BitVec.ofNat 32 ((u s.wcur + u s.arg.a1) % u s.cap) }) ∧
    (s.Inv → s.prepared = true → u s.arg.a1 ≤ u s.cap →
      ∃ t, exec .cursorAdv s = .next t ∧ u t.wcur < u t.cap ∧
        u t.wcur = if u s.wcur + u s.arg.a1 < u s.cap then u s.wcur + u s.arg.a1
          else u s.wcur + u s.arg.a1 - u s.cap)

/-- `40_ring.md` R70: the indices of one access are the two-copy form, and distinct. -/
def Obligations.RingAccessSplitsAtTheWrap : Prop :=
  ∀ cap s len i j : Nat, s < cap → len ≤ cap → i < len → j < len →
    ringIndex cap s i < cap ∧
    (i < min len (cap - s) → ringIndex cap s i = s + i) ∧
    (cap - s ≤ i → ringIndex cap s i = i - (cap - s)) ∧
    (ringIndex cap s i = ringIndex cap s j → i = j)

/-- `40_ring.md` R77: after writes of at least CAP samples in all, from any cursor and however they cross the wrap, the ring
row holds exactly the last CAP samples, the oldest at the cursor. -/
def Obligations.RingHoldsTheLastCapacitySamples : Prop :=
  ∀ (s t : State) (c : Nat) (b : BufId) (xs : List Word),
    s.Inv → s.prepared = true → c < u s.nch → WritesStream c b s xs t → u t.cap ≤ xs.length →
    ∀ k < u t.cap, xs[xs.length - u t.cap + k]? = some (t.ringAt c ((u t.wcur + k) % u t.cap))

/-! ### Crush commands -/

/-- `41_crush.md` R80: RATEDIV. -/
def Obligations.RatedivReturnsDivider : Prop :=
  ∀ s : State,
    decode 0x00000018#32 = .ok .ratediv ∧
    (s.prepared = false → exec .ratediv s = .next (faulted 2 s)) ∧
    (s.prepared = true → effectiveRate s.pcur.time ≤ 0 → exec .ratediv s = .next (faulted 4 s)) ∧
    (s.prepared = true → 0 < effectiveRate s.pcur.time →
      0 ≤ exactDivider s.sr s.pcur.time ∧
      exec .ratediv s = .next { s with
        lasterr := 0#8
        res := { s.res with r0 := BitVec.ofInt 32 (exactDivider s.sr s.pcur.time) } }) ∧
    (effectiveRate s.pcur.time ≤ 0 ↔ 2 ≤ val s.pcur.time)

/-- `41_crush.md` R81: DECIMATE. -/
def Obligations.DecimateQuantizesOrHoldsOneSample : Prop :=
  ∀ (s : State) (c : Nat) (b : BufId),
    (c < 16 → decode (BitVec.ofNat 32 (0x19 + 0x100 * c + 0x1000 * b.code.toNat)) = .ok (.decimate c b)) ∧
    (s.prepared = false → exec (.decimate c b) s = .next (faulted 2 s)) ∧
    (s.prepared = true → u s.nch ≤ c ∨ u s.maxblk ≤ u s.arg.a0 ∨ 24 < u s.arg.a3 →
      exec (.decimate c b) s = .next (faulted 3 s)) ∧
    (s.Inv → s.prepared = true → c < u s.nch → u s.arg.a0 < u s.maxblk → u s.arg.a3 ≤ 24 →
      ∃ t : State, exec (.decimate c b) s = .next t ∧
        t.bufAt b c (u s.arg.a0) =
          (if 1 < u s.arg.a2 ∧ u s.arg.a0 % u s.arg.a2 ≠ 0 then s.bufAt b c (u s.arg.a0 - u s.arg.a0 % u s.arg.a2)
           else quant s.hw.quantMode (s.bufAt b c (u s.arg.a0)) (u s.arg.a3)) ∧
        (∀ x, (∀ j < 4, x ≠ bufAddr s.hw b c (u s.arg.a0) + j) → t.buf.byte x = s.buf.byte x) ∧
        t = { s with buf := t.buf, lasterr := 0#8 })

/-- `41_crush.md` R82: DECIMATE.BLK in closed form. -/
def Obligations.DecimateBlkHoldsFromMultiples : Prop :=
  ∀ (s : State) (c : Nat) (b : BufId),
    (c < 16 → decode (BitVec.ofNat 32 (0x1A + 0x100 * c + 0x1000 * b.code.toNat)) = .ok (.decimateBlk c b)) ∧
    (s.prepared = false → exec (.decimateBlk c b) s = .next (faulted 2 s)) ∧
    (s.prepared = true → u s.nch ≤ c ∨ u s.maxblk < u s.arg.a1 ∨ 24 < u s.arg.a3 →
      exec (.decimateBlk c b) s = .next (faulted 3 s)) ∧
    (s.Inv → s.prepared = true → c < u s.nch → u s.arg.a1 ≤ u s.maxblk → u s.arg.a3 ≤ 24 →
      StoresBlock s (exec (.decimateBlk c b) s) b c (u s.arg.a1) fun i =>
        quant s.hw.quantMode (s.bufAt b c (holdIndex (u s.arg.a2) i)) (u s.arg.a3))

/-- `41_crush.md` R82: DECIMATE.BLK is idempotent. -/
def Obligations.DecimateBlkIsIdempotent : Prop :=
  ∀ (s t t' : State) (c : Nat) (b : BufId), s.Inv → s.prepared = true → c < u s.nch → u s.arg.a1 ≤ u s.maxblk →
    u s.arg.a3 ≤ 24 → exec (.decimateBlk c b) s = .next t → exec (.decimateBlk c b) t = .next t' →
    ∀ x, t'.buf.byte x = t.buf.byte x

/-- `00_scope.md` R13: the quantizer. `floor` gives the greatest level not above the sample, `trunc` the level nearest to zero
from it; they agree on samples not below 0 and on levels, and differ by one step on the others; nothing saturates. -/
def Obligations.QuantizerModesAgreeAndDiffer : Prop :=
  ∀ (x : Word) (bd : Nat), bd ≤ 24 →
    raw (quant .floor x bd) = quantStep bd * (raw x / quantStep bd) ∧
    raw (quant .trunc x bd) = (raw x).sign * (quantStep bd * (((raw x).natAbs : Int) / quantStep bd)) ∧
    (0 ≤ raw x ∨ raw x % quantStep bd = 0 → quant .trunc x bd = quant .floor x bd) ∧
    (raw x < 0 → raw x % quantStep bd ≠ 0 → raw (quant .trunc x bd) = raw (quant .floor x bd) + quantStep bd) ∧
    (raw x % quantStep bd = 0 → quant .floor x bd = x)

/-! ### Mix commands -/

/-- `42_mix.md` R88, R89: BUF.COPY and BUF.SUB. -/
def Obligations.BufCopyAndBufSubStoreBlocks : Prop :=
  ∀ (s : State) (c : Nat) (dst src : BufId),
    (c < 16 →
      decode (BitVec.ofNat 32 (0x20 + 0x100 * c + 0x1000 * dst.code.toNat + 0x4000 * src.code.toNat)) =
        .ok (.bufCopy c dst src) ∧
      decode (BitVec.ofNat 32 (0x21 + 0x100 * c + 0x1000 * dst.code.toNat + 0x4000 * src.code.toNat)) =
        .ok (.bufSub c dst src)) ∧
    (s.prepared = false →
      exec (.bufCopy c dst src) s = .next (faulted 2 s) ∧ exec (.bufSub c dst src) s = .next (faulted 2 s)) ∧
    (s.prepared = true → u s.nch ≤ c ∨ u s.maxblk < u s.arg.a1 →
      exec (.bufCopy c dst src) s = .next (faulted 3 s) ∧ exec (.bufSub c dst src) s = .next (faulted 3 s)) ∧
    (s.Inv → s.prepared = true → c < u s.nch → u s.arg.a1 ≤ u s.maxblk →
      StoresBlock s (exec (.bufCopy c dst src) s) dst c (u s.arg.a1) (fun i => s.bufAt src c i) ∧
      StoresBlock s (exec (.bufSub c dst src) s) dst c (u s.arg.a1)
        (fun i => fx (val (s.bufAt dst c i) - val (s.bufAt src c i))))

/-- `42_mix.md` R90, R91: BUF.COPY.RAMP and BUF.ADD.RAMP. -/
def Obligations.BufRampCommandsStoreScaledBlocks : Prop :=
  ∀ (s : State) (c : Nat) (dst src : BufId),
    (c < 16 →
      decode (BitVec.ofNat 32 (0x22 + 0x100 * c + 0x1000 * dst.code.toNat + 0x4000 * src.code.toNat)) =
        .ok (.bufCopyRamp c dst src) ∧
      decode (BitVec.ofNat 32 (0x23 + 0x100 * c + 0x1000 * dst.code.toNat + 0x4000 * src.code.toNat)) =
        .ok (.bufAddRamp c dst src)) ∧
    (s.prepared = false →
      exec (.bufCopyRamp c dst src) s = .next (faulted 2 s) ∧ exec (.bufAddRamp c dst src) s = .next (faulted 2 s)) ∧
    (s.prepared = true → u s.nch ≤ c ∨ u s.maxblk < u s.arg.a1 →
      exec (.bufCopyRamp c dst src) s = .next (faulted 3 s) ∧ exec (.bufAddRamp c dst src) s = .next (faulted 3 s)) ∧
    (s.Inv → s.prepared = true → c < u s.nch → u s.arg.a1 ≤ u s.maxblk →
      StoresBlock s (exec (.bufCopyRamp c dst src) s) dst c (u s.arg.a1)
        (fun i => fx (scale (s.bufAt src c i) s.arg.a2 s.arg.a3 i (u s.arg.a1))) ∧
      StoresBlock s (exec (.bufAddRamp c dst src) s) dst c (u s.arg.a1)
        (fun i => fx (val (s.bufAt dst c i) + scale (s.bufAt src c i) s.arg.a2 s.arg.a3 i (u s.arg.a1))))

/-- `00_scope.md` R12: the integer forms of the ramped gain. -/
def Obligations.RampIntegerFormsAreExact : Prop :=
  ∀ (x a b : Word) (i len : Nat), i < len →
    ramp a b i len = (gnum a b i len : Rat) / ((len : Rat) * 2 ^ 24) ∧
    scale x a b i len = (raw x : Rat) * (gnum a b i len : Rat) / ((len : Rat) * 2 ^ 48) ∧
    fx (scale x a b i len) = word (sat32 ((raw x * gnum a b i len) / ((len : Int) * 2 ^ 24))) ∧
    ramp a b 0 len = val a ∧
    ramp a b (len - 1) len = val a + (val b - val a) * ((len : Rat) - 1) / (len : Rat)

/-- `00_scope.md` R9: `fx` saturates, and otherwise gives the greatest word not above the value. -/
def Obligations.FxFloorsAndSaturates : Prop :=
  ∀ v : Rat,
    (128 ≤ v → fx v = 0x7FFFFFFF#32) ∧
    (v < -128 → fx v = 0x80000000#32) ∧
    (-128 ≤ v → v < 128 → val (fx v) ≤ v ∧ v < val (fx v) + 1 / 2 ^ 24)

/-! ### PROCESS -/

/-- `43_block.md` R96, R98: PROCESS, sample by sample, and everything it leaves alone. -/
def Obligations.ProcessClosedForm : Prop :=
  ∀ s : State, s.Inv → ProcessRuns s →
    ∃ t : State, exec .process s = .next t ∧
      (∀ c < u s.arg.a2, ∀ i < u s.arg.a1,
        t.bufAt .io c i = outSample s c i ∧ t.bufAt .wet c i = tailSample s c i ∧ t.bufAt .dry c i = inSample s c i ∧
        t.ringAt c ((u s.wcur + i) % u s.cap) = trailSample s c i) ∧
      (∀ x, (∀ c < u s.arg.a2, ∀ b, ¬ inBufBlock s.hw b c (u s.arg.a1) x) → t.buf.byte x = s.buf.byte x) ∧
      (∀ x, (∀ c < u s.arg.a2, ¬ inRingBlock s.hw (u s.cap) c (u s.wcur) (u s.arg.a1) x) →
        ringByte s.hw t.ring x = ringByte s.hw s.ring x) ∧
      t = { s with
        ring := t.ring
        buf := t.buf
        last := ⟨s.pcur.echoVolume, s.pcur.regen, s.pcur.dry, s.pcur.wet⟩
        wcur := BitVec.ofNat 32 ((u s.wcur + u s.arg.a1) % u s.cap)
        lasterr := 0#8 }

/-- `43_block.md` R96, `60_exceptions.md` R121: PROCESS faults, in the order of its checks. -/
def Obligations.ProcessFaultsInOrder : Prop :=
  ∀ s : State,
    (s.prepared = false → exec .process s = .next (faulted 2 s)) ∧
    (s.prepared = true → u s.maxblk < u s.arg.a1 ∨ u s.cap < u s.arg.a1 ∨ u s.nch < u s.arg.a2 →
      exec .process s = .next (faulted 3 s)) ∧
    (s.prepared = true → u s.arg.a1 ≤ u s.maxblk → u s.arg.a1 ≤ u s.cap → u s.arg.a2 ≤ u s.nch →
      2 ≤ val s.pcur.time → exec .process s = .next (faulted 4 s))

/-- `43_block.md` R99: an empty block, and a block of no channel. -/
def Obligations.ProcessDegenerateBlocks : Prop :=
  ∀ s : State, s.Inv → ProcessRuns s →
    (u s.arg.a1 = 0 → exec .process s = .next { s with
      last := ⟨s.pcur.echoVolume, s.pcur.regen, s.pcur.dry, s.pcur.wet⟩
      lasterr := 0#8 }) ∧
    (u s.arg.a2 = 0 → exec .process s = .next { s with
      last := ⟨s.pcur.echoVolume, s.pcur.regen, s.pcur.dry, s.pcur.wet⟩
      wcur := BitVec.ofNat 32 ((u s.wcur + u s.arg.a1) % u s.cap)
      lasterr := 0#8 })

/-- `43_block.md` R100: PROCESS leaves the memories, the gain-ramp state and the cursor as the micro-command sequence
does; only ARG and RES differ, and the pending actions, which are the model's own field (log 1). -/
def Obligations.ProcessEqualsMicroCommands : Prop :=
  ∀ s : State, s.Inv → ProcessRuns s →
    ∃ t v : State, exec .process s = .next t ∧
      ({ s with inbox := blockCommands s s.arg.a1 (u s.arg.a2) } : State).after
        (blockCommands s s.arg.a1 (u s.arg.a2)).length = some v ∧
      v.ring = t.ring ∧ v.buf = t.buf ∧ v.last = t.last ∧ v.wcur = t.wcur ∧
      v = { t with arg := v.arg, res := v.res, inbox := [] }

/-- `43_block.md` R101: two channels of a block can be processed in either order. -/
def Obligations.ChannelOrderIsNotObservable : Prop :=
  ∀ (s : State) (c c' : Nat), s.Inv → ProcessRuns s → c < u s.nch → c' < u s.nch →
    (∀ x, ringByte s.hw (processChannel (blockOf s) c (processChannel (blockOf s) c' ⟨s.ring, s.buf⟩)).ring x =
      ringByte s.hw (processChannel (blockOf s) c' (processChannel (blockOf s) c ⟨s.ring, s.buf⟩)).ring x) ∧
    (∀ x, (processChannel (blockOf s) c (processChannel (blockOf s) c' ⟨s.ring, s.buf⟩)).buf.byte x =
      (processChannel (blockOf s) c' (processChannel (blockOf s) c ⟨s.ring, s.buf⟩)).buf.byte x)

/-- `42_mix.md` R93, `90_conflicts.md` C7: silence in and a silent ring give silence out. -/
def Obligations.SilenceInSilenceOut : Prop :=
  ∀ s : State, s.Inv → ProcessRuns s →
    (∀ c < u s.arg.a2, ∀ i < u s.arg.a1, s.bufAt .io c i = 0#32) →
    (∀ c < u s.arg.a2, ∀ i < u s.arg.a1, s.ringAt c ((readStart s + i) % u s.cap) = 0#32) →
    ∃ t : State, exec .process s = .next t ∧
      ∀ c < u s.arg.a2, ∀ i < u s.arg.a1,
        t.bufAt .io c i = 0#32 ∧ t.bufAt .wet c i = 0#32 ∧ t.bufAt .dry c i = 0#32 ∧
        t.ringAt c ((u s.wcur + i) % u s.cap) = 0#32

/-- `70_reset_and_hazards.md` R144: with the gain-ramp state at its reset value, output sample 0 of a block is exactly 0, as
is the first ring element written, and sample `i` of what PROCESS leaves carries `i / N` of each parameter gain: regen on the
delayed sample, echoVolume on the ring element, dry and wet in the output. The next block starts at the full gains. -/
def Obligations.FirstBlockRampsFromZero : Prop :=
  ∀ s : State, s.Inv → ProcessRuns s → s.last = ⟨0#32, 0#32, 0#32, 0#32⟩ → 0 < u s.arg.a1 →
    ∃ t : State, exec .process s = .next t ∧
      t.last = ⟨s.pcur.echoVolume, s.pcur.regen, s.pcur.dry, s.pcur.wet⟩ ∧
      (∀ c < u s.arg.a2, t.bufAt .io c 0 = 0#32 ∧ t.ringAt c (u s.wcur) = 0#32) ∧
      (∀ c < u s.arg.a2, ∀ i < u s.arg.a1, ∃ w : Word,
        w = fx (val (crushedSample s c i) +
          val (delayedSample s c i) * (val s.pcur.regen * (i : Rat) / (u s.arg.a1 : Rat))) ∧
        t.ringAt c ((u s.wcur + i) % u s.cap) =
          fx (val w * (val s.pcur.echoVolume * (i : Rat) / (u s.arg.a1 : Rat))) ∧
        t.bufAt .wet c i = fx (val w - val (s.bufAt .io c i)) ∧
        t.bufAt .io c i =
          fx (val (fx (val (s.bufAt .io c i) * (val s.pcur.dry * (i : Rat) / (u s.arg.a1 : Rat)))) +
            val (t.bufAt .wet c i) * (val s.pcur.wet * (i : Rat) / (u s.arg.a1 : Rat))))

/-- `70_reset_and_hazards.md` R141: with a delay `d` of less than a block, sample `i >= d` reads the block's own raw input
`d` samples earlier; with no delay every sample reads itself. -/
def Obligations.ShortDelayReadsTheSameBlock : Prop :=
  ∀ (s : State) (c d i : Nat), s.Inv → ProcessRuns s → c < u s.nch →
    (d : Int) = exactDelay s.sr s.pcur.time % (u s.cap : Int) → d ≤ i → i < u s.arg.a1 →
    ringGet s.hw (blockRead (blockOf s) c (blockWrite (blockOf s) c ⟨s.ring, s.buf⟩)).ring c
      (ringIndex (u s.cap) (readPosition s.wcur s.cap s.sr s.pcur.time) i) = s.bufAt .io c (i - d)

/-! ### Whole-machine rules -/

/-- `60_exceptions.md` R118: a command that faults changes LASTERR and FAULTLOG only, but for PREPARE's `E_ALLOC`, which
un-prepares; a command that completes leaves FAULTLOG alone. -/
def Obligations.CommandFaultsArePrecise : Prop :=
  ∀ (i : Instr) (s t : State), exec i s = .next t →
    (t.lasterr = 0#8 → t.faultlog = s.faultlog) ∧
    (t.lasterr ≠ 0#8 →
      t = faulted t.lasterr.toNat s ∧ t.lasterr.toNat ∈ [2, 3, 4] ∨
      i = .prepare ∧ t = faulted 5 { s with
        prepared := false
        sr := 0#32
        cap := 0#32
        nch := 0#32
        maxblk := 0#32
        wcur := 0#32
        ring := t.ring })

/-- `60_exceptions.md` R115, R117, R119, R121, `44_system.md` R106: which code a command ends with, by its cause; no command
ends with code 1 or 6 (`FaultBitsOneAndSixComeFromTheHost` says where those come from). -/
def Obligations.FaultsAreRaisedByTheirCommands : Prop :=
  ∀ (i : Instr) (s t : State), exec i s = .next t →
    (t.lasterr = 2#8 ↔ needsPreparation i ∧ s.prepared = false) ∧
    (t.lasterr = 3#8 ↔ (needsPreparation i → s.prepared = true) ∧ badArgCause s i) ∧
    (t.lasterr = 4#8 ↔ s.prepared = true ∧ ¬ badArgCause s i ∧ (i = .process ∨ i = .ratediv) ∧ 2 ≤ val s.pcur.time) ∧
    (t.lasterr = 5#8 ↔ i = .prepare ∧ ¬ badArgCause s i ∧ allocCause s) ∧
    t.lasterr ∈ [0#8, 2#8, 3#8, 4#8, 5#8] ∧
    (needsPreparation i → s.prepared = false → t = faulted 2 s)

/-- `60_exceptions.md` R115, rows 1 and 6, `20_memory.md` R42: FAULTLOG bit 1 is set by a CMD write of an illegal word, bit 6
by an access error, which leaves LASTERR alone, and by no other action; `92_eei_decisions.md` D21 and log 19 for the narrow
accesses. -/
def Obligations.FaultBitsOneAndSixComeFromTheHost : Prop :=
  ∀ (a : Action) (s t : State), perform a s = .next t → a ≠ .resetInput →
    (t.faultlog.getLsbD 1 = true ↔ s.faultlog.getLsbD 1 = true ∨ ∃ w, a = .hostWrite 0x00C w ∧ ¬ legalWord w) ∧
    (t.faultlog.getLsbD 6 = true ↔ s.faultlog.getLsbD 6 = true ∨ isAccessError s.hw a) ∧
    (isAccessError s.hw a → t.lasterr = s.lasterr) ∧
    ((∃ w, a = .hostWrite 0x00C w ∧ ¬ legalWord w) → t.lasterr = 1#8)

/-- `10_state.md` R17, R18, R20, R21, R25, `60_exceptions.md` R127: which commands write which state. -/
def Obligations.CommandsWriteOnlyTheirState : Prop :=
  ∀ (i : Instr) (s t : State), exec i s = .next t →
    t.hw = s.hw ∧ t.pdef = s.pdef ∧ t.arg = s.arg ∧ t.readData = s.readData ∧ t.inbox = s.inbox ∧
    (i ≠ .setparam → t.pcur = s.pcur) ∧
    (i ≠ .prepare → t.prepared = s.prepared ∧ t.sr = s.sr ∧ t.cap = s.cap ∧ t.nch = s.nch ∧ t.maxblk = s.maxblk) ∧
    (i ∉ [Instr.prepare, .process, .cursorAdv] → t.wcur = s.wcur) ∧
    (i ∉ [Instr.process, .rampCommit] → t.last = s.last) ∧
    (i ∉ [Instr.getpcount, .getparam, .savestate, .rbRdpos, .ratediv] → t.res = s.res) ∧
    ((∀ c b, i ∉ [Instr.prepare, .process, .rbWrite c b, .rbWriteRamp c b]) → t.ring = s.ring) ∧
    ((∀ c b b', i ∉ [Instr.process, .rbReadaddRamp c b, .decimate c b, .decimateBlk c b, .bufCopy c b b', .bufSub c b b',
      .bufCopyRamp c b b', .bufAddRamp c b b']) → t.buf = s.buf)

/-- `10_state.md` R26, `60_exceptions.md` R122: no command reads LASTERR or FAULTLOG, so a fault does not change what later
commands do. -/
def Obligations.FaultsDoNotChangeLaterCommands : Prop :=
  ∀ (i : Instr) (s t : State) (e : BitVec 8) (f : Word), exec i s = .next t →
    ∃ t' : State, exec i { s with lasterr := e, faultlog := f } = .next t' ∧
      t'.faultlog ||| s.faultlog = t.faultlog ||| f ∧ t' = { t with faultlog := t'.faultlog }

/-- `70_reset_and_hazards.md` R136, `93_implementation_defined.md` U11, U12: what the ring holds outside the allocated
elements is never observed: no command's outcome depends on it. -/
def Obligations.UnallocatedRingIsUnobservable : Prop :=
  ∀ (i : Instr) (s t : State) (r : Ring), s.Inv →
    (∀ c < u s.nch, ∀ k < u s.cap, ringGet s.hw r c k = s.ringAt c k) → exec i s = .next t →
    ∃ t' : State, exec i { s with ring := r } = .next t' ∧
      (∀ c < u t.nch, ∀ k < u t.cap, t'.ringAt c k = t.ringAt c k) ∧ t' = { t with ring := t'.ring }

/-- `10_state.md` R32: every step keeps the invariant. Its clauses about the form and the extent of the memories are the
model's choice (log 9, log 11), and `Hardware.ok` bounds RING_DEPTH by an inference (log 5). -/
def Obligations.StepKeepsInvariant : Prop :=
  ∀ s t : State, s.Inv → step s = .next t → t.Inv

/-- `10_state.md` R31, R32: the state after reset, with the sizes of log 5 and the free ring and buffers of log 8 and log 9,
has the invariant. -/
def Obligations.ResetHasInvariant : Prop := State.reset.Inv

/-- `10_state.md` R26, R32(c): FAULTLOG only gains bits, but for the reset input. -/
def Obligations.FaultlogOnlyGainsBits : Prop :=
  ∀ (s t : State) (a : Action) (rest : List Action), s.inbox = a :: rest → a ≠ .resetInput → step s = .next t →
    t.faultlog &&& s.faultlog = s.faultlog

/-- `00_scope.md` R6, `10_state.md` R30: no step changes the parameters of the instance. -/
def Obligations.StepKeepsTheInstance : Prop :=
  ∀ s t : State, step s = .next t → t.hw = s.hw

/-- `10_state.md` R31: the registers after reset, whatever DEF is (log 7). -/
def Obligations.ResetValues : Prop :=
  let s := State.reset
  s.prepared = false ∧ s.sr = 0#32 ∧ s.cap = 0#32 ∧ s.nch = 0#32 ∧ s.maxblk = 0#32 ∧ s.wcur = 0#32 ∧
  s.pdef = s.hw.defaults ∧ s.pcur = s.hw.defaults ∧ s.last = ⟨0#32, 0#32, 0#32, 0#32⟩ ∧
  s.arg = ⟨0#32, 0#32, 0#32, 0#32⟩ ∧ s.res = ⟨0#32, 0#32, 0#32⟩ ∧ s.lasterr = 0#8 ∧ s.faultlog = 0#32

/-- `70_reset_and_hazards.md` R135: the reset input brings every register to its reset value, whatever went before.
That other agents' pending actions stay pending is the model's reading (log 4). -/
def Obligations.ResetInputResetsEveryRegister : Prop :=
  ∀ (s : State) (rest : List Action), s.inbox = .resetInput :: rest →
    ∃ t : State, step s = .next t ∧ t.inbox = rest ∧
      t.prepared = false ∧ t.sr = 0#32 ∧ t.cap = 0#32 ∧ t.nch = 0#32 ∧ t.maxblk = 0#32 ∧ t.wcur = 0#32 ∧
      t.pdef = s.hw.defaults ∧ t.pcur = s.hw.defaults ∧ t.last = ⟨0#32, 0#32, 0#32, 0#32⟩ ∧
      t.arg = ⟨0#32, 0#32, 0#32, 0#32⟩ ∧ t.res = ⟨0#32, 0#32, 0#32⟩ ∧ t.lasterr = 0#8 ∧ t.faultlog = 0#32

/-! ### The host interface -/

/-- `20_memory.md` R36: the readable registers. The word a read returns stands in the model's own field (log 3). -/
def Obligations.RegisterReadsReturnContents : Prop :=
  ∀ (s : State) (addr : Nat) (w : Word),
    (addr, w) ∈ [(0x000, 0x42444C59#32), (0x008, s.faultlog), (0x010, s.arg.a0), (0x014, s.arg.a1), (0x018, s.arg.a2),
      (0x01C, s.arg.a3), (0x020, s.res.r0), (0x024, s.res.r1), (0x028, s.res.r2), (0x030, s.sr), (0x034, s.cap),
      (0x038, s.nch), (0x03C, s.maxblk), (0x040, s.wcur), (0x050, s.last.input), (0x054, s.last.feedback),
      (0x058, s.last.dry), (0x05C, s.last.wet), (0x060, s.pcur.time), (0x064, s.pcur.echoVolume), (0x068, s.pcur.regen),
      (0x06C, s.pcur.dry), (0x070, s.pcur.wet), (0x080, s.pdef.time), (0x084, s.pdef.echoVolume), (0x088, s.pdef.regen),
      (0x08C, s.pdef.dry), (0x090, s.pdef.wet),
      (0x004, BitVec.ofNat 32 ((if s.prepared then 1 else 0) + 256 * s.lasterr.toNat))] →
    perform (.hostRead addr) s = .next { s with readData := some w }

/-- `20_memory.md` R42, R43: a read that is an access error returns 0 and is logged, and no other read has a side effect.
The word a read returns stands in the model's own field (log 3). -/
def Obligations.HostReadsHaveNoOtherEffect : Prop :=
  ∀ (s : State) (addr : Nat), ∃ w : Word,
    perform (.hostRead addr) s = .next { s with readData := some w } ∨
    (addr = 0x00C ∨ badAddress s.hw addr) ∧
    perform (.hostRead addr) s = .next { s with readData := some 0#32, faultlog := s.faultlog ||| 0x40#32 }

/-- `20_memory.md` R36, R41, R42: misaligned and unmapped addresses and CMD are access errors to a read, and misaligned,
unmapped and read-only ones to a write; LASTERR is not changed. The word a read returns stands in the model's own field
(log 3). -/
def Obligations.AccessErrorsAreLoggedOnly : Prop :=
  ∀ (s : State) (addr : Nat) (v : Word),
    (badAddress s.hw addr →
      perform (.hostRead addr) s = .next { s with readData := some 0#32, faultlog := s.faultlog ||| 0x40#32 } ∧
      perform (.hostWrite addr v) s = .next { s with faultlog := s.faultlog ||| 0x40#32 }) ∧
    perform (.hostRead 0x00C) s = .next { s with readData := some 0#32, faultlog := s.faultlog ||| 0x40#32 } ∧
    (readOnly addr →
      perform (.hostWrite addr v) s = .next { s with faultlog := s.faultlog ||| 0x40#32 })

/-- `20_memory.md` R36, R43: a write to ARG stores the word and does nothing else. -/
def Obligations.ArgWritesStoreTheWord : Prop :=
  ∀ (s : State) (v : Word),
    perform (.hostWrite 0x010 v) s = .next { s with arg := { s.arg with a0 := v } } ∧
    perform (.hostWrite 0x014 v) s = .next { s with arg := { s.arg with a1 := v } } ∧
    perform (.hostWrite 0x018 v) s = .next { s with arg := { s.arg with a2 := v } } ∧
    perform (.hostWrite 0x01C v) s = .next { s with arg := { s.arg with a3 := v } }

/-- `20_memory.md` R36, R38, R43: a CtrlWrite and a HostWrite of any word to a parameter's address store that word in that
parameter and do nothing else. -/
def Obligations.ParameterWritesStoreTheWord : Prop :=
  ∀ (s : State) (i : Fin 5) (v : Word), ∃ p : Params,
    (∀ j : Fin 5, paramGet p j = if j = i then v else paramGet s.pcur j) ∧
    perform (.ctrlWrite i v) s = .next { s with pcur := p } ∧
    perform (.hostWrite (0x060 + 4 * i.val) v) s = .next { s with pcur := p }

/-- `20_memory.md` R39, `92_eei_decisions.md` D21: an access narrower than a word is an access error at every address, CMD and
the buffer windows included. That it is an action of the host, and that its read returns 0, is an inference (log 19); the
word a read returns stands in the model's own field (log 3). -/
def Obligations.NarrowAccessesAreErrors : Prop :=
  ∀ (s : State) (n : Narrow) (addr : Nat) (v : Word),
    perform (.narrowRead n addr) s = .next { s with readData := some 0#32, faultlog := s.faultlog ||| 0x40#32 } ∧
    perform (.narrowWrite n addr v) s = .next { s with faultlog := s.faultlog ||| 0x40#32 }

/-- `20_memory.md` R37, R39, R43: the host writes and reads back any element of the block buffers, prepared or not, and a
write changes no other element. -/
def Obligations.BufferWindowReadsBackWrites : Prop :=
  ∀ (s : State) (b : BufId) (c i : Nat) (v : Word), s.hw.ok = true → c < s.hw.maxCh → i < s.hw.blkDepth →
    perform (.hostRead (0x01000000 * (b.code.toNat + 1) + 4 * (c * s.hw.blkDepth + i))) s =
      .next { s with readData := some (s.bufAt b c i) } ∧
    ∃ t : State,
      perform (.hostWrite (0x01000000 * (b.code.toNat + 1) + 4 * (c * s.hw.blkDepth + i)) v) s = .next t ∧
      (∀ b' c' i', c' < s.hw.maxCh → i' < s.hw.blkDepth →
        t.bufAt b' c' i' = if b' = b ∧ c' = c ∧ i' = i then v else s.bufAt b' c' i') ∧
      (∀ x, (∀ j < 4, x ≠ bufAddr s.hw b c i + j) → t.buf.byte x = s.buf.byte x) ∧
      t = { s with buf := t.buf }

/-- `20_memory.md` R40: the byte of a buffer word at the lowest address is its bits `[7:0]`. That the memory is
kept as bytes is the model's choice (log 11). -/
def Obligations.BufferBytesAreLittleEndian : Prop :=
  ∀ (s : State) (b : BufId) (c i j : Nat), j < 4 →
    (s.buf.byte (bufAddr s.hw b c i + j)).toNat = u (s.bufAt b c i) / 256 ^ j % 256
end

