-- ==== Sys2Proof/Laws/Memory.lean ====
section
/-! SUPPORT. Bytes and words of memory: read after write, the canonical form, and where listed bytes stand. -/

namespace Sys2Proof.Machine

@[simp] theorem Memory.lookup_nil (a : Nat) : Memory.lookup [] a = none := rfl

theorem Memory.lookup_cons (k : Nat) (v : Byte) (m : Memory) (a : Nat) :
    Memory.lookup ((k, v) :: m) a = if a = k then some v else Memory.lookup m a := rfl

theorem Memory.lookup_insert (m : Memory) (a : Nat) (v : Byte) (x : Nat) :
    (m.insert a v).lookup x = if x = a then some v else m.lookup x := by
  induction m with
  | nil => simp [Memory.insert, Memory.lookup_cons]
  | cons c m ih =>
    obtain ⟨k, w⟩ := c
    simp only [Memory.insert]
    split
    · simp [Memory.lookup_cons]
    · split
      · subst_vars
        by_cases hx : x = k <;> simp [Memory.lookup_cons, hx]
      · rename_i h1 h2
        by_cases hx : x = k
        · subst hx
          simp [Memory.lookup_cons, Ne.symm h2]
        · simp [Memory.lookup_cons, hx, ih]

theorem Memory.lookup_erase (m : Memory) (a x : Nat) :
    (m.erase a).lookup x = if x = a then none else m.lookup x := by
  induction m with
  | nil => simp [Memory.erase]
  | cons c m ih =>
    obtain ⟨k, w⟩ := c
    by_cases hk : k = a
    · subst hk
      have he : Memory.erase ((k, w) :: m) k = Memory.erase m k := by simp [Memory.erase]
      by_cases hx : x = k <;> simp_all [Memory.lookup_cons]
    · have he : Memory.erase ((k, w) :: m) a = (k, w) :: Memory.erase m a := by simp [Memory.erase, hk]
      rw [he, Memory.lookup_cons, Memory.lookup_cons, ih]
      by_cases hx : x = k
      · subst hx
        simp [hk]
      · simp [hx]

/-- Everything a byte store does to what is listed. -/
theorem Memory.lookup_store (unlisted : Nat → Option Byte) (m : Memory) (a : Nat) (v : Byte) (x : Nat) :
    (m.store unlisted a v).lookup x =
      if x = a then (if unlisted x = some v then none else some v) else m.lookup x := by
  unfold Memory.store
  split <;> by_cases hx : x = a <;> simp_all [Memory.lookup_insert, Memory.lookup_erase]

/-! ### The canonical form -/

/-- The canonical form as two separate facts. -/
theorem Memory.wf_iff (unlisted : Nat → Option Byte) (m : Memory) :
    m.wf unlisted = true ↔ m.Pairwise (fun c d => c.1 < d.1) ∧ ∀ c ∈ m, unlisted c.1 ≠ some c.2 := by
  induction m with
  | nil => simp [Memory.wf]
  | cons c m ih =>
    obtain ⟨k, v⟩ := c
    cases m with
    | nil => simp [Memory.wf]
    | cons d m =>
      obtain ⟨k', v'⟩ := d
      simp only [Memory.wf, Bool.and_eq_true, decide_eq_true_eq, ih]
      constructor
      · rintro ⟨⟨hlt, hne⟩, hp, hall⟩
        refine ⟨List.pairwise_cons.2 ⟨?_, hp⟩, ?_⟩
        · intro e he
          rcases List.mem_cons.1 he with rfl | he'
          · exact hlt
          · exact lt_trans hlt ((List.pairwise_cons.1 hp).1 e he')
        · intro e he
          rcases List.mem_cons.1 he with rfl | he'
          · exact hne
          · exact hall e he'
      · rintro ⟨hp, hall⟩
        have hp' := List.pairwise_cons.1 hp
        exact ⟨⟨hp'.1 (k', v') (by simp), hall (k, v) (by simp)⟩, hp'.2, fun e he => hall e (List.mem_cons_of_mem _ he)⟩

theorem Memory.mem_insert {m : Memory} {a : Nat} {v : Byte} {c : Host.Cell} (h : c ∈ m.insert a v) :
    c = (a, v) ∨ c ∈ m := by
  induction m with
  | nil => simpa [Memory.insert] using h
  | cons d m ih =>
    obtain ⟨k, w⟩ := d
    simp only [Memory.insert] at h
    split at h
    · simpa using h
    · split at h
      · rcases List.mem_cons.1 h with h | h
        · exact .inl h
        · exact .inr (List.mem_cons_of_mem _ h)
      · rcases List.mem_cons.1 h with h | h
        · exact .inr (by simp [h])
        · rcases ih h with h | h
          · exact .inl h
          · exact .inr (List.mem_cons_of_mem _ h)

theorem Memory.mem_store {unlisted : Nat → Option Byte} {m : Memory} {a : Nat} {v : Byte} {c : Host.Cell}
    (h : c ∈ m.store unlisted a v) : c.1 = a ∨ c ∈ m := by
  unfold Memory.store at h
  split at h
  · exact .inr (List.mem_of_mem_filter h)
  · rcases Memory.mem_insert h with h | h
    · exact .inl (by simp [h])
    · exact .inr h

theorem Memory.pairwise_insert {m : Memory} (a : Nat) (v : Byte) (h : m.Pairwise (fun c d => c.1 < d.1)) :
    (m.insert a v).Pairwise (fun c d => c.1 < d.1) := by
  induction m with
  | nil => simp [Memory.insert]
  | cons d m ih =>
    obtain ⟨k, w⟩ := d
    have h' := List.pairwise_cons.1 h
    simp only [Memory.insert]
    split
    · rename_i hlt
      refine List.pairwise_cons.2 ⟨?_, h⟩
      intro e he
      rcases List.mem_cons.1 he with rfl | he
      · exact hlt
      · exact lt_trans hlt (h'.1 e he)
    · split
      · subst_vars
        exact List.pairwise_cons.2 ⟨h'.1, h'.2⟩
      · refine List.pairwise_cons.2 ⟨?_, ih h'.2⟩
        intro e he
        rcases Memory.mem_insert he with rfl | he
        · show k < a
          omega
        · exact h'.1 e he

/-- A byte store keeps the canonical form. -/
theorem Memory.wf_store {unlisted : Nat → Option Byte} {m : Memory} (a : Nat) (v : Byte) (h : m.wf unlisted = true) :
    (m.store unlisted a v).wf unlisted = true := by
  rw [Memory.wf_iff] at h ⊢
  unfold Memory.store
  split
  · exact ⟨h.1.filter _, fun c hc => h.2 c (List.mem_of_mem_filter hc)⟩
  · rename_i hne
    refine ⟨Memory.pairwise_insert a v h.1, fun c hc => ?_⟩
    rcases Memory.mem_insert hc with rfl | hc
    · exact hne
    · exact h.2 c hc

/-- Taking bytes off the list keeps the canonical form. -/
theorem Memory.wf_filter {unlisted : Nat → Option Byte} {m : Memory} (p : Host.Cell → Bool) (h : m.wf unlisted = true) :
    Memory.wf unlisted (m.filter p) = true := by
  rw [Memory.wf_iff] at h ⊢
  exact ⟨h.1.filter _, fun c hc => h.2 c (List.mem_of_mem_filter hc)⟩

/-- A word store keeps the canonical form. -/
theorem Memory.wf_storeWord {unlisted : Nat → Option Byte} {m : Memory} (a : Nat) (w : Word) (h : m.wf unlisted = true) :
    (m.storeWord unlisted a w).wf unlisted = true :=
  Memory.wf_store _ _ (Memory.wf_store _ _ (Memory.wf_store _ _ (Memory.wf_store _ _ h)))

/-- A word store lists nothing but bytes of that word and what was listed before. -/
theorem Memory.mem_storeWord {unlisted : Nat → Option Byte} {m : Memory} {a : Nat} {w : Word} {c : Host.Cell}
    (h : c ∈ m.storeWord unlisted a w) : (a ≤ c.1 ∧ c.1 < a + 4) ∨ c ∈ m := by
  unfold Memory.storeWord at h
  rcases Memory.mem_store h with h | h
  · omega
  rcases Memory.mem_store h with h | h
  · omega
  rcases Memory.mem_store h with h | h
  · omega
  rcases Memory.mem_store h with h | h
  · omega
  exact .inr h

/-! ### Words of bytes -/

/-- The four bytes of a word, put together again (`20_memory.md` R40). -/
@[simp] theorem wordOf_byteOf (w : Word) : wordOf (byteOf w 0) (byteOf w 1) (byteOf w 2) (byteOf w 3) = w := by
  apply BitVec.eq_of_getLsbD_eq
  intro i hi
  simp only [wordOf, byteOf, BitVec.getLsbD_append, BitVec.getLsbD_extractLsb']
  by_cases h1 : i < 8
  · simp [h1]
  by_cases h2 : i < 16
  · simp [h1, show i - 8 < 8 by omega, show 8 * 1 + (i - 8) = i by omega]
  by_cases h3 : i < 24
  · simp [h1, show ¬ i - 8 < 8 by omega, show i - 8 - 8 < 8 by omega, show 8 * 2 + (i - 8 - 8) = i by omega]
  · simp [h1, show ¬ i - 8 < 8 by omega, show ¬ i - 8 - 8 < 8 by omega, show i - 8 - 8 - 8 < 8 by omega,
      show 8 * 3 + (i - 8 - 8 - 8) = i by omega]

/-- What is listed after a word store. -/
theorem Memory.lookup_storeWord (unlisted : Nat → Option Byte) (m : Memory) (a : Nat) (w : Word) (x : Nat) :
    (m.storeWord unlisted a w).lookup x =
      if a ≤ x ∧ x < a + 4 then
        (if unlisted x = some (byteOf w (x - a)) then none else some (byteOf w (x - a)))
      else m.lookup x := by
  unfold Memory.storeWord
  simp only [Memory.lookup_store]
  by_cases h3 : x = a + 3
  · subst h3; simp
  by_cases h2 : x = a + 2
  · subst h2; simp
  by_cases h1 : x = a + 1
  · subst h1; simp
  by_cases h0 : x = a
  · subst h0; simp
  have : ¬ (a ≤ x ∧ x < a + 4) := by omega
  simp [h0, h1, h2, h3, this]

end Sys2Proof.Machine
end

