-- ==== Sys2Proof/Laws/Elements.lean ====
section
/-! SUPPORT. Elements of the ring and of the block buffers: read after write, where elements stand, and PREPARE's clear. -/

namespace Sys2Proof.Machine

/-! ### Addresses -/

theorem ringAddr_mod (hw : Hardware) (c k : Nat) : ringAddr hw c k % 4 = 0 := by
  unfold ringAddr; omega

theorem bufAddr_mod (hw : Hardware) (b : BufId) (c i : Nat) : bufAddr hw b c i % 4 = 0 := by
  unfold bufAddr; omega

@[simp] theorem ringAddr_inj_index (hw : Hardware) (c k k' : Nat) : ringAddr hw c k = ringAddr hw c k' ↔ k = k' := by
  unfold ringAddr; omega

@[simp] theorem bufAddr_inj_index (hw : Hardware) (b : BufId) (c i i' : Nat) :
    bufAddr hw b c i = bufAddr hw b c i' ↔ i = i' := by
  unfold bufAddr; omega

/-- An element of row `c` numbers below the next row. -/
theorem row_lt {rows width c i : Nat} (hc : c < rows) (hi : i < width) : c * width + i < rows * width := by
  calc c * width + i < c * width + width := by omega
    _ = (c + 1) * width := by ring
    _ ≤ rows * width := Nat.mul_le_mul_right _ hc

/-- Two elements of a table of rows have the same number only if they are the same. -/
theorem row_inj {width c c' i i' : Nat} (hi : i < width) (hi' : i' < width)
    (h : c * width + i = c' * width + i') : c = c' ∧ i = i' := by
  have hw : 0 < width := by omega
  have hd := congrArg (· / width) h
  have hm := congrArg (· % width) h
  simp only [Nat.mul_comm c width, Nat.mul_comm c' width, Nat.mul_add_div hw, Nat.mul_add_mod,
    Nat.div_eq_of_lt hi, Nat.div_eq_of_lt hi', Nat.mod_eq_of_lt hi, Nat.mod_eq_of_lt hi'] at hd hm
  exact ⟨by omega, hm⟩

theorem ringAddr_inj {hw : Hardware} {c c' k k' : Nat} (hk : k < hw.ringDepth) (hk' : k' < hw.ringDepth) :
    ringAddr hw c k = ringAddr hw c' k' ↔ c = c' ∧ k = k' := by
  constructor
  · intro h
    unfold ringAddr at h
    exact row_inj hk hk' (by omega)
  · rintro ⟨rfl, rfl⟩; rfl

theorem Hardware.ok_iff (hw : Hardware) :
    hw.ok = true ↔ 1 ≤ hw.maxCh ∧ hw.maxCh ≤ 16 ∧ hw.maxCh * hw.blkDepth ≤ 2 ^ 22 ∧ hw.ringDepth < 2 ^ 32 := by
  simp [Hardware.ok, and_assoc]

theorem BufId.code_lt (b : BufId) : b.code.toNat < 3 := by cases b <;> decide

theorem BufId.code_inj {b b' : BufId} (h : b.code.toNat = b'.code.toNat) : b = b' := by
  revert h; cases b <;> cases b' <;> decide

/-- Within the physical sizes (R6) two buffer elements have one address only if they are the same element (R37). -/
theorem bufAddr_inj {hw : Hardware} (hok : hw.ok = true) {b b' : BufId} {c c' i i' : Nat}
    (hc : c < hw.maxCh) (hc' : c' < hw.maxCh) (hi : i < hw.blkDepth) (hi' : i' < hw.blkDepth) :
    bufAddr hw b c i = bufAddr hw b' c' i' ↔ b = b' ∧ c = c' ∧ i = i' := by
  constructor
  · intro h
    have h1 := row_lt hc hi
    have h2 := row_lt hc' hi'
    have h3 := ((Hardware.ok_iff hw).1 hok).2.2.1
    unfold bufAddr at h
    have hb : b.code.toNat = b'.code.toNat := by omega
    have := row_inj hi hi' (c := c) (c' := c') (by omega)
    exact ⟨BufId.code_inj hb, this.1, this.2⟩
  · rintro ⟨rfl, rfl, rfl⟩; rfl

/-- Every element of the physical buffers is at a mapped address (R37). -/
theorem inWindow_bufAddr {hw : Hardware} (hok : hw.ok = true) (b : BufId) {c i : Nat}
    (hc : c < hw.maxCh) (hi : i < hw.blkDepth) : inWindow hw (bufAddr hw b c i) = true := by
  have h1 := row_lt hc hi
  have h3 := ((Hardware.ok_iff hw).1 hok).2.2.1
  have hb := BufId.code_lt b
  have hm := bufAddr_mod hw b c i
  have h4 : bufAddr hw b c i = 0x01000000 * (b.code.toNat + 1) + 4 * (c * hw.blkDepth + i) := rfl
  simp only [inWindow, Bool.and_eq_true, decide_eq_true_eq]
  generalize bufAddr hw b c i = A at hm h4 ⊢
  generalize b.code.toNat = B at hb h4 ⊢
  generalize c * hw.blkDepth + i = X at h1 h4
  generalize hw.maxCh * hw.blkDepth = Y at h1 h3 ⊢
  refine ⟨⟨⟨hm, by omega⟩, by omega⟩, by omega⟩

/-- A mapped window address is the address of an element. -/
theorem inWindow_elim {hw : Hardware} {addr : Nat} (h : inWindow hw addr = true) :
    ∃ b c i, c < hw.maxCh ∧ i < hw.blkDepth ∧ addr = bufAddr hw b c i := by
  simp only [inWindow, Bool.and_eq_true, decide_eq_true_eq] at h
  obtain ⟨⟨⟨h4, hlo⟩, hhi⟩, hoff⟩ := h
  have hpos : 0 < hw.blkDepth := by
    rcases Nat.eq_zero_or_pos hw.blkDepth with h0 | h0
    · simp [h0] at hoff
    · exact h0
  have hb : ∃ b : BufId, addr / 0x01000000 = b.code.toNat + 1 := by
    have h1 : addr / 0x01000000 = 1 ∨ addr / 0x01000000 = 2 ∨ addr / 0x01000000 = 3 := by omega
    rcases h1 with h1 | h1 | h1
    · exact ⟨.io, h1⟩
    · exact ⟨.wet, h1⟩
    · exact ⟨.dry, h1⟩
  obtain ⟨b, hb⟩ := hb
  refine ⟨b, addr % 0x01000000 / 4 / hw.blkDepth, addr % 0x01000000 / 4 % hw.blkDepth, ?_, Nat.mod_lt _ hpos, ?_⟩
  · rw [Nat.div_lt_iff_lt_mul hpos]
    omega
  · unfold bufAddr
    rw [Nat.div_add_mod']
    omega

/-! ### The ring -/

@[simp] theorem ringSet_rows (hw : Hardware) (r : Ring) (c k : Nat) (w : Word) : (ringSet hw r c k w).rows = r.rows := rfl

@[simp] theorem ringSet_width (hw : Hardware) (r : Ring) (c k : Nat) (w : Word) : (ringSet hw r c k w).width = r.width := rfl

@[simp] theorem ringSet_epoch (hw : Hardware) (r : Ring) (c k : Nat) (w : Word) : (ringSet hw r c k w).epoch = r.epoch := rfl

@[simp] theorem ringSet_cleared (hw : Hardware) (r : Ring) (c k : Nat) (w : Word) (x : Nat) :
    (ringSet hw r c k w).cleared hw x = r.cleared hw x := rfl

@[simp] theorem ringSet_unlisted (hw : Hardware) (r : Ring) (c k : Nat) (w : Word) :
    (ringSet hw r c k w).unlisted hw = r.unlisted hw := rfl

/-- Every byte of the ring after an element is written. -/
theorem ringByte_ringSet (hw : Hardware) (r : Ring) (c k : Nat) (w : Word) (x : Nat) :
    ringByte hw (ringSet hw r c k w) x =
      if ringAddr hw c k ≤ x ∧ x < ringAddr hw c k + 4 then byteOf w (x - ringAddr hw c k) else ringByte hw r x := by
  unfold ringByte
  rw [show (ringSet hw r c k w).cells = r.cells.storeWord (r.unlisted hw) (ringAddr hw c k) w from rfl,
    Memory.lookup_storeWord, ringSet_cleared, ringSet_epoch]
  split
  · cases h : r.cleared hw x <;> simp [Ring.unlisted, h]
    split
    · rename_i h'; simp [h']
    · rfl
  · rfl

/-- An element of the ring after one is written. -/
theorem ringGet_ringSet (hw : Hardware) (r : Ring) (c k : Nat) (w : Word) (c' k' : Nat) :
    ringGet hw (ringSet hw r c k w) c' k' = if ringAddr hw c' k' = ringAddr hw c k then w else ringGet hw r c' k' := by
  have h1 := ringAddr_mod hw c k
  have h2 := ringAddr_mod hw c' k'
  unfold ringGet
  simp only [ringByte_ringSet]
  generalize ringAddr hw c k = A at *
  generalize ringAddr hw c' k' = B at *
  by_cases h : B = A
  · subst h; simp
  · rw [if_neg (by omega), if_neg (by omega), if_neg (by omega), if_neg (by omega), if_neg h]

@[simp] theorem ringGet_ringSet_same (hw : Hardware) (r : Ring) (c k : Nat) (w : Word) :
    ringGet hw (ringSet hw r c k w) c k = w := by simp [ringGet_ringSet]

/-- Which elements are in the cleared region. -/
theorem Ring.cleared_ringAddr {hw : Hardware} {r : Ring} {c k j : Nat} (hk : k < hw.ringDepth) (hj : j < 4) :
    r.cleared hw (ringAddr hw c k + j) = (decide (c < r.rows) && decide (k < r.width)) := by
  have h : (ringAddr hw c k + j) / 4 = hw.ringDepth * c + k := by
    unfold ringAddr
    rw [Nat.mul_comm hw.ringDepth c]
    omega
  unfold Ring.cleared
  rw [h, Nat.mul_add_div (by omega), Nat.mul_add_mod, Nat.div_eq_of_lt hk, Nat.mod_eq_of_lt hk]
  simp

/-- After PREPARE every element it allocated is zero (R106). -/
theorem ringGet_ringClear {hw : Hardware} {ch cap : Nat} (r : Ring) {c k : Nat} (hc : c < ch) (hk : k < cap)
    (hd : cap ≤ hw.ringDepth) : ringGet hw (ringClear ch cap r) c k = 0#32 := by
  have hb : ∀ j < 4, ringByte hw (ringClear ch cap r) (ringAddr hw c k + j) = 0#8 := by
    intro j hj
    have h := Ring.cleared_ringAddr (hw := hw) (r := ringClear ch cap r) (c := c) (k := k) (by omega) hj
    have h' : (ringClear ch cap r).cleared hw (ringAddr hw c k + j) = true := by
      rw [h]; simp [ringClear, hc, hk]
    unfold ringByte
    rw [if_pos h']
    rfl
  have h0 := hb 0 (by omega)
  rw [Nat.add_zero] at h0
  unfold ringGet
  rw [h0, hb 1 (by omega), hb 2 (by omega), hb 3 (by omega)]
  decide

/-- The ring's list is in canonical form. -/
abbrev RingForm (hw : Hardware) (r : Ring) : Prop := r.cells.wf (r.unlisted hw) = true

theorem RingForm.set {hw : Hardware} {r : Ring} (h : RingForm hw r) (c k : Nat) (w : Word) :
    RingForm hw (ringSet hw r c k w) := Memory.wf_storeWord _ _ h

theorem ringForm_ringClear (hw : Hardware) (ch cap : Nat) (r : Ring) : RingForm hw (ringClear ch cap r) := rfl

theorem ringForm_ringLose (hw : Hardware) (r : Ring) : RingForm hw (ringLose r) := rfl

/-! ### The block buffers -/

@[simp] theorem Buffers.setWordAt_epoch (m : Buffers) (a : Nat) (w : Word) : (m.setWordAt a w).epoch = m.epoch := rfl

@[simp] theorem Buffers.set_epoch (m : Buffers) (hw : Hardware) (b : BufId) (c i : Nat) (w : Word) :
    (m.set hw b c i w).epoch = m.epoch := rfl

/-- Every byte of the windows after a word is written. -/
theorem Buffers.byte_setWordAt (m : Buffers) (a : Nat) (w : Word) (x : Nat) :
    (m.setWordAt a w).byte x = if a ≤ x ∧ x < a + 4 then byteOf w (x - a) else m.byte x := by
  unfold Buffers.byte Buffers.setWordAt
  simp only [Memory.lookup_storeWord, bufUnlisted]
  split <;> simp

/-- A word of the windows after one is written, both aligned. -/
theorem Buffers.wordAt_setWordAt (m : Buffers) {a b : Nat} (w : Word) (ha : a % 4 = 0) (hb : b % 4 = 0) :
    (m.setWordAt a w).wordAt b = if b = a then w else m.wordAt b := by
  unfold Buffers.wordAt
  simp only [Buffers.byte_setWordAt]
  by_cases h : b = a
  · subst h; simp
  · rw [if_neg (by omega), if_neg (by omega), if_neg (by omega), if_neg (by omega), if_neg h]

/-- An element of the buffers after one is written. -/
theorem Buffers.get_set (m : Buffers) (hw : Hardware) (b : BufId) (c i : Nat) (w : Word) (b' : BufId) (c' i' : Nat) :
    (m.set hw b c i w).get hw b' c' i' =
      if bufAddr hw b' c' i' = bufAddr hw b c i then w else m.get hw b' c' i' := by
  unfold Buffers.get Buffers.set
  exact Buffers.wordAt_setWordAt m w (bufAddr_mod ..) (bufAddr_mod ..)

@[simp] theorem Buffers.get_set_same (m : Buffers) (hw : Hardware) (b : BufId) (c i : Nat) (w : Word) :
    (m.set hw b c i w).get hw b c i = w := by simp [Buffers.get_set]

/-- An element of the same channel of the same buffer after one is written. -/
theorem Buffers.get_set_index (m : Buffers) (hw : Hardware) (b : BufId) (c i : Nat) (w : Word) (i' : Nat) :
    (m.set hw b c i w).get hw b c i' = if i' = i then w else m.get hw b c i' := by
  simp only [Buffers.get_set, bufAddr_inj_index]

/-- Any physical element after one is written. -/
theorem Buffers.get_set_element {hw : Hardware} (hok : hw.ok = true) (m : Buffers) {b b' : BufId} {c c' i i' : Nat}
    (w : Word) (hc : c < hw.maxCh) (hi : i < hw.blkDepth) (hc' : c' < hw.maxCh) (hi' : i' < hw.blkDepth) :
    (m.set hw b c i w).get hw b' c' i' = if b' = b ∧ c' = c ∧ i' = i then w else m.get hw b' c' i' := by
  simp only [Buffers.get_set, bufAddr_inj hok hc' hc hi' hi]

/-- An element of the same ring row after one is written. -/
theorem ringGet_ringSet_index (hw : Hardware) (r : Ring) (c k : Nat) (w : Word) (k' : Nat) :
    ringGet hw (ringSet hw r c k w) c k' = if k' = k then w else ringGet hw r c k' := by
  simp only [ringGet_ringSet, ringAddr_inj_index]

/-- Any physical ring element after one is written. -/
theorem ringGet_ringSet_element {hw : Hardware} (r : Ring) {c c' k k' : Nat} (w : Word) (hk : k < hw.ringDepth)
    (hk' : k' < hw.ringDepth) :
    ringGet hw (ringSet hw r c k w) c' k' = if c' = c ∧ k' = k then w else ringGet hw r c' k' := by
  simp only [ringGet_ringSet, ringAddr_inj hk' hk]

/-- Bytes outside the element written read as before. -/
theorem Buffers.byte_set_of_ne (m : Buffers) (hw : Hardware) (b : BufId) (c i : Nat) (w : Word) {x : Nat}
    (h : ∀ j < 4, x ≠ bufAddr hw b c i + j) : (m.set hw b c i w).byte x = m.byte x := by
  unfold Buffers.set
  rw [Buffers.byte_setWordAt, if_neg]
  rintro ⟨h1, h2⟩
  exact h (x - bufAddr hw b c i) (by omega) (by omega)

/-- Bytes outside the element written read as before. -/
theorem ringByte_ringSet_of_ne (hw : Hardware) (r : Ring) (c k : Nat) (w : Word) {x : Nat}
    (h : ∀ j < 4, x ≠ ringAddr hw c k + j) : ringByte hw (ringSet hw r c k w) x = ringByte hw r x := by
  rw [ringByte_ringSet, if_neg]
  rintro ⟨h1, h2⟩
  exact h (x - ringAddr hw c k) (by omega) (by omega)

theorem wf_setWordAt {m : Buffers} (a : Nat) (w : Word) (h : m.cells.wf bufUnlisted = true) :
    (m.setWordAt a w).cells.wf bufUnlisted = true := Memory.wf_storeWord _ _ h

theorem wf_set {m : Buffers} (hw : Hardware) (b : BufId) (c i : Nat) (w : Word) (h : m.cells.wf bufUnlisted = true) :
    (m.set hw b c i w).cells.wf bufUnlisted = true := Memory.wf_storeWord _ _ h

/-! ### Where listed bytes stand -/

/-- Every listed ring byte belongs to an element PREPARE cleared: no command forms another index (U12). -/
def RingPlaced (hw : Hardware) (r : Ring) : Prop := ∀ cell ∈ r.cells, r.cleared hw cell.1 = true

/-- Every listed buffer byte belongs to a physical element (R37). -/
def BufPlaced (hw : Hardware) (m : Buffers) : Prop := ∀ cell ∈ m.cells, inWindow hw (cell.1 / 4 * 4) = true

theorem RingPlaced.set {hw : Hardware} {r : Ring} (h : RingPlaced hw r) {c k : Nat} (w : Word)
    (hc : c < r.rows) (hk : k < r.width) (hd : r.width ≤ hw.ringDepth) : RingPlaced hw (ringSet hw r c k w) := by
  intro cell hcell
  rw [ringSet_cleared]
  rcases Memory.mem_storeWord hcell with h' | h'
  · have h := Ring.cleared_ringAddr (hw := hw) (r := r) (c := c) (k := k) (j := cell.1 - ringAddr hw c k) (by omega)
      (by omega)
    rw [show ringAddr hw c k + (cell.1 - ringAddr hw c k) = cell.1 by omega] at h
    rw [h]; simp [hc, hk]
  · exact h cell h'

theorem RingPlaced.clear (hw : Hardware) (ch cap : Nat) (r : Ring) : RingPlaced hw (ringClear ch cap r) :=
  fun _ h => nomatch h

theorem RingPlaced.lose (hw : Hardware) (r : Ring) : RingPlaced hw (ringLose r) := fun _ h => nomatch h

theorem BufPlaced.setWordAt {hw : Hardware} {m : Buffers} (h : BufPlaced hw m) {a : Nat} (w : Word)
    (ha : inWindow hw a = true) : BufPlaced hw (m.setWordAt a w) := by
  intro cell hcell
  rcases Memory.mem_storeWord (unlisted := bufUnlisted) (m := m.cells) (a := a) (w := w) hcell with h' | h'
  · have h4 : a % 4 = 0 := by
      simp only [inWindow, Bool.and_eq_true, decide_eq_true_eq] at ha
      exact ha.1.1.1
    have : cell.1 / 4 * 4 = a := by omega
    rw [this]; exact ha
  · exact h cell h'

theorem BufPlaced.set {hw : Hardware} (hok : hw.ok = true) {m : Buffers} (h : BufPlaced hw m) (b : BufId) {c i : Nat}
    (w : Word) (hc : c < hw.maxCh) (hi : i < hw.blkDepth) : BufPlaced hw (m.set hw b c i w) :=
  h.setWordAt w (inWindow_bufAddr hok b hc hi)

end Sys2Proof.Machine
end

