-- ==== Sys2Proof/Laws/Blocks.lean ====
section
/-! SUPPORT. What each pass over a block of samples does to the ring or to the buffers: one lemma for the elements, one for
the bytes it leaves alone, one for the canonical form. -/

namespace Sys2Proof.Machine

/-! ### Loops -/

@[simp] theorem loop_zero {α : Type} (f : Nat → α → α) (x : α) : loop 0 f x = x := rfl

@[simp] theorem loop_succ {α : Type} (n : Nat) (f : Nat → α → α) (x : α) : loop (n + 1) f x = f n (loop n f x) := rfl

/-- What holds before a loop and is carried through each pass holds after it. -/
theorem loop_induct {α : Type} {f : Nat → α → α} {x : α} (P : Nat → α → Prop) (n : Nat) (h0 : P 0 x)
    (hs : ∀ i y, i < n → P i y → P (i + 1) (f i y)) : P n (loop n f x) := by
  induction n with
  | zero => exact h0
  | succ n ih => exact hs n _ (by omega) (ih fun i y hi => hs i y (by omega))

/-! ### Passes that write one buffer element per sample -/

/-- The elements after such a pass, where the value written at `i` depends only on elements not yet written. -/
theorem setLoop_get {hw : Hardware} (hok : hw.ok = true) {c : Nat} (hc : c < hw.maxCh) (dst : BufId) {len : Nat}
    (hlen : len ≤ hw.blkDepth) (F : Nat → Buffers → Word) (V : Nat → Word) (m : Buffers)
    (hF : ∀ i < len, ∀ y : Buffers,
      (∀ b c' i', c' < hw.maxCh → i' < hw.blkDepth → ¬ (b = dst ∧ c' = c ∧ i' < i) →
        y.get hw b c' i' = m.get hw b c' i') → F i y = V i)
    (b : BufId) {c' i' : Nat} (hc' : c' < hw.maxCh) (hi' : i' < hw.blkDepth) :
    (loop len (fun i y => y.set hw dst c i (F i y)) m).get hw b c' i' =
      if b = dst ∧ c' = c ∧ i' < len then V i' else m.get hw b c' i' := by
  suffices h : ∀ b c' i', c' < hw.maxCh → i' < hw.blkDepth →
      (loop len (fun i y => y.set hw dst c i (F i y)) m).get hw b c' i' =
        if b = dst ∧ c' = c ∧ i' < len then V i' else m.get hw b c' i' from h b c' i' hc' hi'
  refine loop_induct (fun n (y : Buffers) => ∀ b c' i', c' < hw.maxCh → i' < hw.blkDepth →
    y.get hw b c' i' = if b = dst ∧ c' = c ∧ i' < n then V i' else m.get hw b c' i') len ?_ ?_
  · intro b c' i' _ _
    simp
  · intro i y hi ih b c' i' hc' hi'
    have hFi : F i y = V i := by
      refine hF i hi y fun b c' i' h1 h2 h3 => ?_
      rw [ih b c' i' h1 h2, if_neg h3]
    rw [Buffers.get_set_element hok y _ hc (by omega) hc' hi', ih b c' i' hc' hi', hFi]
    by_cases h : b = dst ∧ c' = c ∧ i' = i
    · obtain ⟨rfl, rfl, rfl⟩ := h
      simp
    · rw [if_neg h]
      have : (b = dst ∧ c' = c ∧ i' < i + 1) ↔ (b = dst ∧ c' = c ∧ i' < i) := by
        constructor
        · rintro ⟨h1, h2, h3⟩
          refine ⟨h1, h2, ?_⟩
          have : i' ≠ i := fun he => h ⟨h1, h2, he⟩
          omega
        · rintro ⟨h1, h2, h3⟩
          exact ⟨h1, h2, by omega⟩
      simp only [this]

/-- Bytes of no written element read as before. -/
theorem setLoop_byte (hw : Hardware) (c : Nat) (dst : BufId) (len : Nat) (F : Nat → Buffers → Word) (m : Buffers)
    {x : Nat} (hx : ∀ i < len, ∀ j < 4, x ≠ bufAddr hw dst c i + j) :
    (loop len (fun i y => y.set hw dst c i (F i y)) m).byte x = m.byte x :=
  loop_induct (fun _ (y : Buffers) => y.byte x = m.byte x) len rfl fun i _ hi ih =>
    (Buffers.byte_set_of_ne _ _ _ _ _ _ (hx i hi)).trans ih

/-- The reset epoch, the canonical form and the places of listed bytes after such a pass. -/
theorem setLoop_form {hw : Hardware} (c : Nat) (dst : BufId) (len : Nat) (F : Nat → Buffers → Word) (m : Buffers) :
    (loop len (fun i y => y.set hw dst c i (F i y)) m).epoch = m.epoch ∧
      (m.cells.wf bufUnlisted = true → (loop len (fun i y => y.set hw dst c i (F i y)) m).cells.wf bufUnlisted = true) ∧
      (hw.ok = true → c < hw.maxCh → len ≤ hw.blkDepth → BufPlaced hw m →
        BufPlaced hw (loop len (fun i y => y.set hw dst c i (F i y)) m)) := by
  refine ⟨?_, ?_, ?_⟩
  · exact loop_induct (fun _ (y : Buffers) => y.epoch = m.epoch) len rfl fun i y _ ih => ih
  · intro h
    exact loop_induct (fun _ (y : Buffers) => y.cells.wf bufUnlisted = true) len h fun i y _ ih => wf_set _ _ _ _ _ ih
  · intro hok hc hlen h
    exact loop_induct (fun _ (y : Buffers) => BufPlaced hw y) len h fun i y hi ih => ih.set hok _ _ hc (by omega)

/-! ### The four BUF commands (R87 to R91) -/

/-- Every element after the element-wise pass of the BUF commands. -/
theorem mixBlock_get {hw : Hardware} (hok : hw.ok = true) {c : Nat} (hc : c < hw.maxCh) (dst src : BufId) {len : Nat}
    (hlen : len ≤ hw.blkDepth) (f : Nat → Word → Word → Word) (m : Buffers) (b : BufId) {c' i' : Nat}
    (hc' : c' < hw.maxCh) (hi' : i' < hw.blkDepth) :
    (mixBlock hw c dst src len f m).get hw b c' i' =
      if b = dst ∧ c' = c ∧ i' < len then f i' (m.get hw dst c i') (m.get hw src c i') else m.get hw b c' i' := by
  refine setLoop_get hok hc dst hlen (fun i y => f i (y.get hw dst c i) (y.get hw src c i))
    (fun i => f i (m.get hw dst c i) (m.get hw src c i)) m ?_ b hc' hi'
  intro i hi y hy
  rw [hy dst c i hc (by omega) (by simp), hy src c i hc (by omega) (by simp)]

theorem mixBlock_byte (hw : Hardware) (c : Nat) (dst src : BufId) (len : Nat) (f : Nat → Word → Word → Word)
    (m : Buffers) {x : Nat} (hx : ∀ i < len, ∀ j < 4, x ≠ bufAddr hw dst c i + j) :
    (mixBlock hw c dst src len f m).byte x = m.byte x :=
  setLoop_byte hw c dst len (fun i y => f i (y.get hw dst c i) (y.get hw src c i)) m hx

/-! ### The read port (R74) -/

/-- Every element after the read port's pass. -/
theorem ringReadAddBlock_get {hw : Hardware} (hok : hw.ok = true) {c : Nat} (hc : c < hw.maxCh) (cap s : Nat)
    {len : Nat} (hlen : len ≤ hw.blkDepth) (dst : BufId) (a b : Word) (r : Ring) (m : Buffers) (b' : BufId)
    {c' i' : Nat} (hc' : c' < hw.maxCh) (hi' : i' < hw.blkDepth) :
    (ringReadAddBlock hw cap c s len dst a b r m).get hw b' c' i' =
      if b' = dst ∧ c' = c ∧ i' < len then
        addScaled (m.get hw dst c i') (ringGet hw r c (ringIndex cap s i')) a b i' len
      else m.get hw b' c' i' := by
  refine setLoop_get hok hc dst hlen
    (fun i y => addScaled (y.get hw dst c i) (ringGet hw r c (ringIndex cap s i)) a b i len)
    (fun i => addScaled (m.get hw dst c i) (ringGet hw r c (ringIndex cap s i)) a b i len) m ?_ b' hc' hi'
  intro i hi y hy
  show addScaled _ _ _ _ _ _ = _
  rw [hy dst c i hc (by omega) (by simp)]

theorem ringReadAddBlock_byte (hw : Hardware) (cap c s len : Nat) (dst : BufId) (a b : Word) (r : Ring) (m : Buffers)
    {x : Nat} (hx : ∀ i < len, ∀ j < 4, x ≠ bufAddr hw dst c i + j) :
    (ringReadAddBlock hw cap c s len dst a b r m).byte x = m.byte x :=
  setLoop_byte hw c dst len (fun i y => addScaled (y.get hw dst c i) (ringGet hw r c (ringIndex cap s i)) a b i len)
    m hx

/-! ### The write port (R70 to R72) -/

/-- The indices of one access are distinct: nothing is dropped or duplicated at the wrap (R70). -/
theorem ringIndex_inj {cap s i j : Nat} (hi : i < cap) (hj : j < cap) (h : ringIndex cap s i = ringIndex cap s j) :
    i = j := by
  have h' : i ≡ j [MOD cap] := Nat.ModEq.add_left_cancel' s h
  exact Nat.ModEq.eq_of_lt_of_lt h' hi hj

theorem ringIndex_lt {cap : Nat} (hcap : 0 < cap) (s i : Nat) : ringIndex cap s i < cap := Nat.mod_lt _ hcap

/-- Sample `i` stands at index `(s + i) mod cap` afterwards. -/
theorem ringWriteBlock_hit {hw : Hardware} {cap c s len : Nat} (hlen : len ≤ cap) (f : Nat → Word) (r : Ring) {i : Nat}
    (hi : i < len) : ringGet hw (ringWriteBlock hw cap c s len f r) c (ringIndex cap s i) = f i := by
  suffices h : ∀ i < len, ringGet hw (ringWriteBlock hw cap c s len f r) c (ringIndex cap s i) = f i from h i hi
  refine loop_induct (fun n (r : Ring) => ∀ i < n, ringGet hw r c (ringIndex cap s i) = f i) len (by simp) ?_
  intro k y hk ih i hi
  rw [ringGet_ringSet_index]
  by_cases h : i = k
  · subst h; simp
  · have : ringIndex cap s i ≠ ringIndex cap s k := fun he => h (ringIndex_inj (by omega) (by omega) he)
    rw [if_neg this]
    exact ih i (by omega)

/-- Every other element is unchanged. -/
theorem ringWriteBlock_miss {hw : Hardware} {cap c s len : Nat} (hcap : 0 < cap) (hdepth : cap ≤ hw.ringDepth)
    (f : Nat → Word) (r : Ring) {c' k : Nat} (hk : k < hw.ringDepth)
    (h : c' ≠ c ∨ ∀ i < len, ringIndex cap s i ≠ k) :
    ringGet hw (ringWriteBlock hw cap c s len f r) c' k = ringGet hw r c' k := by
  refine loop_induct (fun _ (y : Ring) => ringGet hw y c' k = ringGet hw r c' k) len rfl ?_
  intro i y hi ih
  have hidx : ringIndex cap s i < hw.ringDepth := lt_of_lt_of_le (ringIndex_lt hcap s i) hdepth
  rw [ringGet_ringSet_element y _ hidx hk, if_neg, ih]
  rintro ⟨h1, h2⟩
  rcases h with h | h
  · exact h h1
  · exact h i hi h2.symm

theorem ringWriteBlock_byte (hw : Hardware) (cap c s len : Nat) (f : Nat → Word) (r : Ring) {x : Nat}
    (hx : ∀ i < len, ∀ j < 4, x ≠ ringAddr hw c (ringIndex cap s i) + j) :
    ringByte hw (ringWriteBlock hw cap c s len f r) x = ringByte hw r x :=
  loop_induct (fun _ (y : Ring) => ringByte hw y x = ringByte hw r x) len rfl fun i _ hi ih =>
    (ringByte_ringSet_of_ne _ _ _ _ _ (hx i hi)).trans ih

/-- What the write port's pass keeps of the ring's own form. -/
theorem ringWriteBlock_form {hw : Hardware} (cap c s len : Nat) (f : Nat → Word) (r : Ring) :
    ((ringWriteBlock hw cap c s len f r).epoch = r.epoch ∧ (ringWriteBlock hw cap c s len f r).rows = r.rows ∧
      (ringWriteBlock hw cap c s len f r).width = r.width) ∧
      (RingForm hw r → RingForm hw (ringWriteBlock hw cap c s len f r)) ∧
      (0 < cap → cap = r.width → cap ≤ hw.ringDepth → c < r.rows → RingPlaced hw r →
        RingPlaced hw (ringWriteBlock hw cap c s len f r)) := by
  refine ⟨?_, fun h => ?_, fun hcap hw' hd hc h => ?_⟩
  · exact loop_induct (fun _ (y : Ring) => y.epoch = r.epoch ∧ y.rows = r.rows ∧ y.width = r.width) len
      ⟨rfl, rfl, rfl⟩ fun i y _ ih => ih
  · exact loop_induct (fun _ (y : Ring) => RingForm hw y) len h fun i y _ ih => ih.set _ _ _
  · have key : ((ringWriteBlock hw cap c s len f r).rows = r.rows ∧ (ringWriteBlock hw cap c s len f r).width = r.width) ∧
        RingPlaced hw (ringWriteBlock hw cap c s len f r) := by
      refine loop_induct (fun _ (y : Ring) => (y.rows = r.rows ∧ y.width = r.width) ∧ RingPlaced hw y) len
        ⟨⟨rfl, rfl⟩, h⟩ ?_
      rintro i y _ ⟨⟨h1, h2⟩, h3⟩
      refine ⟨⟨h1, h2⟩, h3.set _ (h1 ▸ hc) ?_ ?_⟩
      · rw [h2, ← hw']; exact ringIndex_lt hcap s i
      · rw [h2, ← hw']; exact hd
    exact key.2

/-! ### Decimation (R81, R82) -/

theorem holdIndex_le (rd i : Nat) : holdIndex rd i ≤ i := by unfold holdIndex; split <;> omega

/-- The index a sample is held from is its own hold index. -/
theorem holdIndex_idem (rd i : Nat) : holdIndex rd (holdIndex rd i) = holdIndex rd i := by
  unfold holdIndex
  split
  · have : (i - i % rd) % rd = 0 := Nat.sub_mod_eq_zero_of_mod_eq (by simp)
    omega
  · rfl

/-- One decimated sample, as one write: the quantized own sample, or what its hold index holds. -/
theorem decimateSample_eq_of_hold {hw : Hardware} {c : Nat} {b : BufId} {rd bd i : Nat} (m : Buffers)
    (h : 1 < rd ∧ i % rd ≠ 0) :
    decimateSample hw c b rd bd i m =
      (m.set hw b c i (quant hw.quantMode (m.get hw b c i) bd)).set hw b c i (m.get hw b c (i - i % rd)) := by
  have hne : i - i % rd ≠ i := by
    have := Nat.mod_le i rd
    omega
  unfold decimateSample
  rw [if_pos h, Buffers.get_set_index, if_neg hne]

theorem decimateSample_eq_of_no_hold {hw : Hardware} {c : Nat} {b : BufId} {rd bd i : Nat} (m : Buffers)
    (h : ¬ (1 < rd ∧ i % rd ≠ 0)) :
    decimateSample hw c b rd bd i m = m.set hw b c i (quant hw.quantMode (m.get hw b c i) bd) := by
  unfold decimateSample
  rw [if_neg h]

/-- The elements after one decimated sample (R81). -/
theorem decimateSample_get {hw : Hardware} (hok : hw.ok = true) {c : Nat} (hc : c < hw.maxCh) (b : BufId) (rd bd : Nat)
    {i : Nat} (hi : i < hw.blkDepth) (m : Buffers) (b' : BufId) {c' i' : Nat} (hc' : c' < hw.maxCh)
    (hi' : i' < hw.blkDepth) :
    (decimateSample hw c b rd bd i m).get hw b' c' i' =
      if b' = b ∧ c' = c ∧ i' = i then
        (if 1 < rd ∧ i % rd ≠ 0 then m.get hw b c (i - i % rd) else quant hw.quantMode (m.get hw b c i) bd)
      else m.get hw b' c' i' := by
  by_cases h : 1 < rd ∧ i % rd ≠ 0
  · rw [decimateSample_eq_of_hold m h, Buffers.get_set_element hok _ _ hc hi hc' hi',
      Buffers.get_set_element hok _ _ hc hi hc' hi', if_pos h]
    split <;> rfl
  · rw [decimateSample_eq_of_no_hold m h, Buffers.get_set_element hok _ _ hc hi hc' hi', if_neg h]

theorem decimateSample_byte (hw : Hardware) (c : Nat) (b : BufId) (rd bd i : Nat) (m : Buffers) {x : Nat}
    (hx : ∀ j < 4, x ≠ bufAddr hw b c i + j) : (decimateSample hw c b rd bd i m).byte x = m.byte x := by
  by_cases h : 1 < rd ∧ i % rd ≠ 0
  · rw [decimateSample_eq_of_hold m h, Buffers.byte_set_of_ne _ _ _ _ _ _ hx, Buffers.byte_set_of_ne _ _ _ _ _ _ hx]
  · rw [decimateSample_eq_of_no_hold m h, Buffers.byte_set_of_ne _ _ _ _ _ _ hx]

theorem decimateSample_form {hw : Hardware} (c : Nat) (b : BufId) (rd bd i : Nat) (m : Buffers) :
    (decimateSample hw c b rd bd i m).epoch = m.epoch ∧
      (m.cells.wf bufUnlisted = true → (decimateSample hw c b rd bd i m).cells.wf bufUnlisted = true) ∧
      (hw.ok = true → c < hw.maxCh → i < hw.blkDepth → BufPlaced hw m →
        BufPlaced hw (decimateSample hw c b rd bd i m)) := by
  by_cases h : 1 < rd ∧ i % rd ≠ 0
  · rw [decimateSample_eq_of_hold m h]
    exact ⟨rfl, fun hm => wf_set _ _ _ _ _ (wf_set _ _ _ _ _ hm),
      fun hok hc hi hm => (hm.set hok _ _ hc hi).set hok _ _ hc hi⟩
  · rw [decimateSample_eq_of_no_hold m h]
    exact ⟨rfl, fun hm => wf_set _ _ _ _ _ hm, fun hok hc hi hm => hm.set hok _ _ hc hi⟩

/-- The closed form of R82: every sample of the block becomes the quantized sample at its hold index. -/
theorem decimateBlock_get {hw : Hardware} (hok : hw.ok = true) {c : Nat} (hc : c < hw.maxCh) (b : BufId) {len : Nat}
    (hlen : len ≤ hw.blkDepth) (rd bd : Nat) (m : Buffers) (b' : BufId) {c' i' : Nat} (hc' : c' < hw.maxCh)
    (hi' : i' < hw.blkDepth) :
    (decimateBlock hw c b len rd bd m).get hw b' c' i' =
      if b' = b ∧ c' = c ∧ i' < len then quant hw.quantMode (m.get hw b c (holdIndex rd i')) bd
      else m.get hw b' c' i' := by
  suffices h : ∀ b' c' i', c' < hw.maxCh → i' < hw.blkDepth →
      (decimateBlock hw c b len rd bd m).get hw b' c' i' =
        if b' = b ∧ c' = c ∧ i' < len then quant hw.quantMode (m.get hw b c (holdIndex rd i')) bd
        else m.get hw b' c' i' from h b' c' i' hc' hi'
  refine loop_induct (fun n (y : Buffers) => ∀ b' c' i', c' < hw.maxCh → i' < hw.blkDepth →
    y.get hw b' c' i' = if b' = b ∧ c' = c ∧ i' < n then quant hw.quantMode (m.get hw b c (holdIndex rd i')) bd
      else m.get hw b' c' i') len ?_ ?_
  · intro b' c' i' _ _; simp
  · intro i y hi ih b' c' i' hc' hi'
    rw [decimateSample_get hok hc b rd bd (by omega) y b' hc' hi', ih b' c' i' hc' hi']
    by_cases h : b' = b ∧ c' = c ∧ i' = i
    · obtain ⟨rfl, rfl, rfl⟩ := h
      simp only [and_self, if_true, Nat.lt_succ_self]
      by_cases hh : 1 < rd ∧ i' % rd ≠ 0
      · rw [if_pos hh]
        have hlt : i' - i' % rd < i' := by
          have := Nat.mod_le i' rd
          omega
        rw [ih b' c' (i' - i' % rd) hc' (by omega), if_pos ⟨rfl, rfl, hlt⟩]
        have h1 : holdIndex rd i' = i' - i' % rd := by unfold holdIndex; rw [if_pos hh.1]
        rw [← h1, holdIndex_idem]
      · rw [if_neg hh, ih b' c' i' hc' hi', if_neg (by simp)]
        have h1 : holdIndex rd i' = i' := by
          unfold holdIndex
          split
          · rename_i h2
            have : i' % rd = 0 := by
              by_contra h3
              exact hh ⟨h2, h3⟩
            omega
          · rfl
        rw [h1]
    · rw [if_neg h]
      have : (b' = b ∧ c' = c ∧ i' < i + 1) ↔ (b' = b ∧ c' = c ∧ i' < i) := by
        constructor
        · rintro ⟨h1, h2, h3⟩
          refine ⟨h1, h2, ?_⟩
          have : i' ≠ i := fun he => h ⟨h1, h2, he⟩
          omega
        · rintro ⟨h1, h2, h3⟩
          exact ⟨h1, h2, by omega⟩
      simp only [this]

theorem decimateBlock_byte (hw : Hardware) (c : Nat) (b : BufId) (len rd bd : Nat) (m : Buffers) {x : Nat}
    (hx : ∀ i < len, ∀ j < 4, x ≠ bufAddr hw b c i + j) : (decimateBlock hw c b len rd bd m).byte x = m.byte x :=
  loop_induct (fun _ (y : Buffers) => y.byte x = m.byte x) len rfl fun i _ hi ih =>
    (decimateSample_byte _ _ _ _ _ _ _ (hx i hi)).trans ih

theorem decimateBlock_form {hw : Hardware} (c : Nat) (b : BufId) (len rd bd : Nat) (m : Buffers) :
    (decimateBlock hw c b len rd bd m).epoch = m.epoch ∧
      (m.cells.wf bufUnlisted = true → (decimateBlock hw c b len rd bd m).cells.wf bufUnlisted = true) ∧
      (hw.ok = true → c < hw.maxCh → len ≤ hw.blkDepth → BufPlaced hw m →
        BufPlaced hw (decimateBlock hw c b len rd bd m)) := by
  refine ⟨?_, fun h => ?_, fun hok hc hlen h => ?_⟩
  · exact loop_induct (fun _ (y : Buffers) => y.epoch = m.epoch) len rfl fun i y _ ih =>
      (decimateSample_form c b rd bd i y).1.trans ih
  · exact loop_induct (fun _ (y : Buffers) => y.cells.wf bufUnlisted = true) len h fun i y _ ih =>
      (decimateSample_form c b rd bd i y).2.1 ih
  · exact loop_induct (fun _ (y : Buffers) => BufPlaced hw y) len h fun i y hi ih =>
      (decimateSample_form c b rd bd i y).2.2 hok hc (by omega) ih

end Sys2Proof.Machine
end

