-- ==== Sys2Proof/Laws/State.lean ====
section
/-! SUPPORT. Every field of the state after every named update of it. -/

namespace Sys2Proof.Machine

variable (s : State)

@[simp] theorem State.setRing_hw (r : Ring) : (s.setRing r).hw = s.hw := rfl
@[simp] theorem State.setRing_prepared (r : Ring) : (s.setRing r).prepared = s.prepared := rfl
@[simp] theorem State.setRing_sr (r : Ring) : (s.setRing r).sr = s.sr := rfl
@[simp] theorem State.setRing_cap (r : Ring) : (s.setRing r).cap = s.cap := rfl
@[simp] theorem State.setRing_nch (r : Ring) : (s.setRing r).nch = s.nch := rfl
@[simp] theorem State.setRing_maxblk (r : Ring) : (s.setRing r).maxblk = s.maxblk := rfl
@[simp] theorem State.setRing_wcur (r : Ring) : (s.setRing r).wcur = s.wcur := rfl
@[simp] theorem State.setRing_pcur (r : Ring) : (s.setRing r).pcur = s.pcur := rfl
@[simp] theorem State.setRing_pdef (r : Ring) : (s.setRing r).pdef = s.pdef := rfl
@[simp] theorem State.setRing_last (r : Ring) : (s.setRing r).last = s.last := rfl
@[simp] theorem State.setRing_arg (r : Ring) : (s.setRing r).arg = s.arg := rfl
@[simp] theorem State.setRing_res (r : Ring) : (s.setRing r).res = s.res := rfl
@[simp] theorem State.setRing_lasterr (r : Ring) : (s.setRing r).lasterr = s.lasterr := rfl
@[simp] theorem State.setRing_faultlog (r : Ring) : (s.setRing r).faultlog = s.faultlog := rfl
@[simp] theorem State.setRing_ring (r : Ring) : (s.setRing r).ring = r := rfl
@[simp] theorem State.setRing_buf (r : Ring) : (s.setRing r).buf = s.buf := rfl
@[simp] theorem State.setRing_readData (r : Ring) : (s.setRing r).readData = s.readData := rfl
@[simp] theorem State.setRing_inbox (r : Ring) : (s.setRing r).inbox = s.inbox := rfl

@[simp] theorem State.setBuf_hw (m : Buffers) : (s.setBuf m).hw = s.hw := rfl
@[simp] theorem State.setBuf_prepared (m : Buffers) : (s.setBuf m).prepared = s.prepared := rfl
@[simp] theorem State.setBuf_sr (m : Buffers) : (s.setBuf m).sr = s.sr := rfl
@[simp] theorem State.setBuf_cap (m : Buffers) : (s.setBuf m).cap = s.cap := rfl
@[simp] theorem State.setBuf_nch (m : Buffers) : (s.setBuf m).nch = s.nch := rfl
@[simp] theorem State.setBuf_maxblk (m : Buffers) : (s.setBuf m).maxblk = s.maxblk := rfl
@[simp] theorem State.setBuf_wcur (m : Buffers) : (s.setBuf m).wcur = s.wcur := rfl
@[simp] theorem State.setBuf_pcur (m : Buffers) : (s.setBuf m).pcur = s.pcur := rfl
@[simp] theorem State.setBuf_pdef (m : Buffers) : (s.setBuf m).pdef = s.pdef := rfl
@[simp] theorem State.setBuf_last (m : Buffers) : (s.setBuf m).last = s.last := rfl
@[simp] theorem State.setBuf_arg (m : Buffers) : (s.setBuf m).arg = s.arg := rfl
@[simp] theorem State.setBuf_res (m : Buffers) : (s.setBuf m).res = s.res := rfl
@[simp] theorem State.setBuf_lasterr (m : Buffers) : (s.setBuf m).lasterr = s.lasterr := rfl
@[simp] theorem State.setBuf_faultlog (m : Buffers) : (s.setBuf m).faultlog = s.faultlog := rfl
@[simp] theorem State.setBuf_ring (m : Buffers) : (s.setBuf m).ring = s.ring := rfl
@[simp] theorem State.setBuf_buf (m : Buffers) : (s.setBuf m).buf = m := rfl
@[simp] theorem State.setBuf_readData (m : Buffers) : (s.setBuf m).readData = s.readData := rfl
@[simp] theorem State.setBuf_inbox (m : Buffers) : (s.setBuf m).inbox = s.inbox := rfl

@[simp] theorem State.setWcur_hw (n : Nat) : (s.setWcur n).hw = s.hw := rfl
@[simp] theorem State.setWcur_prepared (n : Nat) : (s.setWcur n).prepared = s.prepared := rfl
@[simp] theorem State.setWcur_sr (n : Nat) : (s.setWcur n).sr = s.sr := rfl
@[simp] theorem State.setWcur_cap (n : Nat) : (s.setWcur n).cap = s.cap := rfl
@[simp] theorem State.setWcur_nch (n : Nat) : (s.setWcur n).nch = s.nch := rfl
@[simp] theorem State.setWcur_maxblk (n : Nat) : (s.setWcur n).maxblk = s.maxblk := rfl
@[simp] theorem State.setWcur_wcur (n : Nat) : (s.setWcur n).wcur = BitVec.ofNat 32 n := rfl
@[simp] theorem State.setWcur_pcur (n : Nat) : (s.setWcur n).pcur = s.pcur := rfl
@[simp] theorem State.setWcur_pdef (n : Nat) : (s.setWcur n).pdef = s.pdef := rfl
@[simp] theorem State.setWcur_last (n : Nat) : (s.setWcur n).last = s.last := rfl
@[simp] theorem State.setWcur_arg (n : Nat) : (s.setWcur n).arg = s.arg := rfl
@[simp] theorem State.setWcur_res (n : Nat) : (s.setWcur n).res = s.res := rfl
@[simp] theorem State.setWcur_lasterr (n : Nat) : (s.setWcur n).lasterr = s.lasterr := rfl
@[simp] theorem State.setWcur_faultlog (n : Nat) : (s.setWcur n).faultlog = s.faultlog := rfl
@[simp] theorem State.setWcur_ring (n : Nat) : (s.setWcur n).ring = s.ring := rfl
@[simp] theorem State.setWcur_buf (n : Nat) : (s.setWcur n).buf = s.buf := rfl
@[simp] theorem State.setWcur_readData (n : Nat) : (s.setWcur n).readData = s.readData := rfl
@[simp] theorem State.setWcur_inbox (n : Nat) : (s.setWcur n).inbox = s.inbox := rfl

@[simp] theorem State.setLast_hw (g : Gains) : (s.setLast g).hw = s.hw := rfl
@[simp] theorem State.setLast_prepared (g : Gains) : (s.setLast g).prepared = s.prepared := rfl
@[simp] theorem State.setLast_sr (g : Gains) : (s.setLast g).sr = s.sr := rfl
@[simp] theorem State.setLast_cap (g : Gains) : (s.setLast g).cap = s.cap := rfl
@[simp] theorem State.setLast_nch (g : Gains) : (s.setLast g).nch = s.nch := rfl
@[simp] theorem State.setLast_maxblk (g : Gains) : (s.setLast g).maxblk = s.maxblk := rfl
@[simp] theorem State.setLast_wcur (g : Gains) : (s.setLast g).wcur = s.wcur := rfl
@[simp] theorem State.setLast_pcur (g : Gains) : (s.setLast g).pcur = s.pcur := rfl
@[simp] theorem State.setLast_pdef (g : Gains) : (s.setLast g).pdef = s.pdef := rfl
@[simp] theorem State.setLast_last (g : Gains) : (s.setLast g).last = g := rfl
@[simp] theorem State.setLast_arg (g : Gains) : (s.setLast g).arg = s.arg := rfl
@[simp] theorem State.setLast_res (g : Gains) : (s.setLast g).res = s.res := rfl
@[simp] theorem State.setLast_lasterr (g : Gains) : (s.setLast g).lasterr = s.lasterr := rfl
@[simp] theorem State.setLast_faultlog (g : Gains) : (s.setLast g).faultlog = s.faultlog := rfl
@[simp] theorem State.setLast_ring (g : Gains) : (s.setLast g).ring = s.ring := rfl
@[simp] theorem State.setLast_buf (g : Gains) : (s.setLast g).buf = s.buf := rfl
@[simp] theorem State.setLast_readData (g : Gains) : (s.setLast g).readData = s.readData := rfl
@[simp] theorem State.setLast_inbox (g : Gains) : (s.setLast g).inbox = s.inbox := rfl

@[simp] theorem State.setPcur_hw (i : Fin 5) (v : Word) : (s.setPcur i v).hw = s.hw := rfl
@[simp] theorem State.setPcur_prepared (i : Fin 5) (v : Word) : (s.setPcur i v).prepared = s.prepared := rfl
@[simp] theorem State.setPcur_sr (i : Fin 5) (v : Word) : (s.setPcur i v).sr = s.sr := rfl
@[simp] theorem State.setPcur_cap (i : Fin 5) (v : Word) : (s.setPcur i v).cap = s.cap := rfl
@[simp] theorem State.setPcur_nch (i : Fin 5) (v : Word) : (s.setPcur i v).nch = s.nch := rfl
@[simp] theorem State.setPcur_maxblk (i : Fin 5) (v : Word) : (s.setPcur i v).maxblk = s.maxblk := rfl
@[simp] theorem State.setPcur_wcur (i : Fin 5) (v : Word) : (s.setPcur i v).wcur = s.wcur := rfl
@[simp] theorem State.setPcur_pcur (i : Fin 5) (v : Word) : (s.setPcur i v).pcur = paramSet s.pcur i v := rfl
@[simp] theorem State.setPcur_pdef (i : Fin 5) (v : Word) : (s.setPcur i v).pdef = s.pdef := rfl
@[simp] theorem State.setPcur_last (i : Fin 5) (v : Word) : (s.setPcur i v).last = s.last := rfl
@[simp] theorem State.setPcur_arg (i : Fin 5) (v : Word) : (s.setPcur i v).arg = s.arg := rfl
@[simp] theorem State.setPcur_res (i : Fin 5) (v : Word) : (s.setPcur i v).res = s.res := rfl
@[simp] theorem State.setPcur_lasterr (i : Fin 5) (v : Word) : (s.setPcur i v).lasterr = s.lasterr := rfl
@[simp] theorem State.setPcur_faultlog (i : Fin 5) (v : Word) : (s.setPcur i v).faultlog = s.faultlog := rfl
@[simp] theorem State.setPcur_ring (i : Fin 5) (v : Word) : (s.setPcur i v).ring = s.ring := rfl
@[simp] theorem State.setPcur_buf (i : Fin 5) (v : Word) : (s.setPcur i v).buf = s.buf := rfl
@[simp] theorem State.setPcur_readData (i : Fin 5) (v : Word) : (s.setPcur i v).readData = s.readData := rfl
@[simp] theorem State.setPcur_inbox (i : Fin 5) (v : Word) : (s.setPcur i v).inbox = s.inbox := rfl

@[simp] theorem State.setArg_hw (k : Fin 4) (v : Word) : (s.setArg k v).hw = s.hw := rfl
@[simp] theorem State.setArg_prepared (k : Fin 4) (v : Word) : (s.setArg k v).prepared = s.prepared := rfl
@[simp] theorem State.setArg_sr (k : Fin 4) (v : Word) : (s.setArg k v).sr = s.sr := rfl
@[simp] theorem State.setArg_cap (k : Fin 4) (v : Word) : (s.setArg k v).cap = s.cap := rfl
@[simp] theorem State.setArg_nch (k : Fin 4) (v : Word) : (s.setArg k v).nch = s.nch := rfl
@[simp] theorem State.setArg_maxblk (k : Fin 4) (v : Word) : (s.setArg k v).maxblk = s.maxblk := rfl
@[simp] theorem State.setArg_wcur (k : Fin 4) (v : Word) : (s.setArg k v).wcur = s.wcur := rfl
@[simp] theorem State.setArg_pcur (k : Fin 4) (v : Word) : (s.setArg k v).pcur = s.pcur := rfl
@[simp] theorem State.setArg_pdef (k : Fin 4) (v : Word) : (s.setArg k v).pdef = s.pdef := rfl
@[simp] theorem State.setArg_last (k : Fin 4) (v : Word) : (s.setArg k v).last = s.last := rfl
@[simp] theorem State.setArg_arg (k : Fin 4) (v : Word) : (s.setArg k v).arg = s.arg.set k v := rfl
@[simp] theorem State.setArg_res (k : Fin 4) (v : Word) : (s.setArg k v).res = s.res := rfl
@[simp] theorem State.setArg_lasterr (k : Fin 4) (v : Word) : (s.setArg k v).lasterr = s.lasterr := rfl
@[simp] theorem State.setArg_faultlog (k : Fin 4) (v : Word) : (s.setArg k v).faultlog = s.faultlog := rfl
@[simp] theorem State.setArg_ring (k : Fin 4) (v : Word) : (s.setArg k v).ring = s.ring := rfl
@[simp] theorem State.setArg_buf (k : Fin 4) (v : Word) : (s.setArg k v).buf = s.buf := rfl
@[simp] theorem State.setArg_readData (k : Fin 4) (v : Word) : (s.setArg k v).readData = s.readData := rfl
@[simp] theorem State.setArg_inbox (k : Fin 4) (v : Word) : (s.setArg k v).inbox = s.inbox := rfl

@[simp] theorem State.setRes_hw (r : Results) : (s.setRes r).hw = s.hw := rfl
@[simp] theorem State.setRes_prepared (r : Results) : (s.setRes r).prepared = s.prepared := rfl
@[simp] theorem State.setRes_sr (r : Results) : (s.setRes r).sr = s.sr := rfl
@[simp] theorem State.setRes_cap (r : Results) : (s.setRes r).cap = s.cap := rfl
@[simp] theorem State.setRes_nch (r : Results) : (s.setRes r).nch = s.nch := rfl
@[simp] theorem State.setRes_maxblk (r : Results) : (s.setRes r).maxblk = s.maxblk := rfl
@[simp] theorem State.setRes_wcur (r : Results) : (s.setRes r).wcur = s.wcur := rfl
@[simp] theorem State.setRes_pcur (r : Results) : (s.setRes r).pcur = s.pcur := rfl
@[simp] theorem State.setRes_pdef (r : Results) : (s.setRes r).pdef = s.pdef := rfl
@[simp] theorem State.setRes_last (r : Results) : (s.setRes r).last = s.last := rfl
@[simp] theorem State.setRes_arg (r : Results) : (s.setRes r).arg = s.arg := rfl
@[simp] theorem State.setRes_res (r : Results) : (s.setRes r).res = r := rfl
@[simp] theorem State.setRes_lasterr (r : Results) : (s.setRes r).lasterr = s.lasterr := rfl
@[simp] theorem State.setRes_faultlog (r : Results) : (s.setRes r).faultlog = s.faultlog := rfl
@[simp] theorem State.setRes_ring (r : Results) : (s.setRes r).ring = s.ring := rfl
@[simp] theorem State.setRes_buf (r : Results) : (s.setRes r).buf = s.buf := rfl
@[simp] theorem State.setRes_readData (r : Results) : (s.setRes r).readData = s.readData := rfl
@[simp] theorem State.setRes_inbox (r : Results) : (s.setRes r).inbox = s.inbox := rfl

@[simp] theorem State.setReadData_hw (w : Word) : (s.setReadData w).hw = s.hw := rfl
@[simp] theorem State.setReadData_prepared (w : Word) : (s.setReadData w).prepared = s.prepared := rfl
@[simp] theorem State.setReadData_sr (w : Word) : (s.setReadData w).sr = s.sr := rfl
@[simp] theorem State.setReadData_cap (w : Word) : (s.setReadData w).cap = s.cap := rfl
@[simp] theorem State.setReadData_nch (w : Word) : (s.setReadData w).nch = s.nch := rfl
@[simp] theorem State.setReadData_maxblk (w : Word) : (s.setReadData w).maxblk = s.maxblk := rfl
@[simp] theorem State.setReadData_wcur (w : Word) : (s.setReadData w).wcur = s.wcur := rfl
@[simp] theorem State.setReadData_pcur (w : Word) : (s.setReadData w).pcur = s.pcur := rfl
@[simp] theorem State.setReadData_pdef (w : Word) : (s.setReadData w).pdef = s.pdef := rfl
@[simp] theorem State.setReadData_last (w : Word) : (s.setReadData w).last = s.last := rfl
@[simp] theorem State.setReadData_arg (w : Word) : (s.setReadData w).arg = s.arg := rfl
@[simp] theorem State.setReadData_res (w : Word) : (s.setReadData w).res = s.res := rfl
@[simp] theorem State.setReadData_lasterr (w : Word) : (s.setReadData w).lasterr = s.lasterr := rfl
@[simp] theorem State.setReadData_faultlog (w : Word) : (s.setReadData w).faultlog = s.faultlog := rfl
@[simp] theorem State.setReadData_ring (w : Word) : (s.setReadData w).ring = s.ring := rfl
@[simp] theorem State.setReadData_buf (w : Word) : (s.setReadData w).buf = s.buf := rfl
@[simp] theorem State.setReadData_readData (w : Word) : (s.setReadData w).readData = some w := rfl
@[simp] theorem State.setReadData_inbox (w : Word) : (s.setReadData w).inbox = s.inbox := rfl

@[simp] theorem State.setInbox_hw (l : List Action) : (s.setInbox l).hw = s.hw := rfl
@[simp] theorem State.setInbox_prepared (l : List Action) : (s.setInbox l).prepared = s.prepared := rfl
@[simp] theorem State.setInbox_sr (l : List Action) : (s.setInbox l).sr = s.sr := rfl
@[simp] theorem State.setInbox_cap (l : List Action) : (s.setInbox l).cap = s.cap := rfl
@[simp] theorem State.setInbox_nch (l : List Action) : (s.setInbox l).nch = s.nch := rfl
@[simp] theorem State.setInbox_maxblk (l : List Action) : (s.setInbox l).maxblk = s.maxblk := rfl
@[simp] theorem State.setInbox_wcur (l : List Action) : (s.setInbox l).wcur = s.wcur := rfl
@[simp] theorem State.setInbox_pcur (l : List Action) : (s.setInbox l).pcur = s.pcur := rfl
@[simp] theorem State.setInbox_pdef (l : List Action) : (s.setInbox l).pdef = s.pdef := rfl
@[simp] theorem State.setInbox_last (l : List Action) : (s.setInbox l).last = s.last := rfl
@[simp] theorem State.setInbox_arg (l : List Action) : (s.setInbox l).arg = s.arg := rfl
@[simp] theorem State.setInbox_res (l : List Action) : (s.setInbox l).res = s.res := rfl
@[simp] theorem State.setInbox_lasterr (l : List Action) : (s.setInbox l).lasterr = s.lasterr := rfl
@[simp] theorem State.setInbox_faultlog (l : List Action) : (s.setInbox l).faultlog = s.faultlog := rfl
@[simp] theorem State.setInbox_ring (l : List Action) : (s.setInbox l).ring = s.ring := rfl
@[simp] theorem State.setInbox_buf (l : List Action) : (s.setInbox l).buf = s.buf := rfl
@[simp] theorem State.setInbox_readData (l : List Action) : (s.setInbox l).readData = s.readData := rfl
@[simp] theorem State.setInbox_inbox (l : List Action) : (s.setInbox l).inbox = l := rfl

@[simp] theorem State.configure_hw (sr cap nch maxblk : Word) : (s.configure sr cap nch maxblk).hw = s.hw := rfl
@[simp] theorem State.configure_prepared (sr cap nch maxblk : Word) : (s.configure sr cap nch maxblk).prepared = true := rfl
@[simp] theorem State.configure_sr (sr cap nch maxblk : Word) : (s.configure sr cap nch maxblk).sr = sr := rfl
@[simp] theorem State.configure_cap (sr cap nch maxblk : Word) : (s.configure sr cap nch maxblk).cap = cap := rfl
@[simp] theorem State.configure_nch (sr cap nch maxblk : Word) : (s.configure sr cap nch maxblk).nch = nch := rfl
@[simp] theorem State.configure_maxblk (sr cap nch maxblk : Word) : (s.configure sr cap nch maxblk).maxblk = maxblk := rfl
@[simp] theorem State.configure_wcur (sr cap nch maxblk : Word) : (s.configure sr cap nch maxblk).wcur = 0#32 := rfl
@[simp] theorem State.configure_pcur (sr cap nch maxblk : Word) : (s.configure sr cap nch maxblk).pcur = s.pcur := rfl
@[simp] theorem State.configure_pdef (sr cap nch maxblk : Word) : (s.configure sr cap nch maxblk).pdef = s.pdef := rfl
@[simp] theorem State.configure_last (sr cap nch maxblk : Word) : (s.configure sr cap nch maxblk).last = s.last := rfl
@[simp] theorem State.configure_arg (sr cap nch maxblk : Word) : (s.configure sr cap nch maxblk).arg = s.arg := rfl
@[simp] theorem State.configure_res (sr cap nch maxblk : Word) : (s.configure sr cap nch maxblk).res = s.res := rfl
@[simp] theorem State.configure_lasterr (sr cap nch maxblk : Word) : (s.configure sr cap nch maxblk).lasterr = s.lasterr := rfl
@[simp] theorem State.configure_faultlog (sr cap nch maxblk : Word) : (s.configure sr cap nch maxblk).faultlog = s.faultlog := rfl
@[simp] theorem State.configure_ring (sr cap nch maxblk : Word) : (s.configure sr cap nch maxblk).ring = s.ring := rfl
@[simp] theorem State.configure_buf (sr cap nch maxblk : Word) : (s.configure sr cap nch maxblk).buf = s.buf := rfl
@[simp] theorem State.configure_readData (sr cap nch maxblk : Word) : (s.configure sr cap nch maxblk).readData = s.readData := rfl
@[simp] theorem State.configure_inbox (sr cap nch maxblk : Word) : (s.configure sr cap nch maxblk).inbox = s.inbox := rfl

@[simp] theorem State.unprepare_hw : (s.unprepare).hw = s.hw := rfl
@[simp] theorem State.unprepare_prepared : (s.unprepare).prepared = false := rfl
@[simp] theorem State.unprepare_sr : (s.unprepare).sr = 0#32 := rfl
@[simp] theorem State.unprepare_cap : (s.unprepare).cap = 0#32 := rfl
@[simp] theorem State.unprepare_nch : (s.unprepare).nch = 0#32 := rfl
@[simp] theorem State.unprepare_maxblk : (s.unprepare).maxblk = 0#32 := rfl
@[simp] theorem State.unprepare_wcur : (s.unprepare).wcur = 0#32 := rfl
@[simp] theorem State.unprepare_pcur : (s.unprepare).pcur = s.pcur := rfl
@[simp] theorem State.unprepare_pdef : (s.unprepare).pdef = s.pdef := rfl
@[simp] theorem State.unprepare_last : (s.unprepare).last = s.last := rfl
@[simp] theorem State.unprepare_arg : (s.unprepare).arg = s.arg := rfl
@[simp] theorem State.unprepare_res : (s.unprepare).res = s.res := rfl
@[simp] theorem State.unprepare_lasterr : (s.unprepare).lasterr = s.lasterr := rfl
@[simp] theorem State.unprepare_faultlog : (s.unprepare).faultlog = s.faultlog := rfl
@[simp] theorem State.unprepare_ring : (s.unprepare).ring = ringLose s.ring := rfl
@[simp] theorem State.unprepare_buf : (s.unprepare).buf = s.buf := rfl
@[simp] theorem State.unprepare_readData : (s.unprepare).readData = s.readData := rfl
@[simp] theorem State.unprepare_inbox : (s.unprepare).inbox = s.inbox := rfl

@[simp] theorem State.raise_hw (k : ErrCode) : (s.raise k).hw = s.hw := rfl
@[simp] theorem State.raise_prepared (k : ErrCode) : (s.raise k).prepared = s.prepared := rfl
@[simp] theorem State.raise_sr (k : ErrCode) : (s.raise k).sr = s.sr := rfl
@[simp] theorem State.raise_cap (k : ErrCode) : (s.raise k).cap = s.cap := rfl
@[simp] theorem State.raise_nch (k : ErrCode) : (s.raise k).nch = s.nch := rfl
@[simp] theorem State.raise_maxblk (k : ErrCode) : (s.raise k).maxblk = s.maxblk := rfl
@[simp] theorem State.raise_wcur (k : ErrCode) : (s.raise k).wcur = s.wcur := rfl
@[simp] theorem State.raise_pcur (k : ErrCode) : (s.raise k).pcur = s.pcur := rfl
@[simp] theorem State.raise_pdef (k : ErrCode) : (s.raise k).pdef = s.pdef := rfl
@[simp] theorem State.raise_last (k : ErrCode) : (s.raise k).last = s.last := rfl
@[simp] theorem State.raise_arg (k : ErrCode) : (s.raise k).arg = s.arg := rfl
@[simp] theorem State.raise_res (k : ErrCode) : (s.raise k).res = s.res := rfl
@[simp] theorem State.raise_lasterr (k : ErrCode) : (s.raise k).lasterr = errByte k := rfl
@[simp] theorem State.raise_faultlog (k : ErrCode) : (s.raise k).faultlog = logged k s.faultlog := rfl
@[simp] theorem State.raise_ring (k : ErrCode) : (s.raise k).ring = s.ring := rfl
@[simp] theorem State.raise_buf (k : ErrCode) : (s.raise k).buf = s.buf := rfl
@[simp] theorem State.raise_readData (k : ErrCode) : (s.raise k).readData = s.readData := rfl
@[simp] theorem State.raise_inbox (k : ErrCode) : (s.raise k).inbox = s.inbox := rfl

@[simp] theorem State.complete_hw : (s.complete).hw = s.hw := rfl
@[simp] theorem State.complete_prepared : (s.complete).prepared = s.prepared := rfl
@[simp] theorem State.complete_sr : (s.complete).sr = s.sr := rfl
@[simp] theorem State.complete_cap : (s.complete).cap = s.cap := rfl
@[simp] theorem State.complete_nch : (s.complete).nch = s.nch := rfl
@[simp] theorem State.complete_maxblk : (s.complete).maxblk = s.maxblk := rfl
@[simp] theorem State.complete_wcur : (s.complete).wcur = s.wcur := rfl
@[simp] theorem State.complete_pcur : (s.complete).pcur = s.pcur := rfl
@[simp] theorem State.complete_pdef : (s.complete).pdef = s.pdef := rfl
@[simp] theorem State.complete_last : (s.complete).last = s.last := rfl
@[simp] theorem State.complete_arg : (s.complete).arg = s.arg := rfl
@[simp] theorem State.complete_res : (s.complete).res = s.res := rfl
@[simp] theorem State.complete_lasterr : (s.complete).lasterr = 0#8 := rfl
@[simp] theorem State.complete_faultlog : (s.complete).faultlog = s.faultlog := rfl
@[simp] theorem State.complete_ring : (s.complete).ring = s.ring := rfl
@[simp] theorem State.complete_buf : (s.complete).buf = s.buf := rfl
@[simp] theorem State.complete_readData : (s.complete).readData = s.readData := rfl
@[simp] theorem State.complete_inbox : (s.complete).inbox = s.inbox := rfl

@[simp] theorem State.accessError_hw : (s.accessError).hw = s.hw := rfl
@[simp] theorem State.accessError_prepared : (s.accessError).prepared = s.prepared := rfl
@[simp] theorem State.accessError_sr : (s.accessError).sr = s.sr := rfl
@[simp] theorem State.accessError_cap : (s.accessError).cap = s.cap := rfl
@[simp] theorem State.accessError_nch : (s.accessError).nch = s.nch := rfl
@[simp] theorem State.accessError_maxblk : (s.accessError).maxblk = s.maxblk := rfl
@[simp] theorem State.accessError_wcur : (s.accessError).wcur = s.wcur := rfl
@[simp] theorem State.accessError_pcur : (s.accessError).pcur = s.pcur := rfl
@[simp] theorem State.accessError_pdef : (s.accessError).pdef = s.pdef := rfl
@[simp] theorem State.accessError_last : (s.accessError).last = s.last := rfl
@[simp] theorem State.accessError_arg : (s.accessError).arg = s.arg := rfl
@[simp] theorem State.accessError_res : (s.accessError).res = s.res := rfl
@[simp] theorem State.accessError_lasterr : (s.accessError).lasterr = s.lasterr := rfl
@[simp] theorem State.accessError_faultlog : (s.accessError).faultlog = logged .bus s.faultlog := rfl
@[simp] theorem State.accessError_ring : (s.accessError).ring = s.ring := rfl
@[simp] theorem State.accessError_buf : (s.accessError).buf = s.buf := rfl
@[simp] theorem State.accessError_readData : (s.accessError).readData = s.readData := rfl
@[simp] theorem State.accessError_inbox : (s.accessError).inbox = s.inbox := rfl

end Sys2Proof.Machine
end

