-- ==== Sys2Proof/Laws/Ops.lean ====
section
/-! SUPPORT. How commands end: what each list of checks reports (`60_exceptions.md` R121), and what a command answers once it
is known. -/

namespace Sys2Proof.Machine

/-! ### Faults (R118) -/

theorem raise_notPrepared (s : State) : s.raise .notPrepared = faulted 2 s := rfl

theorem raise_badArg (s : State) : s.raise .badArg = faulted 3 s := rfl

theorem raise_rateUndef (s : State) : s.raise .rateUndef = faulted 4 s := rfl

theorem raise_alloc (s : State) : s.raise .alloc = faulted 5 s := rfl

theorem raise_illegalCmd (s : State) : s.raise .illegalCmd = faulted 1 s := rfl

theorem accessError_eq (s : State) : s.accessError = { s with faultlog := s.faultlog ||| 0x40#32 } := rfl

theorem complete_eq (s : State) : s.complete = { s with lasterr := 0#8 } := rfl

/-- FAULTLOG only gains bits. -/
theorem logged_and_self (k : ErrCode) (log : Word) : logged k log &&& log = log := by
  unfold logged
  ext i
  simp
  tauto

/-! ### Checks -/

@[simp] theorem firstFault_nil : firstFault [] = none := rfl

@[simp] theorem firstFault_cons (v : Bool) (k : ErrCode) (rest : List (Bool × ErrCode)) :
    firstFault ((v, k) :: rest) = if v then some k else firstFault rest := rfl

/-- A command whose checks report a fault takes it. -/
theorem runCommand_fault {checks : List (Bool × ErrCode)} {k : ErrCode} (effect : State → State) (s : State)
    (h : firstFault checks = some k) : runCommand checks effect s = .next (s.raise k) := by
  unfold runCommand; rw [h]

/-- A command whose checks pass has its effect and completes. -/
theorem runCommand_pass {checks : List (Bool × ErrCode)} (effect : State → State) (s : State)
    (h : firstFault checks = none) : runCommand checks effect s = .next (effect s).complete := by
  unfold runCommand; rw [h]

@[simp] theorem runCommand_unchecked (effect : State → State) (s : State) :
    runCommand [] effect s = .next (effect s).complete := rfl

/-- Everything one checked command can do. -/
theorem runCommand_cases {checks : List (Bool × ErrCode)} {effect : State → State} {s t : State}
    (h : runCommand checks effect s = .next t) :
    (∃ k, firstFault checks = some k ∧ t = s.raise k) ∨ (firstFault checks = none ∧ t = (effect s).complete) := by
  unfold runCommand at h
  cases hf : firstFault checks with
  | some k =>
    rw [hf] at h
    exact .inl ⟨k, rfl, (Host.Outcome.next.inj h).symm⟩
  | none =>
    rw [hf] at h
    exact .inr ⟨rfl, (Host.Outcome.next.inj h).symm⟩

theorem firstFault_ringChecks (s : State) (c : Nat) :
    firstFault (ringChecks s c) =
      if s.prepared = false then some .notPrepared
      else if u s.nch ≤ c ∨ u s.cap ≤ u s.arg.a0 ∨ u s.cap < u s.arg.a1 ∨ u s.maxblk < u s.arg.a1 then some .badArg
      else none := by
  cases h : s.prepared
  · simp [ringChecks, needPrepared, h]
  · simp only [ringChecks, needPrepared, needChannel, firstFault_cons, firstFault_nil, h, State.position, State.length,
      Args.get]
    by_cases h1 : u s.nch ≤ c
    · simp [h1]
    by_cases h2 : u s.cap ≤ u s.arg.a0
    · simp [h1, h2]
    by_cases h3 : u s.cap < u s.arg.a1
    · simp [h1, h2, h3]
    by_cases h4 : u s.maxblk < u s.arg.a1
    · simp [h1, h2, h3, h4]
    · simp [h1, h2, h3, h4]

theorem firstFault_bufChecks (s : State) (c : Nat) :
    firstFault (bufChecks s c) =
      if s.prepared = false then some .notPrepared
      else if u s.nch ≤ c ∨ u s.maxblk < u s.arg.a1 then some .badArg
      else none := by
  cases h : s.prepared
  · simp [bufChecks, needPrepared, h]
  · simp only [bufChecks, needPrepared, needChannel, firstFault_cons, firstFault_nil, h, State.length, Args.get]
    by_cases h1 : u s.nch ≤ c
    · simp [h1]
    by_cases h4 : u s.maxblk < u s.arg.a1
    · simp [h1, h4]
    · simp [h1, h4]

theorem firstFault_decimateBlk (s : State) (c : Nat) :
    firstFault (bufChecks s c ++ [needBitDepth s]) =
      if s.prepared = false then some .notPrepared
      else if u s.nch ≤ c ∨ u s.maxblk < u s.arg.a1 ∨ 24 < u s.arg.a3 then some .badArg
      else none := by
  cases h : s.prepared
  · simp [bufChecks, needPrepared, h]
  · simp only [bufChecks, needPrepared, needChannel, needBitDepth, List.cons_append, List.nil_append, firstFault_cons,
      firstFault_nil, h, State.length, State.bitDepth, Args.get]
    by_cases h1 : u s.nch ≤ c
    · simp [h1]
    by_cases h2 : u s.maxblk < u s.arg.a1
    · simp [h1, h2]
    by_cases h3 : 24 < u s.arg.a3
    · simp [h1, h2, h3]
    · simp [h1, h2, h3]

theorem firstFault_decimate (s : State) (c : Nat) :
    firstFault [needPrepared s, needChannel s c, (decide (u s.maxblk ≤ s.position), .badArg), needBitDepth s] =
      if s.prepared = false then some .notPrepared
      else if u s.nch ≤ c ∨ u s.maxblk ≤ u s.arg.a0 ∨ 24 < u s.arg.a3 then some .badArg
      else none := by
  cases h : s.prepared
  · simp [needPrepared, h]
  · simp only [needPrepared, needChannel, needBitDepth, firstFault_cons, firstFault_nil, h, State.position,
      State.bitDepth, Args.get]
    by_cases h1 : u s.nch ≤ c
    · simp [h1]
    by_cases h2 : u s.maxblk ≤ u s.arg.a0
    · simp [h1, h2]
    by_cases h3 : 24 < u s.arg.a3
    · simp [h1, h2, h3]
    · simp [h1, h2, h3]

theorem firstFault_processChecks (s : State) :
    firstFault (processChecks s) =
      if s.prepared = false then some .notPrepared
      else if u s.maxblk < u s.arg.a1 ∨ u s.cap < u s.arg.a1 ∨ u s.nch < u s.arg.a2 then some .badArg
      else if crushRate s.pcur.time ≤ 0 then some .rateUndef
      else none := by
  cases h : s.prepared
  · simp [processChecks, needPrepared, h]
  · simp only [processChecks, needPrepared, needRate, firstFault_cons, firstFault_nil, h, State.length,
      State.channelCount, Args.get]
    by_cases h1 : u s.maxblk < u s.arg.a1
    · simp [h1]
    by_cases h2 : u s.cap < u s.arg.a1
    · simp [h1, h2]
    by_cases h3 : u s.nch < u s.arg.a2
    · simp [h1, h2, h3]
    by_cases h4 : crushRate s.pcur.time ≤ 0
    · simp [h1, h2, h3, h4]
    · simp [h1, h2, h3, h4]

theorem firstFault_ratediv (s : State) :
    firstFault [needPrepared s, needRate s] =
      if s.prepared = false then some .notPrepared
      else if crushRate s.pcur.time ≤ 0 then some .rateUndef
      else none := by
  cases h : s.prepared <;> simp [needPrepared, needRate, h]

theorem firstFault_cursorAdv (s : State) :
    firstFault [needPrepared s, (decide (u s.cap < s.length), .badArg)] =
      if s.prepared = false then some .notPrepared
      else if u s.cap < u s.arg.a1 then some .badArg
      else none := by
  cases h : s.prepared
  · simp [needPrepared, h]
  · by_cases h1 : u s.cap < u s.arg.a1 <;> simp [needPrepared, h, State.length, Args.get, h1]

/-- The parameter an index operand names. -/
theorem paramIndex_cases (n : Nat) :
    (5 ≤ n ∧ paramIndex n = none) ∨ ∃ i : Fin 5, n = i.val ∧ paramIndex n = some i := by
  unfold paramIndex
  split
  · exact .inr ⟨⟨n, _⟩, rfl, rfl⟩
  · exact .inl ⟨by omega, rfl⟩

@[simp] theorem paramIndex_val (i : Fin 5) : paramIndex i.val = some i := by
  unfold paramIndex; simp [i.isLt]

/-- One parameter of the bank after one is written (`10_state.md` R20). -/
theorem paramGet_paramSet (p : Params) (i j : Fin 5) (v : Word) :
    paramGet (paramSet p i v) j = if j = i then v else paramGet p j := by
  fin_cases i <;> fin_cases j <;> rfl

end Sys2Proof.Machine
end

