-- ==== Sys2Proof/Laws/Commands.lean ====
section
/-! SUPPORT. Every command as its checks and its effect, and what each action of an agent leaves: the lemmas a proof cites
instead of unfolding a meaning. -/

namespace Sys2Proof.Machine

variable (s : State) (c : Nat) (b dst src : BufId)

/-! ### Commands as checks and effect -/

theorem exec_nop : exec .nop s = runCommand [] (fun s => s) s := rfl

theorem exec_loadstate : exec .loadstate s = runCommand [] (fun s => s) s := rfl

theorem exec_getpcount :
    exec .getpcount s = runCommand [] (fun s => s.setRes { s.res with r0 := BitVec.ofNat 32 Config.nparam }) s := rfl

theorem exec_savestate : exec .savestate s = runCommand [] (fun s => s.setRes { s.res with r0 := 0#32 }) s := rfl

theorem exec_rampCommit : exec .rampCommit s = runCommand [] (fun s => s.setLast (paramGains s.pcur)) s := rfl

theorem exec_rbWrite : exec (.rbWrite c src) s = runCommand (ringChecks s c)
    (fun s => s.setRing (ringWriteBlock s.hw (u s.cap) c s.position s.length (plainSamples s.hw s.buf src c) s.ring)) s := rfl

theorem exec_rbWriteRamp : exec (.rbWriteRamp c src) s = runCommand (ringChecks s c)
    (fun s => s.setRing (ringWriteBlock s.hw (u s.cap) c s.position s.length
      (rampSamples s.hw s.buf src c s.gainFrom s.gainTo s.length) s.ring)) s := rfl

theorem exec_rbReadaddRamp : exec (.rbReadaddRamp c dst) s = runCommand (ringChecks s c)
    (fun s => s.setBuf (ringReadAddBlock s.hw (u s.cap) c s.position s.length dst s.gainFrom s.gainTo s.ring s.buf)) s := rfl

theorem exec_rbRdpos : exec .rbRdpos s = runCommand [needPrepared s]
    (fun s => s.setRes { s.res with
      r0 := BitVec.ofNat 32 (readPosition s.wcur s.cap s.sr s.pcur.time)
      r1 := word (delaySamples s.sr s.pcur.time) }) s := rfl

theorem exec_cursorAdv : exec .cursorAdv s = runCommand [needPrepared s, (decide (u s.cap < s.length), .badArg)]
    (fun s => s.setWcur ((u s.wcur + s.length) % u s.cap)) s := rfl

theorem exec_ratediv : exec .ratediv s = runCommand [needPrepared s, needRate s]
    (fun s => s.setRes { s.res with r0 := BitVec.ofNat 32 (rateDivider s.sr s.pcur.time) }) s := rfl

theorem exec_decimate : exec (.decimate c b) s =
    runCommand [needPrepared s, needChannel s c, (decide (u s.maxblk ≤ s.position), .badArg), needBitDepth s]
      (fun s => s.setBuf (decimateSample s.hw c b s.rateDivide s.bitDepth s.position s.buf)) s := rfl

theorem exec_decimateBlk : exec (.decimateBlk c b) s = runCommand (bufChecks s c ++ [needBitDepth s])
    (fun s => s.setBuf (decimateBlock s.hw c b s.length s.rateDivide s.bitDepth s.buf)) s := rfl

theorem exec_bufCopy : exec (.bufCopy c dst src) s = runCommand (bufChecks s c)
    (fun s => s.setBuf (mixBlock s.hw c dst src s.length copySample s.buf)) s := rfl

theorem exec_bufSub : exec (.bufSub c dst src) s = runCommand (bufChecks s c)
    (fun s => s.setBuf (mixBlock s.hw c dst src s.length subSample s.buf)) s := rfl

theorem exec_bufCopyRamp : exec (.bufCopyRamp c dst src) s = runCommand (bufChecks s c)
    (fun s => s.setBuf (mixBlock s.hw c dst src s.length (copyRampSample s.gainFrom s.gainTo s.length) s.buf)) s := rfl

theorem exec_bufAddRamp : exec (.bufAddRamp c dst src) s = runCommand (bufChecks s c)
    (fun s => s.setBuf (mixBlock s.hw c dst src s.length (addRampSample s.gainFrom s.gainTo s.length) s.buf)) s := rfl

theorem exec_process : exec .process s = runCommand (processChecks s) processEffect s := rfl

/-- PREPARE, its three outcomes (`44_system.md` R106). -/
theorem exec_prepare : exec .prepare s =
    if u s.arg.a0 = 0 then .next (s.raise .badArg)
    else if s.hw.ringDepth < 2 * u s.arg.a0 ∨ s.hw.maxCh < u s.arg.a2 ∨ s.hw.blkDepth < u s.arg.a1 then
      .next (s.unprepare.raise .alloc)
    else
      .next ((s.configure s.arg.a0 (BitVec.ofNat 32 (2 * u s.arg.a0)) s.arg.a2 s.arg.a1).setRing
        (ringClear (u s.arg.a2) (2 * u s.arg.a0) s.ring)).complete := by
  have h : tooLarge s.hw (capacityFor s.position) s.channelCount s.length = true ↔
      (s.hw.ringDepth < 2 * u s.arg.a0 ∨ s.hw.maxCh < u s.arg.a2 ∨ s.hw.blkDepth < u s.arg.a1) := by
    unfold tooLarge
    rw [Bool.or_eq_true, Bool.or_eq_true, decide_eq_true_eq, decide_eq_true_eq, decide_eq_true_eq, or_assoc]
    exact Iff.rfl
  show execPrepare s = _
  unfold execPrepare
  simp only [h]
  rfl

/-- GETPARAM, its two outcomes (`44_system.md` R109). -/
theorem exec_getparam : (5 ≤ u s.arg.a0 ∧ exec .getparam s = .next (s.raise .badArg)) ∨
    ∃ i : Fin 5, u s.arg.a0 = i.val ∧
      exec .getparam s = .next (s.setRes ⟨BitVec.ofNat 32 i, paramGet s.pdef i, paramGet s.pcur i⟩).complete := by
  rcases paramIndex_cases (u s.arg.a0) with ⟨h, h'⟩ | ⟨i, h, h'⟩
  · refine .inl ⟨h, ?_⟩
    show execGetparam s = _
    unfold execGetparam
    rw [show paramIndex s.position = none from h']
  · refine .inr ⟨i, h, ?_⟩
    show execGetparam s = _
    unfold execGetparam
    rw [show paramIndex s.position = some i from h']

/-- SETPARAM, its two outcomes (`44_system.md` R110). -/
theorem exec_setparam : (5 ≤ u s.arg.a0 ∧ exec .setparam s = .next (s.raise .badArg)) ∨
    ∃ i : Fin 5, u s.arg.a0 = i.val ∧ exec .setparam s = .next (s.setPcur i s.arg.a1).complete := by
  rcases paramIndex_cases (u s.arg.a0) with ⟨h, h'⟩ | ⟨i, h, h'⟩
  · refine .inl ⟨h, ?_⟩
    show execSetparam s = _
    unfold execSetparam
    rw [show paramIndex s.position = none from h']
  · refine .inr ⟨i, h, ?_⟩
    show execSetparam s = _
    unfold execSetparam
    rw [show paramIndex s.position = some i from h']
    rfl

/-! ### What an action of an agent leaves -/

/-- A plain write, everything it can do (`20_memory.md` R42, R43). -/
theorem writeWord_cases {s t : State} {addr : Nat} {v : Word} (h : s.writeWord addr v = some t) :
    (∃ k, t = s.setArg k v) ∨ (∃ i, t = s.setPcur i v) ∨
      (inWindow s.hw addr = true ∧ t = s.setBuf (s.buf.setWordAt addr v)) := by
  unfold State.writeWord at h
  split at h
  · rename_i r _
    cases r <;> first
      | exact .inl ⟨_, (Option.some.inj h).symm⟩
      | exact .inr (.inl ⟨_, (Option.some.inj h).symm⟩)
      | cases h
  · split at h
    · rename_i hin
      exact .inr (.inr ⟨hin, (Option.some.inj h).symm⟩)
    · cases h

/-- One action, everything it can do (`20_memory.md` R38, R39, R42, R43, `30_encoding.md` R59, `70_reset_and_hazards.md` R135). -/
theorem perform_cases {a : Action} {s t : State} (h : perform a s = .next t) :
    (∃ addr, a = .hostRead addr ∧
      ((∃ w, t = s.setReadData w) ∨ t = s.accessError.setReadData 0#32)) ∨
    (∃ n addr, a = .narrowRead n addr ∧ t = s.accessError.setReadData 0#32) ∨
    (∃ n addr v, a = .narrowWrite n addr v ∧ t = s.accessError) ∨
    (∃ w i, a = .hostWrite cmdAddr w ∧ decode w = .ok i ∧ exec i s = .next t) ∨
    (∃ w e, a = .hostWrite cmdAddr w ∧ decode w = .error e ∧ t = s.raise .illegalCmd) ∨
    (∃ addr v, a = .hostWrite addr v ∧ addr ≠ cmdAddr ∧ (s.writeWord addr v = some t ∨ t = s.accessError)) ∨
    (∃ i v, a = .ctrlWrite i v ∧ t = s.setPcur i v) ∨
    (a = .resetInput ∧ t = resetPulse s) := by
  cases a with
  | hostRead addr =>
    refine .inl ⟨addr, rfl, ?_⟩
    replace h : hostRead addr s = t := Host.Outcome.next.inj h
    unfold hostRead at h
    split at h
    · rename_i w _; exact .inl ⟨w, h.symm⟩
    · exact .inr h.symm
  | hostWrite addr v =>
    replace h : hostWrite addr v s = .next t := h
    unfold hostWrite at h
    split at h
    · rename_i ha
      subst ha
      unfold command at h
      split at h
      · rename_i i hd; exact .inr (.inr (.inr (.inl ⟨v, i, rfl, hd, h⟩)))
      · rename_i e hd
        exact .inr (.inr (.inr (.inr (.inl ⟨v, e, rfl, hd, (Host.Outcome.next.inj h).symm⟩))))
    · rename_i ha
      refine .inr (.inr (.inr (.inr (.inr (.inl ⟨addr, v, rfl, ha, ?_⟩)))))
      split at h
      · rename_i t' ht
        rw [← Host.Outcome.next.inj h]; exact .inl ht
      · exact .inr (Host.Outcome.next.inj h).symm
  | narrowRead n addr => exact .inr (.inl ⟨n, addr, rfl, (Host.Outcome.next.inj h).symm⟩)
  | narrowWrite n addr v => exact .inr (.inr (.inl ⟨n, addr, v, rfl, (Host.Outcome.next.inj h).symm⟩))
  | ctrlWrite i v =>
    exact .inr (.inr (.inr (.inr (.inr (.inr (.inl ⟨i, v, rfl, (Host.Outcome.next.inj h).symm⟩))))))
  | resetInput =>
    exact .inr (.inr (.inr (.inr (.inr (.inr (.inr ⟨rfl, (Host.Outcome.next.inj h).symm⟩))))))

/-- One step: nothing, or the oldest pending action (`20_memory.md` R45; log 1). -/
theorem step_cases {s t : State} (h : step s = .next t) :
    (s.inbox = [] ∧ t = s) ∨ ∃ a rest, s.inbox = a :: rest ∧ perform a (s.setInbox rest) = .next t := by
  unfold step nextAction at h
  cases hi : s.inbox with
  | nil => rw [hi] at h; exact .inl ⟨rfl, (Host.Outcome.next.inj h).symm⟩
  | cons a rest => rw [hi] at h; exact .inr ⟨a, rest, rfl, h⟩

/-- A step with an action pending is that action on the state without it. -/
theorem step_cons {s : State} {a : Action} {rest : List Action} (h : s.inbox = a :: rest) :
    step s = perform a (s.setInbox rest) := by
  unfold step nextAction; rw [h]

/-- The host's write of a command word that decodes is the command. -/
theorem perform_command {w : Word} {i : Instr} (s : State) (h : decode w = .ok i) :
    perform (.hostWrite cmdAddr w) s = exec i s := by
  show hostWrite cmdAddr w s = _
  unfold hostWrite command
  rw [if_pos rfl, h]

end Sys2Proof.Machine
end

