-- ==== Sys2Proof/Laws/Decode.lean ====
section
/-! SUPPORT. The fields of a packed command word (`30_encoding.md` R55, R56). -/

namespace Sys2Proof

/-- Every bit of a packed command word. -/
theorem packWord_bit (opc : BitVec 8) (ch : Nat) (ba bb : BitVec 2) (i : Nat) :
    (packWord opc ch ba bb).getLsbD i =
      if i < 8 then opc.getLsbD i
      else if i < 12 then (BitVec.ofNat 4 ch).getLsbD (i - 8)
      else if i < 14 then ba.getLsbD (i - 12)
      else if i < 16 then bb.getLsbD (i - 14)
      else false := by
  simp only [packWord, BitVec.getLsbD_append, Nat.sub_sub]
  by_cases h1 : i < 8
  · simp [h1]
  by_cases h2 : i < 12
  · simp [h1, h2, show i - 8 < 4 by omega]
  by_cases h3 : i < 14
  · simp [h1, h2, h3, show ¬ i - 8 < 4 by omega, show i - 12 < 2 by omega]
  by_cases h4 : i < 16
  · simp [h1, h2, h3, h4, show ¬ i - 8 < 4 by omega, show ¬ i - 12 < 2 by omega, show i - 14 < 2 by omega]
  · simp [h1, h2, h3, h4, show ¬ i - 8 < 4 by omega, show ¬ i - 12 < 2 by omega, show ¬ i - 14 < 2 by omega]

@[simp] theorem opcField_packWord (opc : BitVec 8) (ch : Nat) (ba bb : BitVec 2) :
    opcField (packWord opc ch ba bb) = opc := by
  apply BitVec.eq_of_getLsbD_eq
  intro i hi
  rw [opcField, BitVec.getLsbD_extractLsb', packWord_bit]
  simp [hi]

@[simp] theorem chField_packWord (opc : BitVec 8) (ch : Nat) (ba bb : BitVec 2) :
    chField (packWord opc ch ba bb) = ch % 16 := by
  have h : (packWord opc ch ba bb).extractLsb' 8 4 = BitVec.ofNat 4 ch := by
    apply BitVec.eq_of_getLsbD_eq
    intro i hi
    rw [BitVec.getLsbD_extractLsb', packWord_bit, if_neg (by omega), if_pos (by omega), Nat.add_sub_cancel_left]
    simp [hi]
  rw [chField, h, BitVec.toNat_ofNat]

@[simp] theorem baField_packWord (opc : BitVec 8) (ch : Nat) (ba bb : BitVec 2) :
    baField (packWord opc ch ba bb) = ba := by
  apply BitVec.eq_of_getLsbD_eq
  intro i hi
  rw [baField, BitVec.getLsbD_extractLsb', packWord_bit, if_neg (by omega), if_neg (by omega), if_pos (by omega),
    Nat.add_sub_cancel_left]
  simp [hi]

@[simp] theorem bbField_packWord (opc : BitVec 8) (ch : Nat) (ba bb : BitVec 2) :
    bbField (packWord opc ch ba bb) = bb := by
  apply BitVec.eq_of_getLsbD_eq
  intro i hi
  rw [bbField, BitVec.getLsbD_extractLsb', packWord_bit, if_neg (by omega), if_neg (by omega), if_neg (by omega),
    if_pos (by omega), Nat.add_sub_cancel_left]
  simp [hi]

@[simp] theorem zeroField_packWord (opc : BitVec 8) (ch : Nat) (ba bb : BitVec 2) :
    zeroField (packWord opc ch ba bb) = 0#16 := by
  apply BitVec.eq_of_getLsbD_eq
  intro i hi
  rw [zeroField, BitVec.getLsbD_extractLsb', packWord_bit, if_neg (by omega), if_neg (by omega), if_neg (by omega),
    if_neg (by omega)]
  simp

@[simp] theorem bufOfField_code (b : BufId) : bufOfField b.code = some b := by cases b <;> rfl

/-! A used field is outside its format's mask, so any value of it passes the mask test (R56). -/

theorem mask_ca (opc : BitVec 8) (ch : Nat) (ba : BitVec 2) :
    packWord opc ch ba 0#2 &&& Format.ca.mask = opc.setWidth 32 := by
  apply BitVec.eq_of_getLsbD_eq
  intro i hi
  rw [BitVec.getLsbD_and, packWord_bit, Format.mask]
  interval_cases i <;> simp

theorem mask_cb (opc : BitVec 8) (ch : Nat) (bb : BitVec 2) :
    packWord opc ch 0#2 bb &&& Format.cb.mask = opc.setWidth 32 := by
  apply BitVec.eq_of_getLsbD_eq
  intro i hi
  rw [BitVec.getLsbD_and, packWord_bit, Format.mask]
  interval_cases i <;> simp

theorem mask_cab (opc : BitVec 8) (ch : Nat) (ba bb : BitVec 2) :
    packWord opc ch ba bb &&& Format.cab.mask = opc.setWidth 32 := by
  apply BitVec.eq_of_getLsbD_eq
  intro i hi
  rw [BitVec.getLsbD_and, packWord_bit, Format.mask]
  interval_cases i <;> simp

end Sys2Proof
end

