-- ==== Sys2Proof/Laws/Fixed.lean ====
section
/-! SUPPORT. Q8.24 arithmetic: words as integers, saturation, and the integer forms the commands compute beside the exact
rational forms of the rules (`00_scope.md` R8 to R13). -/

namespace Sys2Proof.Machine

/-! ### Words as integers -/

theorem raw_bounds (w : Word) : -2147483648 ≤ raw w ∧ raw w ≤ 2147483647 := by
  have h1 := BitVec.le_toInt w
  have h2 := BitVec.toInt_lt (x := w)
  norm_num at h1 h2
  exact ⟨h1, Int.le_of_lt_add_one h2⟩

/-- The word of an integer in range reads back as that integer (R7). -/
theorem raw_word {n : Int} (h1 : -2147483648 ≤ n) (h2 : n ≤ 2147483647) : raw (word n) = n := by
  show (BitVec.ofInt 32 n).toInt = n
  rw [BitVec.toInt_ofInt]
  exact Int.bmod_eq_of_le (by norm_num; omega) (by norm_num; omega)

@[simp] theorem word_raw (w : Word) : word (raw w) = w := BitVec.ofInt_toInt

theorem raw_inj {x y : Word} (h : raw x = raw y) : x = y := BitVec.eq_of_toInt_eq h

@[simp] theorem raw_zero : raw 0#32 = 0 := by decide

@[simp] theorem val_zero : val 0#32 = 0 := by simp [val]

theorem raw_eq_val (w : Word) : (raw w : Rat) = val w * 2 ^ 24 := by
  unfold val; field_simp

/-! ### Saturation and `fx` (R9) -/

theorem sat32_bounds (n : Int) : -2147483648 ≤ sat32 n ∧ sat32 n ≤ 2147483647 := by
  unfold sat32; omega

theorem sat32_of_range {n : Int} (h1 : -2147483648 ≤ n) (h2 : n ≤ 2147483647) : sat32 n = n := by
  unfold sat32; omega

/-- What a stored word reads back as (R9). -/
@[simp] theorem raw_satWord (n : Int) : raw (satWord n) = sat32 n := raw_word (sat32_bounds n).1 (sat32_bounds n).2

@[simp] theorem satWord_zero : satWord 0 = 0#32 := by decide

@[simp] theorem satWord_raw (w : Word) : satWord (raw w) = w := by
  unfold satWord
  rw [sat32_of_range (raw_bounds w).1 (raw_bounds w).2, word_raw]

/-- The floor of an integer over a positive integer is the floored quotient of R10. -/
theorem floor_div (n : Int) (d : Nat) : ((n : Rat) / (d : Rat)).floor = n / (d : Int) :=
  Rat.floor_intCast_div_natCast n d

theorem floor_intCast (n : Int) : ((n : Int) : Rat).floor = n := Rat.floor_intCast n

/-- An integer added to a value comes out of its floor. -/
theorem floor_intCast_add (n : Int) (v : Rat) : ((n : Rat) + v).floor = n + v.floor := by
  have h : ⌊(n : Rat) + v⌋ = n + ⌊v⌋ := Int.floor_intCast_add n v
  exact h

/-! ### Ramps (R12) -/

theorem ramp_eq (a b : Word) (i : Nat) {len : Nat} (hlen : 0 < len) :
    ramp a b i len = (gnum a b i len : Rat) / ((len : Rat) * 2 ^ 24) := by
  have h : (len : Rat) ≠ 0 := by positivity
  unfold ramp gnum val
  push_cast
  field_simp
  ring

theorem scale_eq (x a b : Word) (i : Nat) {len : Nat} (hlen : 0 < len) :
    scale x a b i len = (raw x : Rat) * (gnum a b i len : Rat) / ((len : Rat) * 2 ^ 48) := by
  have h : (len : Rat) ≠ 0 := by positivity
  unfold scale
  rw [ramp_eq a b i hlen]
  unfold val
  field_simp

/-- The exact product in units of `2^-24`. -/
theorem scale_mul (x a b : Word) (i : Nat) {len : Nat} (hlen : 0 < len) :
    scale x a b i len * 2 ^ 24 = ((raw x * gnum a b i len : Int) : Rat) / ((len * 2 ^ 24 : Nat) : Rat) := by
  have h : (len : Rat) ≠ 0 := by positivity
  rw [scale_eq x a b i hlen]
  push_cast
  field_simp
  norm_num

theorem scale_floor (x a b : Word) (i : Nat) {len : Nat} (hlen : 0 < len) :
    (scale x a b i len * 2 ^ 24).floor = scaleRaw x a b i len := by
  rw [scale_mul x a b i hlen, floor_div]
  unfold scaleRaw
  push_cast
  rfl

/-- The integer form RB.WRITE.RAMP and BUF.COPY.RAMP compute (R12). -/
theorem fx_scale (x a b : Word) (i : Nat) {len : Nat} (hlen : 0 < len) :
    fx (scale x a b i len) = scaled x a b i len := by
  unfold fx scaled
  rw [scale_floor x a b i hlen]

/-- The integer form RB.READADD.RAMP and BUF.ADD.RAMP compute: adding before or after the floor is the same. -/
theorem fx_add_scale (d x a b : Word) (i : Nat) {len : Nat} (hlen : 0 < len) :
    fx (val d + scale x a b i len) = addScaled d x a b i len := by
  unfold fx addScaled
  rw [add_mul, ← raw_eq_val, floor_intCast_add, scale_floor x a b i hlen]

/-- The integer form of BUF.SUB (`42_mix.md` R89). -/
theorem fx_sub (d x : Word) : fx (val d - val x) = subSat d x := by
  unfold fx subSat
  rw [sub_mul, ← raw_eq_val, ← raw_eq_val, ← Int.cast_sub, floor_intCast]

/-- A word is the stored form of its own value. -/
@[simp] theorem fx_val (w : Word) : fx (val w) = w := by
  unfold fx
  rw [← raw_eq_val, floor_intCast, satWord_raw]

/-- A scaled zero is exactly zero (`42_mix.md` R93). -/
@[simp] theorem scaled_zero (a b : Word) (i len : Nat) : scaled 0#32 a b i len = 0#32 := by
  simp [scaled, scaleRaw]

@[simp] theorem addScaled_zero (d a b : Word) (i len : Nat) : addScaled d 0#32 a b i len = d := by
  simp [addScaled, scaleRaw]

@[simp] theorem subSat_zero (d : Word) : subSat d 0#32 = d := by simp [subSat]

/-- At gain 1.0 throughout, a scaled word is the word (`40_ring.md` R72). -/
theorem scaled_unity (x : Word) (i : Nat) {len : Nat} (hlen : 0 < len) :
    scaled x 0x01000000#32 0x01000000#32 i len = x := by
  have hg : gnum 0x01000000#32 0x01000000#32 i len = (len : Int) * 2 ^ 24 := by
    unfold gnum
    rw [show raw 0x01000000#32 = 2 ^ 24 by decide]
    ring
  unfold scaled scaleRaw
  rw [hg, Int.mul_ediv_cancel _ (by positivity), satWord_raw]

/-! ### The quantizer (R13) -/

theorem quantStep_pos (bd : Nat) : 0 < quantStep bd := by unfold quantStep; positivity

/-- `floor` mode: the greatest level not above the sample, which is in range. -/
theorem raw_quant_floor (x : Word) {bd : Nat} (hbd : bd ≤ 24) :
    raw (quant .floor x bd) = quantStep bd * (raw x / quantStep bd) := by
  have hM := quantStep_pos bd
  have hb := raw_bounds x
  have hdvd : quantStep bd ∣ 2147483648 := by
    unfold quantStep
    exact (show (2 : Int) ^ (24 - bd) ∣ 2 ^ 31 from pow_dvd_pow 2 (by omega))
  have hm := Int.emod_nonneg (raw x) hM.ne'
  have hlow : -2147483648 ≤ quantStep bd * (raw x / quantStep bd) := by
    obtain ⟨k, hk⟩ := hdvd
    have : -k ≤ raw x / quantStep bd := by
      rw [Int.le_ediv_iff_mul_le hM]
      nlinarith
    nlinarith
  have he := Int.mul_ediv_add_emod (raw x) (quantStep bd)
  show raw (word (raw x - raw x % quantStep bd)) = _
  rw [raw_word (by omega) (by omega)]
  omega

/-- `trunc` mode: the level nearest to zero from the sample. -/
theorem raw_quant_trunc (x : Word) (bd : Nat) :
    raw (quant .trunc x bd) = (raw x).sign * (quantStep bd * (((raw x).natAbs : Int) / quantStep bd)) := by
  have hM := quantStep_pos bd
  have hb := raw_bounds x
  have hm := Int.emod_nonneg ((raw x).natAbs : Int) hM.ne'
  have he := Int.mul_ediv_add_emod ((raw x).natAbs : Int) (quantStep bd)
  have hq : 0 ≤ quantStep bd * (((raw x).natAbs : Int) / quantStep bd) := by positivity
  show raw (word _) = _
  rw [show ((raw x).natAbs : Int) - ((raw x).natAbs : Int) % quantStep bd =
    quantStep bd * (((raw x).natAbs : Int) / quantStep bd) by omega]
  generalize quantStep bd * (((raw x).natAbs : Int) / quantStep bd) = q at *
  rcases lt_trichotomy (raw x) 0 with h | h | h
  · rw [Int.sign_eq_neg_one_of_neg h]
    exact raw_word (by omega) (by omega)
  · rw [h]; exact raw_word (by simp) (by simp)
  · rw [Int.sign_eq_one_of_pos h]
    exact raw_word (by omega) (by omega)

@[simp] theorem quant_zero (mode : QuantMode) (bd : Nat) : quant mode 0#32 bd = 0#32 := by
  cases mode <;> simp [quant]

/-- The quantized word of a quantized word is that word (`41_crush.md` R82). -/
theorem quant_idem (mode : QuantMode) (x : Word) {bd : Nat} (hbd : bd ≤ 24) :
    quant mode (quant mode x bd) bd = quant mode x bd := by
  have hM := quantStep_pos bd
  apply raw_inj
  cases mode with
  | floor =>
    rw [raw_quant_floor _ hbd, raw_quant_floor _ hbd, Int.mul_ediv_cancel_left _ hM.ne']
  | trunc =>
    have h := raw_quant_trunc x bd
    rw [raw_quant_trunc, h]
    generalize hq : ((raw x).natAbs : Int) / quantStep bd = q
    have hq0 : 0 ≤ q := by rw [← hq]; positivity
    have hp : 0 ≤ quantStep bd * q := by positivity
    rcases lt_trichotomy (raw x) 0 with h | h | h
    · rw [Int.sign_eq_neg_one_of_neg h]
      rcases hq0.eq_or_lt with h0 | h0
      · simp [← h0]
      · have hpos : 0 < quantStep bd * q := by positivity
        rw [Int.sign_eq_neg_one_of_neg (by omega), show (((-1) * (quantStep bd * q)).natAbs : Int) = quantStep bd * q by omega,
          Int.mul_ediv_cancel_left _ hM.ne']
    · simp [h]
    · rw [Int.sign_eq_one_of_pos h]
      rcases hq0.eq_or_lt with h0 | h0
      · simp [← h0]
      · have hpos : 0 < quantStep bd * q := by positivity
        rw [Int.sign_eq_one_of_pos (by omega), show ((1 * (quantStep bd * q)).natAbs : Int) = quantStep bd * q by omega,
          Int.mul_ediv_cancel_left _ hM.ne']

/-! ### The rate divider and the read position (`41_crush.md` R80, `40_ring.md` R73) -/

/-- The rate is positive exactly when `time` is below 2.0. -/
theorem crushRate_pos (t : Word) : 0 < crushRate t ↔ val t < 2 := by
  have h : ((raw t : Int) : Rat) = val t * 2 ^ 24 := raw_eq_val t
  unfold crushRate Config.crushBase
  constructor
  · intro h0
    have h1 : raw t < 2 ^ 25 := by norm_num at h0 ⊢; omega
    have h2 : ((raw t : Int) : Rat) < 2 ^ 25 := by exact_mod_cast h1
    rw [h] at h2
    norm_num at h2 ⊢
    linarith
  · intro h0
    have h2 : ((raw t : Int) : Rat) < 2 ^ 25 := by rw [h]; norm_num; linarith
    have h1 : raw t < 2 ^ 25 := by exact_mod_cast h2
    norm_num at h1 ⊢
    omega

theorem readPosition_lt {cap : Word} (h : 0 < u cap) (wcur sr t : Word) : readPosition wcur cap sr t < u cap := by
  unfold readPosition
  have h1 := Int.emod_nonneg ((u wcur : Int) - delaySamples sr t) (b := (u cap : Int)) (by omega)
  have h2 := Int.emod_lt_of_pos ((u wcur : Int) - delaySamples sr t) (b := (u cap : Int)) (by omega)
  omega

theorem rateDivider_lt (sr t : Word) : rateDivider sr t < 2 ^ 32 := by
  unfold rateDivider
  omega

end Sys2Proof.Machine
end

