-- ==== Sys2Proof/Laws/Process.lean ====
section
/-! SUPPORT. What the steps of PROCESS (`43_block.md` R96) do to one channel: the elements, the bytes left alone, and the
form of both memories. -/

namespace Sys2Proof.Machine

/-- What every pass of a block needs of the sizes: the checks of R96 and the invariant give it. -/
structure Block.Fits (p : Block) : Prop where
  ok : p.hw.ok = true
  len : p.len ≤ p.hw.blkDepth
  cap : 0 < p.cap
  depth : p.cap ≤ p.hw.ringDepth
  fits : p.len ≤ p.cap

/-- `r_i` of R98 for a block: what step 4 reads for sample `i`, out of the ring step 2 left. -/
def Block.delayed (p : Block) (c : Nat) (x : Store) (i : Nat) : Word :=
  ringGet p.hw (blockWrite p c x).ring c (ringIndex p.cap p.rp i)

/-- `w_i` of R98: WET after step 4. -/
def Block.wet (p : Block) (c : Nat) (x : Store) (i : Nat) : Word :=
  addScaled (quant p.hw.quantMode (x.buf.get p.hw .io c (holdIndex p.rd i)) Config.bitdepth) (p.delayed c x i)
    p.before.feedback p.target.feedback i p.len

/-- `tail_i` of R98: WET after step 5. -/
def Block.tail (p : Block) (c : Nat) (x : Store) (i : Nat) : Word :=
  subSat (p.wet c x i) (x.buf.get p.hw .io c i)

/-- The output sample of R98: IO after step 6. -/
def Block.out (p : Block) (c : Nat) (x : Store) (i : Nat) : Word :=
  addScaled (scaled (x.buf.get p.hw .io c i) p.before.dry p.target.dry i p.len) (p.tail c x i) p.before.wet p.target.wet
    i p.len

/-- Every field PROCESS writes. -/
theorem processEffect_eq (s : State) : processEffect s =
    { s with
      ring := (processChannels (blockOf s) s.channelCount ⟨s.ring, s.buf⟩).ring
      buf := (processChannels (blockOf s) s.channelCount ⟨s.ring, s.buf⟩).buf
      last := paramGains s.pcur
      wcur := BitVec.ofNat 32 ((u s.wcur + s.length) % u s.cap) } := rfl

theorem processChannels_zero (p : Block) (x : Store) : processChannels p 0 x = x := rfl

theorem processChannels_succ (p : Block) (k : Nat) (x : Store) :
    processChannels p (k + 1) x = processChannel p k (processChannels p k x) := rfl

/-! ### The buffers after each step -/

theorem blockWrite_get {p : Block} (h : p.Fits) {c : Nat} (hc : c < p.hw.maxCh) (x : Store) (b : BufId) {c' i' : Nat}
    (hc' : c' < p.hw.maxCh) (hi' : i' < p.hw.blkDepth) :
    (blockWrite p c x).buf.get p.hw b c' i' =
      if (b = .wet ∨ b = .dry) ∧ c' = c ∧ i' < p.len then x.buf.get p.hw .io c i' else x.buf.get p.hw b c' i' := by
  have h1 := @mixBlock_get p.hw h.ok c hc .wet .io p.len h.len copySample x.buf
  have h2 := @mixBlock_get p.hw h.ok c hc .dry .io p.len h.len copySample (mixBlock p.hw c .wet .io p.len copySample x.buf)
  show Buffers.get (mixBlock p.hw c .dry .io p.len copySample _) p.hw b c' i' = _
  rw [h2 b hc' hi', h1 b hc' hi']
  by_cases hh : c' = c ∧ i' < p.len
  · obtain ⟨rfl, hh⟩ := hh
    rw [h1 .io hc hi']
    cases b <;> simp [hh, copySample]
  · rw [if_neg (fun a => hh a.2), if_neg (fun a => hh a.2), if_neg (fun a => hh a.2)]

theorem blockRead_get {p : Block} (h : p.Fits) {c : Nat} (hc : c < p.hw.maxCh) (x : Store) (b : BufId) {c' i' : Nat}
    (hc' : c' < p.hw.maxCh) (hi' : i' < p.hw.blkDepth) :
    (blockRead p c x).buf.get p.hw b c' i' =
      if c' = c ∧ i' < p.len then
        match b with
        | .io => quant p.hw.quantMode (x.buf.get p.hw .io c (holdIndex p.rd i')) Config.bitdepth
        | .wet =>
          addScaled (quant p.hw.quantMode (x.buf.get p.hw .wet c (holdIndex p.rd i')) Config.bitdepth)
            (ringGet p.hw x.ring c (ringIndex p.cap p.rp i')) p.before.feedback p.target.feedback i' p.len
        | .dry => x.buf.get p.hw .dry c i'
      else x.buf.get p.hw b c' i' := by
  have h1 := @decimateBlock_get p.hw h.ok c hc .wet p.len h.len p.rd Config.bitdepth x.buf
  have h2 := @decimateBlock_get p.hw h.ok c hc .io p.len h.len p.rd Config.bitdepth
    (decimateBlock p.hw c .wet p.len p.rd Config.bitdepth x.buf)
  have h3 := @ringReadAddBlock_get p.hw h.ok c hc p.cap p.rp p.len h.len .wet p.before.feedback p.target.feedback x.ring
    (decimateBlock p.hw c .io p.len p.rd Config.bitdepth (decimateBlock p.hw c .wet p.len p.rd Config.bitdepth x.buf))
  show Buffers.get (ringReadAddBlock ..) p.hw b c' i' = _
  rw [h3 b hc' hi']
  by_cases hh : c' = c ∧ i' < p.len
  · obtain ⟨rfl, hh⟩ := hh
    have hj : holdIndex p.rd i' < p.hw.blkDepth := lt_of_le_of_lt (holdIndex_le _ _) hi'
    rw [h2 .wet hc hi', h2 b hc hi', h1 .wet hc hi', h1 b hc hi', h1 .io hc hj]
    cases b <;> simp [hh]
  · rw [if_neg (fun a => hh a.2), h2 b hc' hi', if_neg (fun a => hh a.2), h1 b hc' hi', if_neg (fun a => hh a.2), if_neg hh]

theorem blockRewrite_get {p : Block} (h : p.Fits) {c : Nat} (hc : c < p.hw.maxCh) (x : Store) (b : BufId) {c' i' : Nat}
    (hc' : c' < p.hw.maxCh) (hi' : i' < p.hw.blkDepth) :
    (blockRewrite p c x).buf.get p.hw b c' i' =
      if b = .wet ∧ c' = c ∧ i' < p.len then subSat (x.buf.get p.hw .wet c i') (x.buf.get p.hw .dry c i')
      else x.buf.get p.hw b c' i' :=
  mixBlock_get h.ok hc .wet .dry h.len subSample x.buf b hc' hi'

theorem blockMix_get {p : Block} (h : p.Fits) {c : Nat} (hc : c < p.hw.maxCh) (x : Store) (b : BufId) {c' i' : Nat}
    (hc' : c' < p.hw.maxCh) (hi' : i' < p.hw.blkDepth) :
    (blockMix p c x).buf.get p.hw b c' i' =
      if b = .io ∧ c' = c ∧ i' < p.len then
        addScaled (scaled (x.buf.get p.hw .dry c i') p.before.dry p.target.dry i' p.len) (x.buf.get p.hw .wet c i')
          p.before.wet p.target.wet i' p.len
      else x.buf.get p.hw b c' i' := by
  have h1 := @mixBlock_get p.hw h.ok c hc .io .dry p.len h.len (copyRampSample p.before.dry p.target.dry p.len) x.buf
  have h2 := @mixBlock_get p.hw h.ok c hc .io .wet p.len h.len (addRampSample p.before.wet p.target.wet p.len)
    (mixBlock p.hw c .io .dry p.len (copyRampSample p.before.dry p.target.dry p.len) x.buf)
  show Buffers.get (mixBlock p.hw c .io .wet p.len _ _) p.hw b c' i' = _
  rw [h2 b hc' hi']
  by_cases hh : c' = c ∧ i' < p.len
  · obtain ⟨rfl, hh⟩ := hh
    rw [h1 .io hc hi', h1 .wet hc hi', h1 b hc hi']
    cases b <;> simp [hh, addRampSample, copyRampSample]
  · rw [if_neg (fun a => hh a.2), h1 b hc' hi', if_neg (fun a => hh a.2), if_neg (fun a => hh a.2)]

/-- Every element of the buffers after steps 1 to 6 for one channel (R98). -/
theorem processChannel_get {p : Block} (h : p.Fits) {c : Nat} (hc : c < p.hw.maxCh) (x : Store) (b : BufId) {c' i' : Nat}
    (hc' : c' < p.hw.maxCh) (hi' : i' < p.hw.blkDepth) :
    (processChannel p c x).buf.get p.hw b c' i' =
      if c' = c ∧ i' < p.len then
        match b with
        | .io => p.out c x i'
        | .wet => p.tail c x i'
        | .dry => x.buf.get p.hw .io c i'
      else x.buf.get p.hw b c' i' := by
  unfold processChannel
  rw [blockMix_get h hc _ b hc' hi']
  by_cases hh : c' = c ∧ i' < p.len
  · obtain ⟨rfl, hh⟩ := hh
    have hj : holdIndex p.rd i' < p.hw.blkDepth := lt_of_le_of_lt (holdIndex_le _ _) hi'
    have hj' : holdIndex p.rd i' < p.len := lt_of_le_of_lt (holdIndex_le _ _) hh
    simp only [blockRewrite_get h hc _ _ hc hi', blockRead_get h hc _ _ hc hi', blockWrite_get h hc _ _ hc hi',
      blockWrite_get h hc _ _ hc hj, hh, hj']
    cases b <;> simp [Block.out, Block.tail, Block.wet, Block.delayed]
  · rw [if_neg (fun a => hh a.2), blockRewrite_get h hc _ b hc' hi', if_neg (fun a => hh a.2),
      blockRead_get h hc _ b hc' hi', if_neg hh, blockWrite_get h hc _ b hc' hi', if_neg (fun a => hh a.2), if_neg hh]

/-! ### The ring after steps 1 to 6 -/

/-- Step 2 leaves the input sample at each index it wrote. -/
theorem blockWrite_hit {p : Block} (h : p.Fits) {c : Nat} (hc : c < p.hw.maxCh) (x : Store) {i : Nat} (hi : i < p.len) :
    ringGet p.hw (blockWrite p c x).ring c (ringIndex p.cap p.wcur i) = x.buf.get p.hw .io c i := by
  refine (ringWriteBlock_hit h.fits _ x.ring hi).trans ?_
  exact (blockWrite_get h hc x .wet hc (lt_of_lt_of_le hi h.len)).trans (by simp [hi])

/-- Step 2 leaves every other element alone. -/
theorem blockWrite_miss {p : Block} (h : p.Fits) {c : Nat} (x : Store) {c' k : Nat}
    (hk : k < p.hw.ringDepth) (hm : c' ≠ c ∨ ∀ i < p.len, ringIndex p.cap p.wcur i ≠ k) :
    ringGet p.hw (blockWrite p c x).ring c' k = ringGet p.hw x.ring c' k :=
  ringWriteBlock_miss h.cap h.depth _ x.ring hk hm

/-- After the command each ring element written holds WET after step 4 under the input gain (R98). -/
theorem processChannel_hit {p : Block} (h : p.Fits) {c : Nat} (hc : c < p.hw.maxCh) (x : Store) {i : Nat}
    (hi : i < p.len) :
    ringGet p.hw (processChannel p c x).ring c (ringIndex p.cap p.wcur i) =
      scaled (p.wet c x i) p.before.input p.target.input i p.len := by
  refine (ringWriteBlock_hit h.fits _ _ hi).trans ?_
  have hi' : i < p.hw.blkDepth := lt_of_lt_of_le hi h.len
  have hj : holdIndex p.rd i < p.hw.blkDepth := lt_of_le_of_lt (holdIndex_le _ _) hi'
  have hj' : holdIndex p.rd i < p.len := lt_of_le_of_lt (holdIndex_le _ _) hi
  unfold rampSamples
  rw [blockRead_get h hc _ .wet hc hi', if_pos ⟨rfl, hi⟩]
  simp only [blockWrite_get h hc _ _ hc hj, hj']
  simp [Block.wet, Block.delayed]

/-- Every other ring element is unchanged. -/
theorem processChannel_miss {p : Block} (h : p.Fits) {c : Nat} (x : Store) {c' k : Nat}
    (hk : k < p.hw.ringDepth) (hm : c' ≠ c ∨ ∀ i < p.len, ringIndex p.cap p.wcur i ≠ k) :
    ringGet p.hw (processChannel p c x).ring c' k = ringGet p.hw x.ring c' k :=
  (ringWriteBlock_miss h.cap h.depth _ _ hk hm).trans (blockWrite_miss h x hk hm)

/-! ### The bytes steps 1 to 6 leave alone, and the form of the memories -/

theorem processChannel_bufByte (p : Block) (c : Nat) (x : Store) {a : Nat}
    (ha : ∀ b, ∀ i < p.len, ∀ j < 4, a ≠ bufAddr p.hw b c i + j) :
    (processChannel p c x).buf.byte a = x.buf.byte a := by
  show Buffers.byte (mixBlock ..) a = _
  rw [mixBlock_byte _ _ _ _ _ _ _ (ha .io), mixBlock_byte _ _ _ _ _ _ _ (ha .io)]
  show Buffers.byte (mixBlock ..) a = _
  rw [mixBlock_byte _ _ _ _ _ _ _ (ha .wet)]
  show Buffers.byte (ringReadAddBlock ..) a = _
  rw [ringReadAddBlock_byte _ _ _ _ _ _ _ _ _ _ (ha .wet), decimateBlock_byte _ _ _ _ _ _ _ (ha .io),
    decimateBlock_byte _ _ _ _ _ _ _ (ha .wet)]
  show Buffers.byte (mixBlock ..) a = _
  rw [mixBlock_byte _ _ _ _ _ _ _ (ha .dry), mixBlock_byte _ _ _ _ _ _ _ (ha .wet)]

theorem processChannel_ringByte (p : Block) (c : Nat) (x : Store) {a : Nat}
    (ha : ∀ i < p.len, ∀ j < 4, a ≠ ringAddr p.hw c (ringIndex p.cap p.wcur i) + j) :
    ringByte p.hw (processChannel p c x).ring a = ringByte p.hw x.ring a := by
  show ringByte p.hw (ringWriteBlock ..) a = _
  rw [ringWriteBlock_byte _ _ _ _ _ _ _ ha]
  show ringByte p.hw (ringWriteBlock ..) a = _
  rw [ringWriteBlock_byte _ _ _ _ _ _ _ ha]

/-- What every pass keeps of both memories: the counters, the region, the canonical form, and where bytes are listed. -/
structure Store.Form (hw : Hardware) (x : Store) : Prop where
  ringForm : RingForm hw x.ring
  ringPlace : RingPlaced hw x.ring
  bufForm : x.buf.cells.wf bufUnlisted = true
  bufPlace : BufPlaced hw x.buf

theorem mixBlock_form {hw : Hardware} (c : Nat) (dst src : BufId) (len : Nat) (f : Nat → Word → Word → Word)
    (m : Buffers) :
    (mixBlock hw c dst src len f m).epoch = m.epoch ∧
      (m.cells.wf bufUnlisted = true → (mixBlock hw c dst src len f m).cells.wf bufUnlisted = true) ∧
      (hw.ok = true → c < hw.maxCh → len ≤ hw.blkDepth → BufPlaced hw m →
        BufPlaced hw (mixBlock hw c dst src len f m)) :=
  setLoop_form c dst len (fun i y => f i (y.get hw dst c i) (y.get hw src c i)) m

theorem ringReadAddBlock_form {hw : Hardware} (cap c s len : Nat) (dst : BufId) (a b : Word) (r : Ring) (m : Buffers) :
    (ringReadAddBlock hw cap c s len dst a b r m).epoch = m.epoch ∧
      (m.cells.wf bufUnlisted = true → (ringReadAddBlock hw cap c s len dst a b r m).cells.wf bufUnlisted = true) ∧
      (hw.ok = true → c < hw.maxCh → len ≤ hw.blkDepth → BufPlaced hw m →
        BufPlaced hw (ringReadAddBlock hw cap c s len dst a b r m)) :=
  setLoop_form c dst len (fun i y => addScaled (y.get hw dst c i) (ringGet hw r c (ringIndex cap s i)) a b i len) m

theorem processChannel_region (p : Block) (c : Nat) (x : Store) :
    (processChannel p c x).ring.rows = x.ring.rows ∧ (processChannel p c x).ring.width = x.ring.width :=
  have h1 := (ringWriteBlock_form (hw := p.hw) p.cap c p.wcur p.len
    (rampSamples p.hw (blockRead p c (blockWrite p c x)).buf .wet c p.before.input p.target.input p.len)
    (blockRead p c (blockWrite p c x)).ring).1
  have h2 := (ringWriteBlock_form (hw := p.hw) p.cap c p.wcur p.len
    (plainSamples p.hw (blockWrite p c x).buf .wet c) x.ring).1
  ⟨h1.2.1.trans h2.2.1, h1.2.2.trans h2.2.2⟩

theorem processChannel_form {p : Block} (h : p.Fits) {c : Nat} (hc : c < p.hw.maxCh) {x : Store}
    (hw : p.cap = x.ring.width) (hr : c < x.ring.rows) (hx : x.Form p.hw) : (processChannel p c x).Form p.hw where
  ringForm := (ringWriteBlock_form _ _ _ _ _ _).2.1 ((ringWriteBlock_form _ _ _ _ _ _).2.1 hx.ringForm)
  ringPlace := by
    have h2 := ringWriteBlock_form (hw := p.hw) p.cap c p.wcur p.len
      (plainSamples p.hw (blockWrite p c x).buf .wet c) x.ring
    exact (ringWriteBlock_form _ _ _ _ _ _).2.2 h.cap (hw.trans h2.1.2.2.symm) h.depth (h2.1.2.1 ▸ hr)
      (h2.2.2 h.cap hw h.depth hr hx.ringPlace)
  bufForm :=
    (mixBlock_form _ _ _ _ _ _).2.1 <| (mixBlock_form _ _ _ _ _ _).2.1 <| (mixBlock_form _ _ _ _ _ _).2.1 <|
    (ringReadAddBlock_form _ _ _ _ _ _ _ _ _).2.1 <| (decimateBlock_form _ _ _ _ _ _).2.1 <|
    (decimateBlock_form _ _ _ _ _ _).2.1 <| (mixBlock_form _ _ _ _ _ _).2.1 <| (mixBlock_form _ _ _ _ _ _).2.1 hx.bufForm
  bufPlace :=
    (mixBlock_form _ _ _ _ _ _).2.2 h.ok hc h.len <| (mixBlock_form _ _ _ _ _ _).2.2 h.ok hc h.len <|
    (mixBlock_form _ _ _ _ _ _).2.2 h.ok hc h.len <| (ringReadAddBlock_form _ _ _ _ _ _ _ _ _).2.2 h.ok hc h.len <|
    (decimateBlock_form _ _ _ _ _ _).2.2 h.ok hc h.len <| (decimateBlock_form _ _ _ _ _ _).2.2 h.ok hc h.len <|
    (mixBlock_form _ _ _ _ _ _).2.2 h.ok hc h.len <| (mixBlock_form _ _ _ _ _ _).2.2 h.ok hc h.len hx.bufPlace

end Sys2Proof.Machine
end

