-- ==== Sys2Proof/Laws/Invariant.lean ====
section
/-! SUPPORT. The invariant through each named update of the state. -/

namespace Sys2Proof.Machine

/-- The invariant constrains the fields it names and no other. -/
theorem State.Inv.of_eq {s t : State} (h : s.Inv) (hhw : t.hw = s.hw) (h1 : t.prepared = s.prepared) (h2 : t.sr = s.sr)
    (h3 : t.cap = s.cap) (h4 : t.nch = s.nch) (h5 : t.maxblk = s.maxblk) (h6 : t.wcur = s.wcur) (h7 : t.pdef = s.pdef)
    (h8 : t.lasterr.toNat ≤ 5) (h9 : t.faultlog &&& 0xFFFFFF81#32 = 0#32) (h10 : t.ring = s.ring)
    (h11 : t.buf = s.buf) : t.Inv where
  hardware := hhw ▸ h.hardware
  unprepared := by rw [h1, h2, h3, h4, h5, h6]; exact h.unprepared
  prepared := by rw [hhw, h1, h2, h3, h4, h5, h6]; exact h.prepared
  defaults := by rw [h7, hhw]; exact h.defaults
  lasterr := h8
  faultlog := h9
  ringForm := by rw [h10, hhw]; exact h.ringForm
  bufForm := by rw [h11]; exact h.bufForm
  ringRegion := by rw [h10, h3, h4]; exact h.ringRegion
  ringPlace := by rw [h10, hhw]; exact h.ringPlace
  bufPlace := by rw [h11, hhw]; exact h.bufPlace

theorem logged_reserved (k : ErrCode) {log : Word} (h : log &&& 0xFFFFFF81#32 = 0#32) :
    logged k log &&& 0xFFFFFF81#32 = 0#32 := by
  have hk : (1#32 <<< errNumber k) &&& 0xFFFFFF81#32 = 0#32 := by cases k <;> decide
  unfold logged
  apply BitVec.eq_of_getLsbD_eq
  intro i hi
  have h1 := congrArg (fun w : Word => w.getLsbD i) h
  have h2 := congrArg (fun w : Word => w.getLsbD i) hk
  simp only [BitVec.getLsbD_and, BitVec.getLsbD_zero] at h1 h2
  rw [BitVec.getLsbD_and, BitVec.getLsbD_or, Bool.and_or_distrib_right, h1, h2, BitVec.getLsbD_zero, Bool.or_false]

theorem errByte_le {k : ErrCode} (h : k ≠ .bus) : (errByte k).toNat ≤ 5 := by
  cases k <;> first | exact absurd rfl h | decide

theorem State.Inv.raise {s : State} (h : s.Inv) {k : ErrCode} (hk : k ≠ .bus) : (s.raise k).Inv :=
  h.of_eq rfl rfl rfl rfl rfl rfl rfl rfl (errByte_le hk) (logged_reserved k h.faultlog) rfl rfl

theorem State.Inv.complete {s : State} (h : s.Inv) : s.complete.Inv :=
  h.of_eq rfl rfl rfl rfl rfl rfl rfl rfl (Nat.zero_le _) h.faultlog rfl rfl

theorem State.Inv.accessError {s : State} (h : s.Inv) : s.accessError.Inv :=
  h.of_eq rfl rfl rfl rfl rfl rfl rfl rfl h.lasterr (logged_reserved .bus h.faultlog) rfl rfl

theorem State.Inv.setRes {s : State} (h : s.Inv) (r : Results) : (s.setRes r).Inv :=
  h.of_eq rfl rfl rfl rfl rfl rfl rfl rfl h.lasterr h.faultlog rfl rfl

theorem State.Inv.setLast {s : State} (h : s.Inv) (g : Gains) : (s.setLast g).Inv :=
  h.of_eq rfl rfl rfl rfl rfl rfl rfl rfl h.lasterr h.faultlog rfl rfl

theorem State.Inv.setPcur {s : State} (h : s.Inv) (i : Fin 5) (v : Word) : (s.setPcur i v).Inv :=
  h.of_eq rfl rfl rfl rfl rfl rfl rfl rfl h.lasterr h.faultlog rfl rfl

theorem State.Inv.setArg {s : State} (h : s.Inv) (k : Fin 4) (v : Word) : (s.setArg k v).Inv :=
  h.of_eq rfl rfl rfl rfl rfl rfl rfl rfl h.lasterr h.faultlog rfl rfl

theorem State.Inv.setReadData {s : State} (h : s.Inv) (w : Word) : (s.setReadData w).Inv :=
  h.of_eq rfl rfl rfl rfl rfl rfl rfl rfl h.lasterr h.faultlog rfl rfl

theorem State.Inv.setInbox {s : State} (h : s.Inv) (rest : List Action) : (s.setInbox rest).Inv :=
  h.of_eq rfl rfl rfl rfl rfl rfl rfl rfl h.lasterr h.faultlog rfl rfl

/-- A cursor below the capacity may be written. -/
theorem State.Inv.setWcur {s : State} (h : s.Inv) (hp : s.prepared = true) {n : Nat} (hn : n < u s.cap) :
    (s.setWcur n).Inv where
  hardware := h.hardware
  unprepared hu := absurd (hp.symm.trans hu) (by decide)
  prepared _ := by
    obtain ⟨h1, h2, h3, h4, h5, _⟩ := h.prepared hp
    refine ⟨h1, h2, h3, h4, h5, ?_⟩
    show (BitVec.ofNat 32 n).toNat < _
    rw [BitVec.toNat_ofNat]
    exact lt_of_le_of_lt (Nat.mod_le _ _) hn
  defaults := h.defaults
  lasterr := h.lasterr
  faultlog := h.faultlog
  ringForm := h.ringForm
  bufForm := h.bufForm
  ringRegion := h.ringRegion
  ringPlace := h.ringPlace
  bufPlace := h.bufPlace

/-- Buffers in form, listing only elements that exist, may be put in. -/
theorem State.Inv.setBuf {s : State} (h : s.Inv) {m : Buffers} (hm : m.cells.wf bufUnlisted = true)
    (hp : BufPlaced s.hw m) : (s.setBuf m).Inv :=
  { h with bufForm := hm, bufPlace := hp }

/-- A ring of the same region, in form, listing only elements of it, may be put in. -/
theorem State.Inv.setRing {s : State} (h : s.Inv) {r : Ring} (hr : r.rows = s.ring.rows ∧ r.width = s.ring.width)
    (hm : RingForm s.hw r) (hp : RingPlaced s.hw r) : (s.setRing r).Inv :=
  { h with
    ringForm := hm, ringPlace := hp, ringRegion := ⟨hr.1.trans h.ringRegion.1, hr.2.trans h.ringRegion.2⟩ }

/-- A failed PREPARE. -/
theorem State.Inv.unprepare {s : State} (h : s.Inv) : s.unprepare.Inv where
  hardware := h.hardware
  unprepared _ := ⟨rfl, rfl, rfl, rfl, rfl⟩
  prepared hp := (Bool.false_ne_true hp).elim
  defaults := h.defaults
  lasterr := h.lasterr
  faultlog := h.faultlog
  ringForm := ringForm_ringLose _ _
  bufForm := h.bufForm
  ringRegion := ⟨rfl, rfl⟩
  ringPlace := RingPlaced.lose _ _
  bufPlace := h.bufPlace

/-- The reset input. -/
theorem State.Inv.resetPulse {s : State} (h : s.Inv) : (resetPulse s).Inv where
  hardware := h.hardware
  unprepared _ := ⟨rfl, rfl, rfl, rfl, rfl⟩
  prepared hp := (Bool.false_ne_true hp).elim
  defaults := rfl
  lasterr := Nat.zero_le _
  faultlog := by show 0#32 &&& 0xFFFFFF81#32 = 0#32; decide
  ringForm := ringForm_ringLose _ _
  bufForm := rfl
  ringRegion := ⟨rfl, rfl⟩
  ringPlace := RingPlaced.lose _ _
  bufPlace _ hc := nomatch hc

end Sys2Proof.Machine
end

