-- ==== Sys2Proof/Laws/PerInstr.lean ====
section
/-! SUPPORT. Statements about every command as syntax, one lemma per constructor (LAWS.json). -/

namespace Sys2Proof.Laws.EncodeMatchesRow

open Sys2Proof Sys2Proof.Machine

/-- The command's encoding matches its row of `30_encoding.md` R58: its opcode is the one its mnemonic names, and the
word passes the mask test of the row's format (R56). -/
def Statement (i : Instr) : Prop :=
  opcodeNamed (mnemonic i) = some (opcField (encode i)) ∧
    ∃ fmt, formatOf (opcField (encode i)) = some fmt ∧ encode i &&& fmt.mask = (opcField (encode i)).setWidth 32

theorem nop : Statement .nop := by
  refine ⟨?_, .z, ?_, ?_⟩ <;> decide

theorem prepare : Statement .prepare := by
  refine ⟨?_, .z, ?_, ?_⟩ <;> decide

theorem process : Statement .process := by
  refine ⟨?_, .z, ?_, ?_⟩ <;> decide

theorem getpcount : Statement .getpcount := by
  refine ⟨?_, .z, ?_, ?_⟩ <;> decide

theorem getparam : Statement .getparam := by
  refine ⟨?_, .z, ?_, ?_⟩ <;> decide

theorem setparam : Statement .setparam := by
  refine ⟨?_, .z, ?_, ?_⟩ <;> decide

theorem savestate : Statement .savestate := by
  refine ⟨?_, .z, ?_, ?_⟩ <;> decide

theorem loadstate : Statement .loadstate := by
  refine ⟨?_, .z, ?_, ?_⟩ <;> decide

theorem rbWrite (ch : Nat) (src : BufId) : Statement (.rbWrite ch src) := by
  rw [Statement, encode, opcField_packWord]
  exact ⟨by rw [mnemonic]; decide, .cb, by decide, mask_cb _ _ _⟩

theorem rbWriteRamp (ch : Nat) (src : BufId) : Statement (.rbWriteRamp ch src) := by
  rw [Statement, encode, opcField_packWord]
  exact ⟨by rw [mnemonic]; decide, .cb, by decide, mask_cb _ _ _⟩

theorem rbReadaddRamp (ch : Nat) (b : BufId) : Statement (.rbReadaddRamp ch b) := by
  rw [Statement, encode, opcField_packWord]
  exact ⟨by rw [mnemonic]; decide, .ca, by decide, mask_ca _ _ _⟩

theorem rbRdpos : Statement .rbRdpos := by
  refine ⟨?_, .z, ?_, ?_⟩ <;> decide

theorem cursorAdv : Statement .cursorAdv := by
  refine ⟨?_, .z, ?_, ?_⟩ <;> decide

theorem ratediv : Statement .ratediv := by
  refine ⟨?_, .z, ?_, ?_⟩ <;> decide

theorem decimate (ch : Nat) (b : BufId) : Statement (.decimate ch b) := by
  rw [Statement, encode, opcField_packWord]
  exact ⟨by rw [mnemonic]; decide, .ca, by decide, mask_ca _ _ _⟩

theorem decimateBlk (ch : Nat) (b : BufId) : Statement (.decimateBlk ch b) := by
  rw [Statement, encode, opcField_packWord]
  exact ⟨by rw [mnemonic]; decide, .ca, by decide, mask_ca _ _ _⟩

theorem bufCopy (ch : Nat) (dst src : BufId) : Statement (.bufCopy ch dst src) := by
  rw [Statement, encode, opcField_packWord]
  exact ⟨by rw [mnemonic]; decide, .cab, by decide, mask_cab _ _ _ _⟩

theorem bufSub (ch : Nat) (dst src : BufId) : Statement (.bufSub ch dst src) := by
  rw [Statement, encode, opcField_packWord]
  exact ⟨by rw [mnemonic]; decide, .cab, by decide, mask_cab _ _ _ _⟩

theorem bufCopyRamp (ch : Nat) (dst src : BufId) : Statement (.bufCopyRamp ch dst src) := by
  rw [Statement, encode, opcField_packWord]
  exact ⟨by rw [mnemonic]; decide, .cab, by decide, mask_cab _ _ _ _⟩

theorem bufAddRamp (ch : Nat) (dst src : BufId) : Statement (.bufAddRamp ch dst src) := by
  rw [Statement, encode, opcField_packWord]
  exact ⟨by rw [mnemonic]; decide, .cab, by decide, mask_cab _ _ _ _⟩

theorem rampCommit : Statement .rampCommit := by
  refine ⟨?_, .z, ?_, ?_⟩ <;> decide

end Sys2Proof.Laws.EncodeMatchesRow
end

