-- ==== Sys2Proof/Tests/Slice0.lean ====
section
/-! SUPPORT. Tests: WellFormed, the decoding of hand-written words, single commands against the vectors of
`95_test_vectors.md`, and for each statement with hypotheses a state that meets them. -/

namespace Sys2Proof.Tests

/-! One test at a time: a kernel evaluation waits for every earlier check, and a waiting thread costs its stack. -/

set_option Elab.async false

open Sys2Proof Sys2Proof.Machine

/-! ### WellFormed: each check refuses an ill-formed term -/

theorem test_channel_16_is_refused : Instr.wellFormed (.rbWrite 16 .io) = false := by decide

theorem test_channel_15_is_accepted : Instr.wellFormed (.bufSub 15 .wet .dry) = true := by decide

/-! ### Decoding: words written out from `30_encoding.md` R55 and R58 as `[31:16]` zero, BB, BA, CH, OPC -/

theorem test_decode_nop : decode 0b00000000000000000000000000000000#32 = .ok .nop := by decide

theorem test_decode_prepare : decode 0b00000000000000000000000000000001#32 = .ok .prepare := by decide

theorem test_decode_process : decode 0b00000000000000000000000000000010#32 = .ok .process := by decide

theorem test_decode_getpcount : decode 0b00000000000000000000000000000011#32 = .ok .getpcount := by decide

theorem test_decode_getparam : decode 0b00000000000000000000000000000100#32 = .ok .getparam := by decide

theorem test_decode_setparam : decode 0b00000000000000000000000000000101#32 = .ok .setparam := by decide

theorem test_decode_savestate : decode 0b00000000000000000000000000000110#32 = .ok .savestate := by decide

theorem test_decode_loadstate : decode 0b00000000000000000000000000000111#32 = .ok .loadstate := by decide

theorem test_decode_rbWrite : decode 0b00000000000000001000001000010000#32 = .ok (.rbWrite 2 .dry) := by decide

theorem test_decode_rbWriteRamp : decode 0b00000000000000000100000100010001#32 = .ok (.rbWriteRamp 1 .wet) := by decide

theorem test_decode_rbReadaddRamp : decode 0b00000000000000000001100100010010#32 = .ok (.rbReadaddRamp 9 .wet) := by decide

theorem test_decode_rbRdpos : decode 0b00000000000000000000000000010011#32 = .ok .rbRdpos := by decide

theorem test_decode_cursorAdv : decode 0b00000000000000000000000000010100#32 = .ok .cursorAdv := by decide

theorem test_decode_ratediv : decode 0b00000000000000000000000000011000#32 = .ok .ratediv := by decide

theorem test_decode_decimate : decode 0b00000000000000000000111100011001#32 = .ok (.decimate 15 .io) := by decide

theorem test_decode_decimateBlk : decode 0b00000000000000000010000000011010#32 = .ok (.decimateBlk 0 .dry) := by decide

theorem test_decode_bufCopy : decode 0b00000000000000001001010000100000#32 = .ok (.bufCopy 4 .wet .dry) := by decide

theorem test_decode_bufSub : decode 0b00000000000000001001000000100001#32 = .ok (.bufSub 0 .wet .dry) := by decide

theorem test_decode_bufCopyRamp : decode 0b00000000000000001000100000100010#32 = .ok (.bufCopyRamp 8 .io .dry) := by decide

theorem test_decode_bufAddRamp : decode 0b00000000000000000110001100100011#32 = .ok (.bufAddRamp 3 .dry .wet) := by decide

theorem test_decode_rampCommit : decode 0b00000000000000000000000000100100#32 = .ok .rampCommit := by decide


/-- The illegal words of V64 that the statements do not list. -/
theorem test_decode_illegal :
    [0x00001024#32, 0x00000F13#32, 0x0000F023#32, 0x00000008#32, 0x0000001B#32, 0x00000025#32, 0x000000FF#32].map
      (fun w => decodeTableWord 32 w.toNat) = [none, none, none, none, none, none, none] := by decide

/-! ### Arithmetic -/

/-- V1. -/
theorem test_fx :
    fx (7 / 10) = 0x00B33333#32 ∧ fx (17 / 10) = 0x01B33333#32 ∧ fx (-7 / 10) = 0xFF4CCCCC#32 ∧ fx 200 = 0x7FFFFFFF#32 ∧
      fx (-200) = 0x80000000#32 := by decide +kernel

/-- V4: rounding to minus infinity and saturation of a scaled word. -/
theorem test_scaled :
    scaled 0xFFFFFFFF#32 0x00800000#32 0x00800000#32 0 1 = 0xFFFFFFFF#32 ∧
      scaled 0xFFFFFFFD#32 0x00800000#32 0x00800000#32 0 1 = 0xFFFFFFFE#32 ∧
      scaled 0x80000000#32 0xFF000000#32 0xFF000000#32 0 1 = 0x7FFFFFFF#32 ∧
      scaled 0x01000000#32 0#32 0x01000000#32 2 3 = 0x00AAAAAA#32 := by decide +kernel

/-- V13, rows 4, 6, 8, 10 and 14. -/
theorem test_quant_modes :
    [0xFF4CCCCC#32, 0xFFFF8000#32, 0x80000000#32, 0xFFFFFFFF#32, 0xFFFEFFFF#32].map
        (fun x => (quant .floor x 8, quant .trunc x 8)) =
      [(0xFF4C0000#32, 0xFF4D0000#32), (0xFFFF0000#32, 0#32), (0x80000000#32, 0x80000000#32), (0xFFFF0000#32, 0#32),
        (0xFFFE0000#32, 0xFFFF0000#32)] := by decide +kernel

/-- V14: bit depths 0, 1, 4, 16, 24. -/
theorem test_quant_depths :
    [0, 1, 4, 16, 24].map (fun bd => (quant .floor 0xFF4CCCCC#32 bd, quant .trunc 0xFF4CCCCC#32 bd)) =
      [(0xFF000000#32, 0#32), (0xFF000000#32, 0xFF800000#32), (0xFF400000#32, 0xFF500000#32),
        (0xFF4CCC00#32, 0xFF4CCD00#32), (0xFF4CCCCC#32, 0xFF4CCCCC#32)] := by decide +kernel

/-! ### Single commands on a small instance -/

/-- Two channels, rings of 16 samples, blocks of 8. -/
def tiny (mode : QuantMode) : Hardware := ⟨2, 16, 8, mode, ⟨0#32, 0#32, 0#32, 0#32, 0#32⟩⟩

/-- `PREPARE 4, mb, 1` done: `CAP` is 8. -/
def ready (mode : QuantMode) (mb : Nat) (a : Args) : State :=
  { State.resetOf (tiny mode) with
    prepared := true, sr := 4#32, cap := 8#32, nch := 1#32, maxblk := BitVec.ofNat 32 mb, arg := a
    ring := ⟨1, 1, 8, []⟩ }

/-- Words put into elements `i, i + 1, ...` of channel 0 of a buffer. -/
def load (hw : Hardware) (b : BufId) : Nat → List Word → Buffers → Buffers
  | _, [], m => m
  | i, w :: ws, m => load hw b (i + 1) ws (m.set hw b 0 i w)

/-- `ready` with words in channel 0 of the IO and WET buffers. -/
def loaded (mode : QuantMode) (a : Args) (io wet : List Word) : State :=
  let s := ready mode 8 a
  s.setBuf (load s.hw .wet 0 wet (load s.hw .io 0 io s.buf))

/-- The state a command leads to. -/
def run (i : Instr) (s : State) : State :=
  match exec i s with
  | .next t => t
  | .fault _ => s
  | .refused _ => s

/-- Elements `0 .. n-1` of channel 0 of a buffer. -/
def bufRow (s : State) (b : BufId) (n : Nat) : List Word := (List.range n).map (s.bufAt b 0)

/-- The ring of channel 0. -/
def ringRow (s : State) : List Word := (List.range (u s.cap)).map (s.ringAt 0)

def fiveWords : List Word := [0x00060000#32, 0x00070000#32, 0x00080000#32, 0x00090000#32, 0x000A0000#32]

def ones (n : Nat) : List Word := List.replicate n 0x01000000#32

/-- V21: the write wraps after three samples. -/
theorem test_rbWrite_wraps :
    ringRow (run (.rbWrite 0 .io) (loaded .floor ⟨5#32, 5#32, 0#32, 0#32⟩ fiveWords [])) =
      [0x00090000#32, 0x000A0000#32, 0#32, 0#32, 0#32, 0x00060000#32, 0x00070000#32, 0x00080000#32] := by decide +kernel

/-- V29: a start index equal to CAP. -/
theorem test_rbWrite_start : (run (.rbWrite 0 .io) (ready .floor 8 ⟨8#32, 1#32, 0#32, 0#32⟩)).lasterr = 3#8 := by
  decide +kernel

/-- V22: the ramp continues across the wrap. -/
theorem test_rbWriteRamp_wraps :
    ringRow (run (.rbWriteRamp 0 .io) (loaded .floor ⟨5#32, 6#32, 0#32, 0x00C00000#32⟩ (ones 6) [])) =
      [0x00600000#32, 0x00800000#32, 0x00A00000#32, 0#32, 0#32, 0#32, 0x00200000#32, 0x00400000#32] := by decide +kernel

/-- V24, from the ring V22 leaves. -/
theorem test_rbReadaddRamp :
    let s := run (.rbWriteRamp 0 .io)
      (loaded .floor ⟨5#32, 6#32, 0#32, 0x00C00000#32⟩ (ones 6) (List.replicate 4 0x00100000#32))
    bufRow (run (.rbReadaddRamp 0 .wet) { s with arg := ⟨6#32, 4#32, 0x01000000#32, 0#32⟩ }) .wet 4 =
      [0x00300000#32, 0x00400000#32, 0x00400000#32, 0x00300000#32] := by decide +kernel

/-- `PREPARE sr, 16, 1` done on an instance of the default depth, with a cursor and a `time` word. -/
def at_ (sr wcur : Nat) (time : Word) : State :=
  { State.resetOf ⟨2, 384000, 16, .floor, ⟨0#32, 0#32, 0#32, 0#32, 0#32⟩⟩ with
    prepared := true, sr := BitVec.ofNat 32 sr, cap := BitVec.ofNat 32 (2 * sr), nch := 1#32, maxblk := 16#32
    wcur := BitVec.ofNat 32 wcur, pcur := ⟨time, 0#32, 0#32, 0#32, 0#32⟩ }

/-- V25, rows 2, 3, 8 and 9. -/
theorem test_rbRdpos :
    [at_ 44100 100 0x01B33333#32, at_ 44100 0 0x03000000#32, at_ 44100 0 0xFF000001#32, at_ 44100 0 0xFFFFFFFF#32].map
        (fun s => ((run .rbRdpos s).res.r1, (run .rbRdpos s).res.r0)) =
      [(0x000124D9#32, 13331#32), (132300#32, 44100#32), (0xFFFF53BC#32, 44100#32), (0xFFFFFFFF#32, 1#32)] := by
  decide +kernel

/-- V26: 5 from 5 wraps to 2, and 9 is beyond CAP. -/
theorem test_cursorAdv :
    let s := ready .floor 8 ⟨0#32, 5#32, 0#32, 0#32⟩
    (run .cursorAdv { s with wcur := 5#32 }).wcur = 2#32 ∧
      run .cursorAdv { s with wcur := 2#32, arg := ⟨0#32, 9#32, 0#32, 0#32⟩ } =
        { s with wcur := 2#32, arg := ⟨0#32, 9#32, 0#32, 0#32⟩, lasterr := 3#8, faultlog := 8#32 } := by decide +kernel

/-- V30, rows 3, 4, 5, 11 and 14. -/
theorem test_ratediv :
    [at_ 44100 0 0x01B33333#32, at_ 44100 0 0xFF000000#32, at_ 44100 0 0x01FFFFFF#32, at_ 192000 0 0x01FFFFFF#32,
        at_ 22049 0 0#32].map (fun s => (run .ratediv s).res.r0) =
      [13#32, 1#32, 0x04000000#32, 0x116A3B35#32, 0#32] := by decide +kernel

/-- V30, row 6. -/
theorem test_ratediv_undefined :
    (run .ratediv (at_ 44100 0 0x02000000#32)).lasterr = 4#8 ∧ (run .ratediv (at_ 44100 0 0x02000000#32)).faultlog = 0x10#32 := by
  decide +kernel

def tenSamples : List Word :=
  [0x00123456#32, 0x00234567#32, 0x00345678#32, 0x00456789#32, 0xFFEDCBA9#32, 0xFFDCBA98#32, 0xFFCBA987#32, 0xFFBA9876#32]

/-- V32: the hold copies index 4 as it stands. -/
theorem test_decimate_holds :
    (run (.decimate 0 .wet) (loaded .floor ⟨5#32, 0#32, 4#32, 8#32⟩ [] tenSamples)).bufAt .wet 0 5 = 0xFFEDCBA9#32 := by
  decide +kernel

/-- V32 and V34: a multiple of the divider is quantized; bit depth 25 is refused. -/
theorem test_decimate_quantizes :
    (run (.decimate 0 .wet) (loaded .trunc ⟨4#32, 0#32, 4#32, 8#32⟩ [] tenSamples)).bufAt .wet 0 4 = 0xFFEE0000#32 ∧
      (run (.decimate 0 .wet) (ready .floor 8 ⟨0#32, 0#32, 4#32, 25#32⟩)).lasterr = 3#8 := by decide +kernel

/-- V35, divider 4. -/
theorem test_decimateBlk :
    bufRow (run (.decimateBlk 0 .io) (loaded .floor ⟨0#32, 8#32, 4#32, 8#32⟩ tenSamples [])) .io 8 =
      [0x00120000#32, 0x00120000#32, 0x00120000#32, 0x00120000#32, 0xFFED0000#32, 0xFFED0000#32, 0xFFED0000#32,
        0xFFED0000#32] := by decide +kernel

/-- V35, divider 3, `trunc`. -/
theorem test_decimateBlk_trunc :
    bufRow (run (.decimateBlk 0 .io) (loaded .trunc ⟨0#32, 8#32, 3#32, 8#32⟩ tenSamples [])) .io 8 =
      [0x00120000#32, 0x00120000#32, 0x00120000#32, 0x00450000#32, 0x00450000#32, 0x00450000#32, 0xFFCC0000#32,
        0xFFCC0000#32] := by decide +kernel

/-- V40: three elements are copied and the fourth is not. -/
theorem test_bufCopy :
    bufRow (run (.bufCopy 0 .wet .io) (loaded .floor ⟨0#32, 3#32, 0#32, 0#32⟩
      [0x00000001#32, 0x80000000#32, 0x7FFFFFFF#32, 0x00000005#32] (ones 4))) .wet 4 =
      [0x00000001#32, 0x80000000#32, 0x7FFFFFFF#32, 0x01000000#32] := by decide +kernel

/-- V41, WET less IO. -/
theorem test_bufSub :
    bufRow (run (.bufSub 0 .wet .io) (loaded .floor ⟨0#32, 4#32, 0#32, 0#32⟩
      [0x00018000#32, 0x00028000#32, 0xFF000000#32, 0x01000000#32]
      [0x0001C000#32, 0x00010000#32, 0x7FFFFFFF#32, 0x80000000#32])) .wet 4 =
      [0x00004000#32, 0xFFFE8000#32, 0x7FFFFFFF#32, 0x80000000#32] := by decide +kernel

/-- V43. -/
theorem test_bufCopyRamp :
    bufRow (run (.bufCopyRamp 0 .wet .io) (loaded .floor ⟨0#32, 4#32, 0x00B33333#32, 0x00599999#32⟩ (ones 4) [])) .wet 4 =
      [0x00B33333#32, 0x009CCCCC#32, 0x00866666#32, 0x006FFFFF#32] := by decide +kernel

/-- V45. -/
theorem test_bufAddRamp :
    bufRow (run (.bufAddRamp 0 .io .wet) (loaded .floor ⟨0#32, 4#32, 0x01000000#32, 0#32⟩ (List.replicate 4 0x00100000#32)
      (ones 4))) .io 4 = [0x01100000#32, 0x00D00000#32, 0x00900000#32, 0x00500000#32] := by decide +kernel

/-- V46, before PREPARE. -/
theorem test_rampCommit :
    (run .rampCommit { State.resetOf (tiny .floor) with
      pcur := ⟨0x01000000#32, 0x00B33333#32, 0x00800000#32, 0x00B33333#32, 0x00B33334#32⟩ }).last =
      ⟨0x00B33333#32, 0x00800000#32, 0x00B33333#32, 0x00B33334#32⟩ := by decide

/-- V48: the first block after reset. -/
theorem test_process_first_block :
    let t := run .process { loaded .floor ⟨0#32, 4#32, 1#32, 0#32⟩ (ones 4) [] with
      pcur := ⟨0x01000000#32, 0x00800000#32, 0x00800000#32, 0x01000000#32, 0x01000000#32⟩ }
    bufRow t .io 4 = [0#32, 0x00400000#32, 0x00800000#32, 0x00C00000#32] ∧ bufRow t .wet 4 = [0#32, 0#32, 0#32, 0#32] ∧
      ringRow t = [0#32, 0x00200000#32, 0x00400000#32, 0x00600000#32, 0#32, 0#32, 0#32, 0#32] ∧ t.wcur = 4#32 ∧
      t.last = ⟨0x00800000#32, 0x00800000#32, 0x01000000#32, 0x01000000#32⟩ := by decide +kernel

/-- P6, block 0: a delay of two samples in a block of four. -/
theorem test_process_short_delay :
    let t := run .process { loaded .floor ⟨0#32, 4#32, 1#32, 0#32⟩ [0x01000000#32, 0#32, 0#32, 0#32] [] with
      pcur := ⟨0x00800000#32, 0x01000000#32, 0x00800000#32, 0#32, 0x01000000#32⟩
      last := ⟨0x01000000#32, 0x00800000#32, 0#32, 0x01000000#32⟩ }
    bufRow t .io 4 = [0#32, 0#32, 0x00800000#32, 0#32] ∧
      ringRow t = [0x01000000#32, 0#32, 0x00800000#32, 0#32, 0#32, 0#32, 0#32, 0#32] := by decide +kernel

/-- V56 on the small instance: the smallest ring; and the largest it has. -/
theorem test_prepare :
    let s := run .prepare (ready .floor 8 ⟨1#32, 0#32, 0#32, 0#32⟩)
    let t := run .prepare (ready .floor 8 ⟨8#32, 8#32, 2#32, 0#32⟩)
    s.cap = 2#32 ∧ s.lasterr = 0#8 ∧ s.prepared = true ∧ t.cap = 16#32 ∧ t.nch = 2#32 ∧ t.maxblk = 8#32 := by
  decide +kernel

/-- V57: `E_ALLOC` un-prepares, and `sampleRate = 0` is checked before the sizes and changes nothing. -/
theorem test_prepare_faults :
    let s := run .prepare (ready .floor 8 ⟨9#32, 8#32, 2#32, 0#32⟩)
    s.prepared = false ∧ s.cap = 0#32 ∧ s.maxblk = 0#32 ∧ statusWord s.prepared s.lasterr = 0x00000500#32 ∧
      run .prepare (ready .floor 8 ⟨0#32, 8#32, 3#32, 0#32⟩) =
        { ready .floor 8 ⟨0#32, 8#32, 3#32, 0#32⟩ with lasterr := 3#8, faultlog := 8#32 } := by decide +kernel

/-- V59, V62. -/
theorem test_getpcount_savestate :
    (run .getpcount (ready .floor 8 ⟨0#32, 0#32, 0#32, 0#32⟩)).res = ⟨5#32, 0#32, 0#32⟩ ∧
      (run .savestate { ready .floor 8 ⟨0#32, 0#32, 0#32, 0#32⟩ with res := ⟨7#32, 8#32, 9#32⟩ }).res = ⟨0#32, 8#32, 9#32⟩ := by
  decide

/-- V62: `LOADSTATE 64` and NOP change nothing but LASTERR. -/
theorem test_loadstate_nop :
    let s := { ready .floor 8 ⟨0#32, 64#32, 0#32, 0#32⟩ with lasterr := 3#8, faultlog := 8#32 }
    run .loadstate s = { s with lasterr := 0#8 } ∧ run .nop s = { s with lasterr := 0#8 } := by decide

/-- V60. -/
theorem test_getparam :
    (run .getparam { ready .floor 8 ⟨2#32, 0#32, 0#32, 0#32⟩ with
      pcur := ⟨1#32, 2#32, 0x00800000#32, 3#32, 4#32⟩, pdef := ⟨5#32, 6#32, 7#32, 8#32, 9#32⟩ }).res =
        ⟨2#32, 7#32, 0x00800000#32⟩ ∧
      (run .getparam (ready .floor 8 ⟨5#32, 0#32, 0#32, 0#32⟩)).lasterr = 3#8 := by decide

/-- V61. -/
theorem test_setparam :
    (run .setparam (ready .floor 8 ⟨4#32, 0x00B33333#32, 0#32, 0#32⟩)).pcur = ⟨0#32, 0#32, 0#32, 0#32, 0x00B33333#32⟩ ∧
      (run .setparam (ready .floor 8 ⟨0#32, 0x02000000#32, 0#32, 0#32⟩)).pcur.time = 0x02000000#32 := by decide

/-- V65: the decoder comes before the prepared check, that before the operands, those before the rate. -/
theorem test_fault_priority :
    (run .process { State.resetOf (tiny .floor) with arg := ⟨0#32, 99999#32, 9#32, 0#32⟩ }).lasterr = 2#8 ∧
      (run .process { ready .floor 8 ⟨0#32, 9#32, 1#32, 0#32⟩ with
        pcur := ⟨0x02000000#32, 0#32, 0#32, 0#32, 0#32⟩ }).lasterr = 3#8 ∧
      (run .process { ready .floor 8 ⟨0#32, 0#32, 0#32, 0#32⟩ with
        pcur := ⟨0x02000000#32, 0#32, 0#32, 0#32, 0#32⟩ }).lasterr = 4#8 := by decide +kernel

/-- One pending action, taken by one step. -/
def act (s : State) (a : Action) : Option State := { s with inbox := [a] }.after 1

/-- V65, V66: an illegal word; reads of CMD, of an unmapped and of a misaligned address, and a write to SR. -/
theorem test_bus :
    let s := State.resetOf (tiny .floor)
    act s (.hostWrite 0x00C 0x00010002#32) = some { s with lasterr := 1#8, faultlog := 2#32 } ∧
      [0x00C, 0x02C, 0x006].map (fun a => act s (.hostRead a)) =
        [some { s with faultlog := 0x40#32, readData := some 0#32 }, some { s with faultlog := 0x40#32, readData := some 0#32 },
          some { s with faultlog := 0x40#32, readData := some 0#32 }] ∧
      act s (.hostWrite 0x030 1#32) = some { s with faultlog := 0x40#32 } ∧
      act s (.hostRead 0x000) = some { s with readData := some 0x42444C59#32 } := by decide +kernel

/-- The step from reset runs the word the host reads the opcode table by. -/
theorem test_fetch_runs_word : step (State.reset.withFetchWord 32 0x24) = exec .rampCommit State.reset := by rfl

/-- `92_eei_decisions.md` D21: a byte write to CMD runs nothing, and a half-word read of a register returns 0; both are
logged. -/
theorem test_narrow :
    let s := State.resetOf (tiny .floor)
    act s (.narrowWrite .byte 0x00C 0x00000003#32) = some { s with faultlog := 0x40#32 } ∧
      act s (.narrowRead .halfword 0x000) = some { s with faultlog := 0x40#32, readData := some 0#32 } := by decide

/-! ### For each statement with hypotheses, states and operands that meet them, at the ends of each clause's range -/

theorem ready_inv (mode : QuantMode) (mb : Nat) (a : Args) (h : mb ≤ 8) : (ready mode mb a).Inv where
  hardware := by cases mode <;> rfl
  unprepared hp := (Bool.false_ne_true hp.symm).elim
  prepared _ := by
    refine ⟨(by decide : 1 ≤ u 4#32), (by decide : u 8#32 = 2 * u 4#32),
      (by decide : u 8#32 ≤ 16), (by decide : u 1#32 ≤ 2), ?_, (by decide : u 0#32 < u 8#32)⟩
    show (BitVec.ofNat 32 mb).toNat ≤ 8
    rw [BitVec.toNat_ofNat]
    exact le_trans (Nat.mod_le _ _) h
  defaults := rfl
  lasterr := Nat.zero_le _
  faultlog := by show 0#32 &&& 0xFFFFFF81#32 = 0#32; decide
  ringForm := rfl
  bufForm := rfl
  ringRegion := ⟨(by decide : 1 = u 1#32), (by decide : 8 = u 8#32)⟩
  ringPlace _ hc := nomatch hc
  bufPlace _ hc := nomatch hc

/-- `ready` with other parameters, gain-ramp state and pending actions. -/
def tuned (mb : Nat) (a : Args) (p : Params) (inbox : List Action) : State :=
  { ready .floor mb a with pcur := p, inbox := inbox }

theorem tuned_inv (mb : Nat) (a : Args) (p : Params) (inbox : List Action) (h : mb ≤ 8) : (tuned mb a p inbox).Inv :=
  (ready_inv .floor mb a h).of_eq rfl rfl rfl rfl rfl rfl rfl rfl (Nat.zero_le _)
    (by show 0#32 &&& 0xFFFFFF81#32 = 0#32; decide) rfl rfl

/-- `ready` with operands only. -/
def ops (a0 a1 a2 a3 : Word) : State := ready .floor 8 ⟨a0, a1, a2, a3⟩

theorem ops_inv (a0 a1 a2 a3 : Word) : (ops a0 a1 a2 a3).Inv := ready_inv .floor 8 _ (le_refl _)

/-- Nothing prepared. -/
def bare (a0 a1 a2 a3 : Word) : State := { State.resetOf (tiny .floor) with arg := ⟨a0, a1, a2, a3⟩ }

/-- Prepared with `time` just below 2.0, for a block of `n` samples of `k` channels. -/
def block (n k : Word) : State := tuned 8 ⟨0#32, n, k, 0#32⟩ ⟨0x01FFFFFF#32, 1#32, 2#32, 3#32, 4#32⟩ []

theorem block_inv (n k : Word) : (block n k).Inv := tuned_inv 8 _ _ _ (le_refl _)

theorem block_runs (n k : Word) (hn : u n ≤ 8) (hk : u k ≤ 1) : ProcessRuns (block n k) :=
  ⟨rfl, hn, hn, hk, by show val 0x01FFFFFF#32 < 2; decide +kernel⟩

/-- Every command answers a next state. -/
theorem run_spec (i : Instr) (s : State) : exec i s = .next (run i s) := by
  unfold run
  cases h : exec i s with
  | next t => rfl
  | fault f => cases f
  | refused r =>
    exfalso
    cases i <;> first
      | cases h
      | (rcases exec_getparam s with ⟨_, h'⟩ | ⟨_, _, h'⟩ <;> rw [h'] at h <;> cases h)
      | (rcases exec_setparam s with ⟨_, h'⟩ | ⟨_, _, h'⟩ <;> rw [h'] at h <;> cases h)
      | (rw [exec_prepare] at h; split at h <;> first | cases h | (split at h <;> cases h))

theorem witness_DecodeExactlyInvertsEncode :
    decode 0x0000AF23#32 = .ok (.bufAddRamp 15 .dry .dry) ∧ Instr.wellFormed (.bufAddRamp 15 .dry .dry) = true ∧
      encode (.bufAddRamp 15 .dry .dry) = 0x0000AF23#32 := by decide

theorem witness_IllegalWordsFaultAndLegalWordsDecode :
    legalWord 0x0000AF23#32 ∧ legalWord 0x00000024#32 ∧ ¬ legalWord 0x0000EF23#32 ∧ ¬ legalWord 0x00010024#32 ∧
      ¬ legalWord 0x00000025#32 ∧ ¬ legalWord 0x00001010#32 := by
  simp only [legalWord]
  refine ⟨?_, ?_, ?_, ?_, ?_, ?_⟩ <;> decide

theorem witness_StepRunsDecodedCommand :
    (tuned 8 ⟨0#32, 0#32, 0#32, 0#32⟩ ⟨0#32, 0#32, 0#32, 0#32, 0#32⟩ [.hostWrite 0x00C 0x24#32, .resetInput]).inbox =
        .hostWrite 0x00C 0x24#32 :: [.resetInput] ∧ decode 0x24#32 = .ok .rampCommit := ⟨rfl, by decide⟩

theorem witness_EveryStepGoesOn :
    (ops 0#32 0#32 0#32 0#32).inbox = [] ∧
      ∃ t, (tuned 8 ⟨0#32, 0#32, 0#32, 0#32⟩ ⟨0#32, 0#32, 0#32, 0#32, 0#32⟩ [.hostRead 6]).inbox = .hostRead 6 :: [] ∧
        step (tuned 8 ⟨0#32, 0#32, 0#32, 0#32⟩ ⟨0#32, 0#32, 0#32, 0#32, 0#32⟩ [.hostRead 6]) = .next t :=
  ⟨rfl, _, rfl, rfl⟩

theorem witness_AssembledLineRunsCommand :
    Instr.wellFormed (.rbWrite 15 .dry) = true ∧ [7#32, 8#32].length = (argsUsed (.rbWrite 15 .dry)).length ∧
      ∃ t, exec (.rbWrite 15 .dry) { ops 0#32 0#32 0#32 0#32 with
        inbox := []
        arg := (List.zip (argsUsed (.rbWrite 15 .dry)) [7#32, 8#32]).foldl (fun a kw => a.set kw.1 kw.2)
          (ops 0#32 0#32 0#32 0#32).arg } = .next t :=
  ⟨by decide, by decide, _, run_spec _ _⟩

theorem witness_GetparamReturnsParameter :
    u (ops 4#32 0#32 0#32 0#32).arg.a0 = (4 : Fin 5).val ∧ 5 ≤ u (ops 5#32 0#32 0#32 0#32).arg.a0 := by decide

theorem witness_SetparamStoresAsGiven :
    u (ops 0#32 0x80000000#32 0#32 0#32).arg.a0 = (0 : Fin 5).val ∧ u (ops 4#32 0#32 0#32 0#32).arg.a0 = (4 : Fin 5).val ∧
      5 ≤ u (ops 5#32 0#32 0#32 0#32).arg.a0 := by decide

/-- The smallest and the largest request this instance can meet. -/
theorem witness_PrepareAllocatesAndClears :
    let s := bare 8#32 8#32 2#32 0#32
    let t := bare 1#32 0#32 0#32 0#32
    (s.hw.ok = true ∧ 1 ≤ u s.arg.a0 ∧ 2 * u s.arg.a0 ≤ s.hw.ringDepth ∧ u s.arg.a2 ≤ s.hw.maxCh ∧
      u s.arg.a1 ≤ s.hw.blkDepth) ∧
    (t.hw.ok = true ∧ 1 ≤ u t.arg.a0 ∧ 2 * u t.arg.a0 ≤ t.hw.ringDepth ∧ u t.arg.a2 ≤ t.hw.maxCh ∧
      u t.arg.a1 ≤ t.hw.blkDepth) := by decide

theorem witness_PrepareRefusesBadRequests :
    u (ops 0#32 9#32 0#32 0#32).arg.a0 = 0 ∧
      (1 ≤ u (ops 9#32 0#32 0#32 0#32).arg.a0 ∧
        (ops 9#32 0#32 0#32 0#32).hw.ringDepth < 2 * u (ops 9#32 0#32 0#32 0#32).arg.a0) ∧
      (1 ≤ u (ops 1#32 0#32 3#32 0#32).arg.a0 ∧ (ops 1#32 0#32 3#32 0#32).hw.maxCh < u (ops 1#32 0#32 3#32 0#32).arg.a2) ∧
      (1 ≤ u (ops 1#32 9#32 0#32 0#32).arg.a0 ∧ (ops 1#32 9#32 0#32 0#32).hw.blkDepth < u (ops 1#32 9#32 0#32 0#32).arg.a1) := by
  decide

/-- The hypotheses of a ring command's effect: the last start index, and a length of the whole ring and of nothing. -/
theorem ring_completes (len : Word) (h : u len ≤ 8) :
    let s := ops 7#32 len 0x01000000#32 0x01000000#32
    s.Inv ∧ s.prepared = true ∧ 0 < u s.nch ∧ u s.arg.a0 < u s.cap ∧ u s.arg.a1 ≤ u s.cap ∧ u s.arg.a1 ≤ u s.maxblk :=
  ⟨ops_inv _ _ _ _, rfl, (by decide : 0 < u 1#32), (by decide : u 7#32 < u 8#32), h, h⟩

/-- The hypotheses of a ring command's faults: not prepared; channel, start, length beyond CAP, length beyond MAXBLK. -/
theorem ring_faults :
    (bare 0#32 0#32 0#32 0#32).prepared = false ∧
      ((ops 7#32 8#32 0#32 0#32).prepared = true ∧ u (ops 7#32 8#32 0#32 0#32).nch ≤ 1) ∧
      ((ops 8#32 0#32 0#32 0#32).prepared = true ∧ u (ops 8#32 0#32 0#32 0#32).cap ≤ u (ops 8#32 0#32 0#32 0#32).arg.a0) ∧
      ((ops 0#32 9#32 0#32 0#32).prepared = true ∧ u (ops 0#32 9#32 0#32 0#32).cap < u (ops 0#32 9#32 0#32 0#32).arg.a1) ∧
      (let s := ready .floor 4 ⟨0#32, 5#32, 0#32, 0#32⟩
       s.prepared = true ∧ u s.arg.a1 ≤ u s.cap ∧ u s.maxblk < u s.arg.a1) := by decide

theorem witness_RbWriteStoresSamples :
    (∃ s : State, s.Inv ∧ s.prepared = true ∧ 0 < u s.nch ∧ u s.arg.a0 < u s.cap ∧ u s.arg.a1 ≤ u s.cap ∧
      u s.arg.a1 ≤ u s.maxblk) ∧
    (∃ s : State, s.prepared = false) ∧
    (∃ s : State, s.prepared = true ∧ u s.cap ≤ u s.arg.a0) ∧ (∃ s : State, s.prepared = true ∧ u s.nch ≤ 1) :=
  ⟨⟨_, ring_completes 8#32 (by decide)⟩, ⟨_, ring_faults.1⟩, ⟨_, ring_faults.2.2.1⟩, ⟨_, ring_faults.2.1⟩⟩

theorem witness_RbWriteRampStoresScaledSamples :
    (∃ s : State, s.Inv ∧ s.prepared = true ∧ 0 < u s.nch ∧ u s.arg.a0 < u s.cap ∧ u s.arg.a1 ≤ u s.cap ∧
      u s.arg.a1 ≤ u s.maxblk) ∧
    (∃ s : State, s.prepared = false) ∧ (∃ s : State, s.prepared = true ∧ u s.cap < u s.arg.a1) :=
  ⟨⟨_, ring_completes 1#32 (by decide)⟩, ⟨_, ring_faults.1⟩, ⟨_, ring_faults.2.2.2.1⟩⟩

theorem witness_UnityRampWriteEqualsPlainWrite :
    (ops 7#32 8#32 0x01000000#32 0x01000000#32).arg.a2 = 0x01000000#32 ∧
      (ops 7#32 8#32 0x01000000#32 0x01000000#32).arg.a3 = 0x01000000#32 := ⟨rfl, rfl⟩

theorem witness_RbReadaddRampAddsScaledRing :
    (∃ s : State, s.Inv ∧ s.prepared = true ∧ 0 < u s.nch ∧ u s.arg.a0 < u s.cap ∧ u s.arg.a1 ≤ u s.cap ∧
      u s.arg.a1 ≤ u s.maxblk) ∧
    (∃ s : State, s.prepared = false) ∧
    (∃ s : State, s.prepared = true ∧ u s.arg.a1 ≤ u s.cap ∧ u s.maxblk < u s.arg.a1) :=
  ⟨⟨_, ring_completes 0#32 (by decide)⟩, ⟨_, ring_faults.1⟩, ⟨_, ring_faults.2.2.2.2⟩⟩

/-- `time` at both ends of its documented range, and beyond it. -/
theorem witness_RbRdposReturnsReadPosition :
    (bare 0#32 0#32 0#32 0#32).prepared = false ∧ (block 0#32 0#32).prepared = true ∧ (block 0#32 0#32).Inv ∧
      (∀ t ∈ [0#32, 0x01B33333#32], ∃ s : State, s.pcur.time = t ∧ s.Inv ∧ s.prepared = true ∧ 0 ≤ val s.pcur.time ∧
        val s.pcur.time ≤ 17 / 10) := by
  refine ⟨rfl, rfl, block_inv _ _, ?_⟩
  intro t ht
  refine ⟨tuned 8 ⟨0#32, 0#32, 0#32, 0#32⟩ ⟨t, 0#32, 0#32, 0#32, 0#32⟩ [], rfl, tuned_inv 8 _ _ _ (le_refl _), rfl, ?_⟩
  show 0 ≤ val t ∧ val t ≤ 17 / 10
  fin_cases ht <;> decide +kernel

theorem witness_CursorAdvAdvancesModuloCapacity :
    (bare 0#32 0#32 0#32 0#32).prepared = false ∧
      ((ops 0#32 9#32 0#32 0#32).prepared = true ∧ u (ops 0#32 9#32 0#32 0#32).cap < u (ops 0#32 9#32 0#32 0#32).arg.a1) ∧
      (ops 0#32 8#32 0#32 0#32).Inv ∧ (ops 0#32 8#32 0#32 0#32).prepared = true ∧
      u (ops 0#32 8#32 0#32 0#32).arg.a1 ≤ u (ops 0#32 8#32 0#32 0#32).cap :=
  ⟨rfl, by decide, ops_inv _ _ _ _, rfl, by decide⟩

theorem witness_RingAccessSplitsAtTheWrap :
    7 < 8 ∧ 8 ≤ 8 ∧ 0 < 8 ∧ 0 < min 8 (8 - 7) ∧ ringIndex 8 7 0 = 7 + 0 ∧ 8 - 7 ≤ 1 ∧ ringIndex 8 7 1 = 1 - (8 - 7) := by
  decide

/-- One pair of a stream: `len` samples of the IO buffer as it stands. -/
def pair (len : Word) (t : State) : State :=
  run .cursorAdv (run (.rbWrite 0 .io) { t with buf := t.buf, arg := ⟨t.wcur, len, 0#32, 0#32⟩ })

/-- One block of the whole capacity, and two blocks of five of which the second crosses the wrap. -/
theorem witness_RingHoldsTheLastCapacitySamples :
    (∃ (s t : State) (xs : List Word), s.Inv ∧ s.prepared = true ∧ 0 < u s.nch ∧ WritesStream 0 .io s xs t ∧
      u t.cap ≤ xs.length) ∧
    ∃ (s m t : State) (xs ys : List Word), s.Inv ∧ s.prepared = true ∧ 0 < u s.nch ∧ WritesStream 0 .io s xs m ∧
      WritesStream 0 .io s ys t ∧ u t.cap ≤ ys.length ∧ u m.wcur = 5 ∧ u t.wcur = 2 := by
  let s := ops 0#32 0#32 0#32 0#32
  have first : ∀ len : Word, u len ≤ 8 → WritesStream 0 .io s _ (pair len s) := fun len h =>
    .block s.buf len 0#32 0#32 (.start s) h h (run_spec _ _) (run_spec _ _)
  refine ⟨⟨s, pair 8#32 s, _, ops_inv _ _ _ _, rfl, by decide, first 8#32 (by decide), ?_⟩,
    s, pair 5#32 s, pair 5#32 (pair 5#32 s), _, _, ops_inv _ _ _ _, rfl, by decide, first 5#32 (by decide),
    .block (pair 5#32 s).buf 5#32 0#32 0#32 (first 5#32 (by decide)) (by decide +kernel) (by decide +kernel)
      (run_spec _ _) (run_spec _ _), ?_, by decide +kernel, by decide +kernel⟩
  · rw [List.length_append, List.length_map, List.length_range]
    decide +kernel
  · rw [List.length_append, List.length_append, List.length_map, List.length_map, List.length_range]
    decide +kernel

theorem witness_RatedivReturnsDivider :
    (bare 0#32 0#32 0#32 0#32).prepared = false ∧
      ((at_ 44100 0 0x02000000#32).prepared = true ∧ effectiveRate (at_ 44100 0 0x02000000#32).pcur.time ≤ 0) ∧
      (block 0#32 0#32).prepared = true ∧ 0 < effectiveRate (block 0#32 0#32).pcur.time := by
  refine ⟨rfl, ⟨rfl, ?_⟩, rfl, ?_⟩ <;> decide +kernel

/-- The last sample of the block, held from a multiple; with bit depth 24. Faults: channel, index, bit depth. -/
theorem witness_DecimateQuantizesOrHoldsOneSample :
    (let s := ops 7#32 0#32 4#32 24#32
     s.Inv ∧ s.prepared = true ∧ 0 < u s.nch ∧ u s.arg.a0 < u s.maxblk ∧ u s.arg.a3 ≤ 24 ∧
       1 < u s.arg.a2 ∧ u s.arg.a0 % u s.arg.a2 ≠ 0) ∧
    (bare 0#32 0#32 0#32 0#32).prepared = false ∧
    ((ops 0#32 0#32 0#32 0#32).prepared = true ∧ u (ops 0#32 0#32 0#32 0#32).nch ≤ 1) ∧
    u (ops 8#32 0#32 0#32 0#32).maxblk ≤ u (ops 8#32 0#32 0#32 0#32).arg.a0 ∧ 24 < u (ops 0#32 0#32 0#32 25#32).arg.a3 :=
  ⟨⟨ops_inv _ _ _ _, rfl, by decide, by decide, by decide, by decide, by decide⟩, rfl, by decide, by decide, by decide⟩

theorem witness_DecimateBlkHoldsFromMultiples :
    (let s := ops 0#32 8#32 3#32 24#32
     s.Inv ∧ s.prepared = true ∧ 0 < u s.nch ∧ u s.arg.a1 ≤ u s.maxblk ∧ u s.arg.a3 ≤ 24) ∧
    (bare 0#32 0#32 0#32 0#32).prepared = false ∧
    ((ops 0#32 0#32 0#32 0#32).prepared = true ∧ u (ops 0#32 0#32 0#32 0#32).nch ≤ 1) ∧
    u (ops 0#32 9#32 0#32 0#32).maxblk < u (ops 0#32 9#32 0#32 0#32).arg.a1 ∧ 24 < u (ops 0#32 0#32 0#32 25#32).arg.a3 :=
  ⟨⟨ops_inv _ _ _ _, rfl, by decide, by decide, by decide⟩, rfl, by decide, by decide, by decide⟩

theorem witness_DecimateBlkIsIdempotent :
    ∃ s t t' : State, s.Inv ∧ s.prepared = true ∧ 0 < u s.nch ∧ u s.arg.a1 ≤ u s.maxblk ∧ u s.arg.a3 ≤ 24 ∧
      exec (.decimateBlk 0 .wet) s = .next t ∧ exec (.decimateBlk 0 .wet) t = .next t' :=
  ⟨ops 0#32 8#32 3#32 8#32, _, _, ops_inv _ _ _ _, rfl, by decide, by decide, by decide, run_spec _ _, run_spec _ _⟩

/-- A sample not below 0, one on a level, one below 0 off its level; the two ends of the bit depths. -/
theorem witness_QuantizerModesAgreeAndDiffer :
    0 ≤ raw 0x00B33333#32 ∧ raw 0x80000000#32 % quantStep 0 = 0 ∧ raw 0xFFFFFFFF#32 < 0 ∧
      raw 0xFFFFFFFF#32 % quantStep 0 ≠ 0 ∧ raw 0xFFFFFFFF#32 % quantStep 24 = 0 := by decide +kernel

theorem witness_BufCopyAndBufSubStoreBlocks :
    (let s := ops 0#32 8#32 0#32 0#32
     s.Inv ∧ s.prepared = true ∧ 0 < u s.nch ∧ u s.arg.a1 ≤ u s.maxblk) ∧
    (bare 0#32 0#32 0#32 0#32).prepared = false ∧
    ((ops 0#32 0#32 0#32 0#32).prepared = true ∧ u (ops 0#32 0#32 0#32 0#32).nch ≤ 1) ∧
    ((ops 0#32 9#32 0#32 0#32).prepared = true ∧ u (ops 0#32 9#32 0#32 0#32).maxblk < u (ops 0#32 9#32 0#32 0#32).arg.a1) :=
  ⟨⟨ops_inv _ _ _ _, rfl, by decide, by decide⟩, rfl, by decide, by decide⟩

theorem witness_BufRampCommandsStoreScaledBlocks :
    (let s := ops 0#32 1#32 0x80000000#32 0x7FFFFFFF#32
     s.Inv ∧ s.prepared = true ∧ 0 < u s.nch ∧ u s.arg.a1 ≤ u s.maxblk) ∧
    (bare 0#32 0#32 0#32 0#32).prepared = false ∧
    ((ops 0#32 0#32 0#32 0#32).prepared = true ∧ u (ops 0#32 0#32 0#32 0#32).nch ≤ 1) ∧
    ((ops 0#32 9#32 0#32 0#32).prepared = true ∧ u (ops 0#32 9#32 0#32 0#32).maxblk < u (ops 0#32 9#32 0#32 0#32).arg.a1) :=
  ⟨⟨ops_inv _ _ _ _, rfl, by decide, by decide⟩, rfl, by decide, by decide⟩

theorem witness_RampIntegerFormsAreExact : 0 < 1 ∧ 7 < 8 := by decide

theorem witness_FxFloorsAndSaturates :
    (128 : Rat) ≤ 128 ∧ (-129 : Rat) < -128 ∧ (-128 : Rat) ≤ -128 ∧ (-128 : Rat) < 128 := by norm_num

/-- A block of the whole capacity, `time` just below 2.0. -/
theorem witness_ProcessClosedForm : (block 8#32 1#32).Inv ∧ ProcessRuns (block 8#32 1#32) :=
  ⟨block_inv _ _, block_runs _ _ (by decide) (by decide)⟩

theorem witness_ProcessFaultsInOrder :
    (bare 0#32 0#32 0#32 0#32).prepared = false ∧
      (let s := ready .floor 4 ⟨0#32, 5#32, 0#32, 0#32⟩
       s.prepared = true ∧ u s.maxblk < u s.arg.a1) ∧
      (let s := { ready .floor 8 ⟨0#32, 3#32, 0#32, 0#32⟩ with sr := 1#32, cap := 2#32 }
       s.prepared = true ∧ u s.arg.a1 ≤ u s.maxblk ∧ u s.cap < u s.arg.a1) ∧
      ((ops 0#32 0#32 2#32 0#32).prepared = true ∧ u (ops 0#32 0#32 2#32 0#32).nch < u (ops 0#32 0#32 2#32 0#32).arg.a2) ∧
      (let s := tuned 8 ⟨0#32, 0#32, 0#32, 0#32⟩ ⟨0x02000000#32, 0#32, 0#32, 0#32, 0#32⟩ []
       s.prepared = true ∧ u s.arg.a1 ≤ u s.maxblk ∧ u s.arg.a1 ≤ u s.cap ∧ u s.arg.a2 ≤ u s.nch ∧ 2 ≤ val s.pcur.time) := by
  decide +kernel

theorem witness_ProcessDegenerateBlocks :
    ((block 0#32 1#32).Inv ∧ ProcessRuns (block 0#32 1#32) ∧ u (block 0#32 1#32).arg.a1 = 0) ∧
      ((block 8#32 0#32).Inv ∧ ProcessRuns (block 8#32 0#32) ∧ u (block 8#32 0#32).arg.a2 = 0) :=
  ⟨⟨block_inv _ _, block_runs _ _ (by decide) (by decide), rfl⟩, ⟨block_inv _ _, block_runs _ _ (by decide) (by decide), rfl⟩⟩

theorem witness_ProcessEqualsMicroCommands : (block 8#32 1#32).Inv ∧ ProcessRuns (block 8#32 1#32) :=
  witness_ProcessClosedForm

/-- Two channels. -/
theorem witness_ChannelOrderIsNotObservable :
    ∃ s : State, s.Inv ∧ ProcessRuns s ∧ 0 < u s.nch ∧ 1 < u s.nch := by
  refine ⟨{ block 8#32 2#32 with nch := 2#32, ring := ⟨1, 2, 8, []⟩ }, ?_, ?_, by decide, by decide⟩
  · have h := block_inv 8#32 2#32
    exact { h with
      unprepared := fun hp => (Bool.false_ne_true hp.symm).elim
      prepared := fun _ => by decide
      ringForm := rfl
      ringRegion := ⟨by decide, by decide⟩
      ringPlace := fun _ hc => nomatch hc }
  · exact ⟨rfl, by decide, by decide, by decide, by show val 0x01FFFFFF#32 < 2; decide +kernel⟩

/-- A silent block of two samples after PREPARE. -/
theorem witness_SilenceInSilenceOut :
    ∃ s : State, s.Inv ∧ ProcessRuns s ∧ 0 < u s.arg.a2 ∧ 0 < u s.arg.a1 ∧
      (∀ c < u s.arg.a2, ∀ i < u s.arg.a1, s.bufAt .io c i = 0#32) ∧
      (∀ c < u s.arg.a2, ∀ i < u s.arg.a1, s.ringAt c ((readStart s + i) % u s.cap) = 0#32) := by
  refine ⟨{ block 2#32 1#32 with buf := load (tiny .floor) .io 0 [0#32, 0#32] ⟨0, []⟩ }, ?_, ?_, by decide,
    by decide, ?_, ?_⟩
  · exact
      { hardware := rfl
        unprepared := fun hp => (Bool.false_ne_true hp.symm).elim
        prepared := fun _ => by decide
        defaults := rfl
        lasterr := Nat.zero_le _
        faultlog := by decide
        ringForm := rfl
        bufForm := by decide +kernel
        ringRegion := ⟨by decide, by decide⟩
        ringPlace := fun _ hc => nomatch hc
        bufPlace := by decide +kernel }
  · exact ⟨rfl, by decide, by decide, by decide, by show val 0x01FFFFFF#32 < 2; decide +kernel⟩
  · intro c hc i hi
    have hc' : c < 1 := hc
    have hi' : i < 2 := hi
    interval_cases c
    interval_cases i <;> decide +kernel
  · intro c hc i hi
    have hc' : c < 1 := hc
    have hi' : i < 2 := hi
    interval_cases c
    interval_cases i <;> decide +kernel

/-- No delay, and a delay of one sample less than the block. -/
theorem witness_ShortDelayReadsTheSameBlock :
    let s := block 8#32 1#32
    let t := { s with pcur := ⟨0#32, 0#32, 0#32, 0#32, 0#32⟩ }
    (s.Inv ∧ ProcessRuns s ∧ 0 < u s.nch ∧ ((7 : Nat) : Int) = exactDelay s.sr s.pcur.time % (u s.cap : Int) ∧ 7 ≤ 7 ∧
      7 < u s.arg.a1) ∧
    (t.Inv ∧ ProcessRuns t ∧ 0 < u t.nch ∧ ((0 : Nat) : Int) = exactDelay t.sr t.pcur.time % (u t.cap : Int) ∧ 0 ≤ 0 ∧
      0 < u t.arg.a1) := by
  refine ⟨⟨block_inv _ _, block_runs _ _ (by decide) (by decide), by decide, by decide +kernel, le_refl _, by decide⟩,
    ⟨?_, ?_, by decide, by decide +kernel, le_refl _, by decide⟩⟩
  · exact tuned_inv 8 ⟨0#32, 8#32, 1#32, 0#32⟩ ⟨0#32, 0#32, 0#32, 0#32, 0#32⟩ [] (le_refl _)
  · exact ⟨rfl, by decide, by decide, by decide, by show val 0#32 < 2; decide +kernel⟩

theorem witness_FirstBlockRampsFromZero :
    (block 8#32 1#32).Inv ∧ ProcessRuns (block 8#32 1#32) ∧ (block 8#32 1#32).last = ⟨0#32, 0#32, 0#32, 0#32⟩ ∧
      0 < u (block 8#32 1#32).arg.a1 :=
  ⟨block_inv _ _, block_runs _ _ (by decide) (by decide), rfl, by decide⟩

/-- A command that completes, one that faults, and PREPARE un-preparing. -/
theorem witness_CommandFaultsArePrecise :
    (∃ t, exec .nop (ops 0#32 0#32 0#32 0#32) = .next t ∧ t.lasterr = 0#8) ∧
      (∃ t, exec .cursorAdv (ops 0#32 9#32 0#32 0#32) = .next t ∧ t.lasterr ≠ 0#8) ∧
      (∃ t, exec .prepare (ops 9#32 0#32 0#32 0#32) = .next t ∧ t.lasterr ≠ 0#8) :=
  ⟨⟨_, run_spec _ _, by decide +kernel⟩, ⟨_, run_spec _ _, by decide +kernel⟩, ⟨_, run_spec _ _, by decide +kernel⟩⟩

/-- Each code with its cause. -/
theorem witness_FaultsAreRaisedByTheirCommands :
    (∃ t, exec .ratediv (bare 0#32 0#32 0#32 0#32) = .next t ∧ t.lasterr = 2#8 ∧
      needsPreparation .ratediv ∧ (bare 0#32 0#32 0#32 0#32).prepared = false) ∧
    (∃ t, exec .setparam (ops 5#32 0#32 0#32 0#32) = .next t ∧ t.lasterr = 3#8 ∧
      badArgCause (ops 5#32 0#32 0#32 0#32) .setparam) ∧
    (∃ t, exec .ratediv (at_ 44100 0 0x02000000#32) = .next t ∧ t.lasterr = 4#8) ∧
    (∃ t, exec .prepare (ops 9#32 0#32 0#32 0#32) = .next t ∧ t.lasterr = 5#8 ∧ allocCause (ops 9#32 0#32 0#32 0#32)) :=
  ⟨⟨_, run_spec _ _, by decide +kernel, trivial, rfl⟩,
    ⟨_, run_spec _ _, by decide +kernel, (by decide : 5 ≤ u 5#32)⟩, ⟨_, run_spec _ _, by decide +kernel⟩,
    ⟨_, run_spec _ _, by decide +kernel, .inl (by decide)⟩⟩

/-- An illegal command word, each kind of access error, and none. -/
theorem witness_FaultBitsOneAndSixComeFromTheHost :
    let s := ops 0#32 0#32 0#32 0#32
    (∃ t, perform (.hostWrite 0x00C 0x25#32) s = .next t) ∧ ¬ legalWord 0x25#32 ∧
      (∃ t, perform (.hostRead 0x00C) s = .next t) ∧ isAccessError s.hw (.hostRead 0x00C) ∧
      (∃ t, perform (.hostWrite 0x090 0#32) s = .next t) ∧ isAccessError s.hw (.hostWrite 0x090 0#32) ∧
      (∃ t, perform (.narrowWrite .byte 0x010 0#32) s = .next t) ∧ isAccessError s.hw (.narrowWrite .byte 0x010 0#32) ∧
      (∃ t, perform (.ctrlWrite 4 0#32) s = .next t) ∧ ¬ isAccessError s.hw (.ctrlWrite 4 0#32) := by
  refine ⟨⟨_, rfl⟩, ?_, ⟨_, rfl⟩, .inr rfl, ⟨_, rfl⟩, .inr ?_, ⟨_, rfl⟩, trivial, ⟨_, rfl⟩, id⟩
  · simp only [legalWord]; decide
  · unfold readOnly; decide

theorem witness_CommandsWriteOnlyTheirState : ∃ t, exec .process (block 8#32 1#32) = .next t := ⟨_, run_spec _ _⟩

theorem witness_FaultsDoNotChangeLaterCommands : ∃ t, exec .cursorAdv (ops 0#32 8#32 0#32 0#32) = .next t :=
  ⟨_, run_spec _ _⟩

/-- Another ring that holds zeros in the allocated elements, and anything elsewhere. -/
theorem witness_UnallocatedRingIsUnobservable :
    let s := ops 0#32 8#32 0#32 0#32
    let r : Ring := ⟨9, 1, 8, [(4 * 12, 5#8)]⟩
    s.Inv ∧ (∀ c < u s.nch, ∀ k < u s.cap, ringGet s.hw r c k = s.ringAt c k) ∧
      ∃ t, exec (.rbReadaddRamp 0 .wet) s = .next t :=
  ⟨ops_inv _ _ _ _, by decide +kernel, _, run_spec _ _⟩

theorem witness_StepKeepsInvariant :
    let s := tuned 8 ⟨0#32, 8#32, 1#32, 0#32⟩ ⟨0#32, 0#32, 0#32, 0#32, 0#32⟩ [.hostWrite 0x00C 0x14#32]
    s.Inv ∧ ∃ t, step s = .next t := ⟨tuned_inv 8 _ _ _ (le_refl _), _, rfl⟩

theorem witness_FaultlogOnlyGainsBits :
    let s := tuned 8 ⟨0#32, 0#32, 0#32, 0#32⟩ ⟨0#32, 0#32, 0#32, 0#32, 0#32⟩ [.hostRead 6]
    s.inbox = .hostRead 6 :: [] ∧ Action.hostRead 6 ≠ .resetInput ∧ ∃ t, step s = .next t := ⟨rfl, by decide, _, rfl⟩

theorem witness_StepKeepsTheInstance :
    ∃ t, step (tuned 8 ⟨0#32, 0#32, 0#32, 0#32⟩ ⟨0#32, 0#32, 0#32, 0#32, 0#32⟩ [.resetInput]) = .next t := ⟨_, rfl⟩

theorem witness_ResetInputResetsEveryRegister :
    (tuned 8 ⟨1#32, 2#32, 3#32, 4#32⟩ ⟨5#32, 0#32, 0#32, 0#32, 0#32⟩ [.resetInput, .hostRead 0]).inbox =
      .resetInput :: [.hostRead 0] := rfl

theorem witness_RegisterReadsReturnContents :
    ((0x090 : Nat), (ops 0#32 0#32 0#32 0#32).pdef.wet) ∈
      [((0x000 : Nat), 0x42444C59#32), (0x090, (ops 0#32 0#32 0#32 0#32).pdef.wet)] := by decide

/-- The two forms a read takes: a register, and just beyond a window. -/
theorem witness_HostReadsHaveNoOtherEffect :
    act (ops 0#32 0#32 0#32 0#32) (.hostRead 0x03C) = some { ops 0#32 0#32 0#32 0#32 with readData := some 8#32 } ∧
      act (ops 0#32 0#32 0#32 0#32) (.hostRead 0x01000040) =
        some { ops 0#32 0#32 0#32 0#32 with readData := some 0#32, faultlog := 0x40#32 } := by decide +kernel

/-- An address at each end of each kind of hole, and a read-only register. -/
theorem witness_AccessErrorsAreLoggedOnly :
    (∀ addr ∈ [0x001, 0x02C, 0x07C, 0x094, 0x00FFFFFC, 0x01000040, 0x04000000],
      badAddress (ops 0#32 0#32 0#32 0#32).hw addr) ∧ ¬ badAddress (ops 0#32 0#32 0#32 0#32).hw 0x0100003C ∧
      readOnly 0x000 ∧ readOnly 0x090 := by
  unfold badAddress readOnly; decide

/-- The first and the last element of the windows. -/
theorem witness_BufferWindowReadsBackWrites :
    (tiny .trunc).ok = true ∧ 0 < (tiny .trunc).maxCh ∧ 0 < (tiny .trunc).blkDepth ∧ 1 < (tiny .trunc).maxCh ∧
      7 < (tiny .trunc).blkDepth := by decide

theorem witness_BufferBytesAreLittleEndian : 0 < 4 ∧ 3 < 4 := by decide

end Sys2Proof.Tests
end

/-! PROOFS. The arithmetic of `00_scope.md`, `fx` (R9), the ramped gain (R12) and the quantizer (R13), and the OPEN
parameters of R6, which no step changes. -/

namespace Sys2Proof.Machine

/-! ### Saturation and `fx` (R8, R9) -/

theorem satWord_of_max_le {n : Int} (h : 2147483647 ≤ n) : satWord n = 0x7FFFFFFF#32 := by
  unfold satWord
  rw [show sat32 n = 2147483647 by unfold sat32; omega]
  decide

theorem satWord_of_le_min {n : Int} (h : n ≤ -2147483648) : satWord n = 0x80000000#32 := by
  unfold satWord
  rw [show sat32 n = -2147483648 by unfold sat32; omega]
  decide

/-- `fx` at or above the upper end of Q8.24. -/
theorem fx_of_max_le {v : Rat} (h : 128 ≤ v) : fx v = 0x7FFFFFFF#32 := by
  refine satWord_of_max_le (Rat.le_floor_iff.mpr ?_)
  norm_num
  linarith

/-- `fx` below the lower end of Q8.24. -/
theorem fx_of_lt_min {v : Rat} (h : v < -128) : fx v = 0x80000000#32 := by
  have hfloor : (v * 2 ^ 24).floor < -2147483648 := by
    rw [Rat.floor_lt_iff]
    norm_num
    linarith
  exact satWord_of_le_min hfloor.le

/-- In range `fx` stores the floor unsaturated. -/
theorem raw_fx {v : Rat} (hlow : -128 ≤ v) (hhigh : v < 128) : raw (fx v) = (v * 2 ^ 24).floor := by
  have h1 : -2147483648 ≤ (v * 2 ^ 24).floor := by
    rw [Rat.le_floor_iff]
    norm_num
    linarith
  have h2 : (v * 2 ^ 24).floor < 2147483648 := by
    rw [Rat.floor_lt_iff]
    norm_num
    linarith
  unfold fx
  rw [raw_satWord, sat32_of_range h1 (by omega)]

/-- In range `fx` rounds down by less than one unit of `2^-24`. -/
theorem val_fx_le {v : Rat} (hlow : -128 ≤ v) (hhigh : v < 128) : val (fx v) ≤ v := by
  have h : ((v * 2 ^ 24).floor : Rat) ≤ v * 2 ^ 24 := Rat.floor_le _
  rw [← raw_fx hlow hhigh, raw_eq_val] at h
  linarith

theorem lt_val_fx_add {v : Rat} (hlow : -128 ≤ v) (hhigh : v < 128) : v < val (fx v) + 1 / 2 ^ 24 := by
  have h : v * 2 ^ 24 < ((v * 2 ^ 24).floor : Rat) + 1 := by exact_mod_cast Rat.lt_floor_add_one _
  rw [← raw_fx hlow hhigh, raw_eq_val] at h
  linarith

/-- Settles O29: saturation at either end, and in range the floor. -/
theorem fxFloorsAndSaturates : Obligations.FxFloorsAndSaturates := by
  intro v
  exact ⟨fx_of_max_le, fx_of_lt_min, fun hlow hhigh => ⟨val_fx_le hlow hhigh, lt_val_fx_add hlow hhigh⟩⟩

/-! ### The ramped gain (R12) -/

@[simp] theorem ramp_first (a b : Word) (len : Nat) : ramp a b 0 len = val a := by simp [ramp]

theorem ramp_last (a b : Word) {len : Nat} (hlen : 0 < len) :
    ramp a b (len - 1) len = val a + (val b - val a) * ((len : Rat) - 1) / (len : Rat) := by
  unfold ramp
  rw [Nat.cast_pred hlen]

/-- Settles O28: the integer forms are the exact rational ones over the common denominator, and the end gains. -/
theorem rampIntegerFormsAreExact : Obligations.RampIntegerFormsAreExact := by
  intro x a b i len hi
  have hlen : 0 < len := Nat.zero_lt_of_lt hi
  exact ⟨ramp_eq a b i hlen, scale_eq x a b i hlen, fx_scale x a b i hlen, ramp_first a b len, ramp_last a b hlen⟩

/-! ### The quantizer (R13) -/

/-- On a sample that is not negative `trunc` mode gives the value of `floor` mode. -/
theorem raw_quant_trunc_of_nonneg {x : Word} {bd : Nat} (hx : 0 ≤ raw x) :
    raw (quant .trunc x bd) = quantStep bd * (raw x / quantStep bd) := by
  rw [raw_quant_trunc, Int.natAbs_of_nonneg hx]
  rcases hx.eq_or_lt with h0 | hpos
  · simp [← h0]
  · rw [Int.sign_eq_one_of_pos hpos, one_mul]

/-- On a negative sample `trunc` mode gives the opposite of the floored level of its magnitude. -/
theorem raw_quant_trunc_of_neg {x : Word} {bd : Nat} (hx : raw x < 0) :
    raw (quant .trunc x bd) = -(quantStep bd * (-raw x / quantStep bd)) := by
  rw [raw_quant_trunc, Int.sign_eq_neg_one_of_neg hx, Int.ofNat_natAbs_of_nonpos hx.le, neg_one_mul]

/-- A level is unchanged in `floor` mode: no remainder is taken off. -/
theorem quant_floor_of_level {x : Word} {bd : Nat} (hlevel : raw x % quantStep bd = 0) : quant .floor x bd = x := by
  show word (raw x - raw x % quantStep bd) = x
  rw [hlevel, sub_zero, word_raw]

/-- A level is unchanged in `trunc` mode: its magnitude is a level too. -/
theorem quant_trunc_of_level {x : Word} {bd : Nat} (hlevel : raw x % quantStep bd = 0) : quant .trunc x bd = x := by
  have hdvd : quantStep bd ∣ raw x := Int.dvd_of_emod_eq_zero hlevel
  apply raw_inj
  rcases le_or_gt 0 (raw x) with hx | hx
  · rw [raw_quant_trunc_of_nonneg hx, Int.mul_ediv_cancel' hdvd]
  · rw [raw_quant_trunc_of_neg hx, Int.mul_ediv_cancel' (dvd_neg.mpr hdvd), neg_neg]

/-- The modes agree on samples not below 0 and on levels. -/
theorem quant_trunc_eq_floor {x : Word} {bd : Nat} (hbd : bd ≤ 24) (h : 0 ≤ raw x ∨ raw x % quantStep bd = 0) :
    quant .trunc x bd = quant .floor x bd := by
  rcases h with hx | hlevel
  · apply raw_inj
    rw [raw_quant_trunc_of_nonneg hx, raw_quant_floor x hbd]
  · rw [quant_trunc_of_level hlevel, quant_floor_of_level hlevel]

/-- Between two levels below 0 `trunc` mode rounds up where `floor` mode rounds down. -/
theorem raw_quant_trunc_eq_floor_add {x : Word} {bd : Nat} (hbd : bd ≤ 24) (hx : raw x < 0)
    (hoff : raw x % quantStep bd ≠ 0) : raw (quant .trunc x bd) = raw (quant .floor x bd) + quantStep bd := by
  have hndvd : ¬ quantStep bd ∣ raw x := fun hdvd => hoff (Int.emod_eq_zero_of_dvd hdvd)
  rw [raw_quant_trunc_of_neg hx, raw_quant_floor x hbd, Int.neg_ediv, if_neg hndvd,
    Int.sign_eq_one_of_pos (quantStep_pos bd)]
  ring

/-- Settles O25: the values of both modes, where they agree, where they differ, and levels. -/
theorem quantizerModesAgreeAndDiffer : Obligations.QuantizerModesAgreeAndDiffer := by
  intro x bd hbd
  exact ⟨raw_quant_floor x hbd, raw_quant_trunc x bd, quant_trunc_eq_floor hbd, raw_quant_trunc_eq_floor_add hbd,
    quant_floor_of_level⟩

/-! ### The OPEN parameters (R6, `10_state.md` R30) -/

/-- A checked command keeps the OPEN parameters when its effect does. -/
theorem runCommand_hw {checks : List (Bool × ErrCode)} {effect : State → State} {s t : State}
    (h : runCommand checks effect s = .next t) (heffect : (effect s).hw = s.hw) : t.hw = s.hw := by
  obtain ⟨k, -, rfl⟩ | ⟨-, rfl⟩ := runCommand_cases h
  · rfl
  · exact heffect

theorem exec_prepare_hw {s t : State} (h : exec .prepare s = .next t) : t.hw = s.hw := by
  rw [exec_prepare] at h
  split at h
  · cases h; rfl
  · split at h <;> cases h <;> rfl

theorem exec_getparam_hw {s t : State} (h : exec .getparam s = .next t) : t.hw = s.hw := by
  obtain ⟨-, hs⟩ | ⟨i, -, hs⟩ := exec_getparam s
  · cases hs.symm.trans h; rfl
  · cases hs.symm.trans h; rfl

theorem exec_setparam_hw {s t : State} (h : exec .setparam s = .next t) : t.hw = s.hw := by
  obtain ⟨-, hs⟩ | ⟨i, -, hs⟩ := exec_setparam s
  · cases hs.symm.trans h; rfl
  · cases hs.symm.trans h; rfl

/-- No command changes the OPEN parameters: three branch on an operand, the others are a list of checks and one
effect. -/
theorem exec_hw {i : Instr} {s t : State} (h : exec i s = .next t) : t.hw = s.hw := by
  cases i with
  | prepare => exact exec_prepare_hw h
  | getparam => exact exec_getparam_hw h
  | setparam => exact exec_setparam_hw h
  | _ =>
    simp only [exec_nop, exec_process, exec_getpcount, exec_savestate, exec_loadstate, exec_rbWrite, exec_rbWriteRamp,
      exec_rbReadaddRamp, exec_rbRdpos, exec_cursorAdv, exec_ratediv, exec_decimate, exec_decimateBlk, exec_bufCopy,
      exec_bufSub, exec_bufCopyRamp, exec_bufAddRamp, exec_rampCommit] at h
    exact runCommand_hw h rfl

theorem writeWord_hw {s t : State} {addr : Nat} {v : Word} (h : s.writeWord addr v = some t) : t.hw = s.hw := by
  obtain ⟨k, rfl⟩ | ⟨i, rfl⟩ | ⟨-, rfl⟩ := writeWord_cases h <;> rfl

/-- No action changes the OPEN parameters, the reset input included (`70_reset_and_hazards.md` R135). -/
theorem perform_hw {a : Action} {s t : State} (h : perform a s = .next t) : t.hw = s.hw := by
  obtain ⟨_, -, ⟨_, rfl⟩ | rfl⟩ | ⟨_, _, -, rfl⟩ | ⟨_, _, _, -, rfl⟩ | ⟨_, _, -, -, hexec⟩ | ⟨_, _, -, -, rfl⟩ |
    ⟨_, _, -, -, hwrite | rfl⟩ | ⟨_, _, -, rfl⟩ | ⟨-, rfl⟩ := perform_cases h
  · rfl
  · rfl
  · rfl
  · rfl
  · exact exec_hw hexec
  · rfl
  · exact writeWord_hw hwrite
  · rfl
  · rfl
  · rfl

/-- Settles O47: a step is nothing or one action, and no action changes the OPEN parameters. -/
theorem stepKeepsTheInstance : Obligations.StepKeepsTheInstance := by
  intro s t h
  obtain ⟨-, rfl⟩ | ⟨a, rest, -, hperform⟩ := step_cases h
  · rfl
  · rw [perform_hw hperform, State.setInbox_hw]

end Sys2Proof.Machine

/-! PROOFS. The state (`10_state.md`): which command may write what, FAULTLOG's bits (R26), and the invariant (R32),
which holds after reset and is kept by every step. -/

namespace Sys2Proof.Machine

/-! ### A pending command word (R15, `20_memory.md` R45) -/

/-- Settles O4: the pending write is the action performed, and a decodable word at CMD performs its command. -/
theorem stepRunsDecodedCommand : Obligations.StepRunsDecodedCommand := by
  intro s w i rest hinbox hdecode
  exact (step_cons hinbox).trans (perform_command _ hdecode)

/-! ### Checks that pass, and the faults they report (`60_exceptions.md` R121) -/

theorem firstFault_eq_none_iff (checks : List (Bool × ErrCode)) :
    firstFault checks = none ↔ ∀ check ∈ checks, check.1 = false := by
  induction checks with
  | nil => simp
  | cons check rest ih =>
    obtain ⟨violated, k⟩ := check
    rw [firstFault_cons, List.forall_mem_cons, ← ih]
    cases violated <;> simp

theorem mem_of_firstFault_eq_some {checks : List (Bool × ErrCode)} {k : ErrCode} (h : firstFault checks = some k) :
    (true, k) ∈ checks := by
  induction checks with
  | nil => simp at h
  | cons check rest ih =>
    obtain ⟨violated, k'⟩ := check
    cases violated with
    | true => simp_all
    | false => exact List.mem_cons_of_mem _ (ih (by simpa using h))

theorem needPrepared_pass {s : State} {rest : List (Bool × ErrCode)} (h : firstFault (needPrepared s :: rest) = none) :
    s.prepared = true := by
  simpa [needPrepared] using (firstFault_eq_none_iff _).1 h (needPrepared s) (by simp)

theorem ringChecks_pass {s : State} {c : Nat} (h : firstFault (ringChecks s c) = none) :
    s.prepared = true ∧ c < u s.nch ∧ s.position < u s.cap ∧ s.length ≤ u s.cap ∧ s.length ≤ u s.maxblk := by
  simpa [ringChecks, needPrepared, needChannel] using (firstFault_eq_none_iff _).1 h

theorem bufChecks_pass {s : State} {c : Nat} (h : firstFault (bufChecks s c) = none) :
    s.prepared = true ∧ c < u s.nch ∧ s.length ≤ u s.maxblk := by
  simpa [bufChecks, needPrepared, needChannel] using (firstFault_eq_none_iff _).1 h

theorem bufChecks_pass_of_append {s : State} {c : Nat} {more : List (Bool × ErrCode)}
    (h : firstFault (bufChecks s c ++ more) = none) : firstFault (bufChecks s c) = none := by
  rw [firstFault_eq_none_iff] at h ⊢
  exact fun check hmem => h check (List.mem_append_left _ hmem)

theorem ringChecks_ne_bus (s : State) (c : Nat) : ∀ check ∈ ringChecks s c, check.2 ≠ .bus := by
  simp [ringChecks, needPrepared, needChannel]

theorem bufChecks_ne_bus (s : State) (c : Nat) : ∀ check ∈ bufChecks s c, check.2 ≠ .bus := by
  simp [bufChecks, needPrepared, needChannel]

theorem decimateChecks_pass {s : State} {c : Nat}
    (h : firstFault [needPrepared s, needChannel s c, (decide (u s.maxblk ≤ s.position), .badArg), needBitDepth s] =
      none) : s.prepared = true ∧ c < u s.nch ∧ s.position < u s.maxblk := by
  have hpass := (firstFault_eq_none_iff _).1 h
  simp only [needPrepared, needChannel, List.forall_mem_cons, Bool.not_eq_false', decide_eq_false_iff_not,
    not_le] at hpass
  obtain ⟨hprepared, hchannel, hposition, -⟩ := hpass
  exact ⟨hprepared, hchannel, hposition⟩

theorem processChecks_pass {s : State} (h : firstFault (processChecks s) = none) :
    s.prepared = true ∧ s.length ≤ u s.maxblk ∧ s.length ≤ u s.cap ∧ s.channelCount ≤ u s.nch := by
  have hpass := (firstFault_eq_none_iff _).1 h
  simp only [processChecks, needPrepared, List.forall_mem_cons, Bool.not_eq_false', Bool.or_eq_false_iff,
    decide_eq_false_iff_not, not_lt] at hpass
  obtain ⟨hprepared, ⟨hblock, hcap⟩, hchannels, -⟩ := hpass
  exact ⟨hprepared, hblock, hcap, hchannels⟩

/-! ### The three commands that branch on an operand: everything they can do (`44_system.md` R106, R109, R110) -/

theorem exec_prepare_cases {s t : State} (h : exec .prepare s = .next t) :
    (u s.arg.a0 = 0 ∧ t = s.raise .badArg) ∨
    (1 ≤ u s.arg.a0 ∧ (s.hw.ringDepth < 2 * u s.arg.a0 ∨ s.hw.maxCh < u s.arg.a2 ∨ s.hw.blkDepth < u s.arg.a1) ∧
      t = s.unprepare.raise .alloc) ∨
    (1 ≤ u s.arg.a0 ∧ 2 * u s.arg.a0 ≤ s.hw.ringDepth ∧ u s.arg.a2 ≤ s.hw.maxCh ∧ u s.arg.a1 ≤ s.hw.blkDepth ∧
      t = ((s.configure s.arg.a0 (BitVec.ofNat 32 (2 * u s.arg.a0)) s.arg.a2 s.arg.a1).setRing
        (ringClear (u s.arg.a2) (2 * u s.arg.a0) s.ring)).complete) := by
  rw [exec_prepare] at h
  split at h
  case isTrue hzero => exact .inl ⟨hzero, (Host.Outcome.next.inj h).symm⟩
  case isFalse hpos =>
    split at h
    case isTrue hlarge => exact .inr (.inl ⟨by omega, hlarge, (Host.Outcome.next.inj h).symm⟩)
    case isFalse hfits =>
      exact .inr (.inr ⟨by omega, by omega, by omega, by omega, (Host.Outcome.next.inj h).symm⟩)

theorem exec_getparam_cases {s t : State} (h : exec .getparam s = .next t) :
    (5 ≤ u s.arg.a0 ∧ t = s.raise .badArg) ∨ ∃ j : Fin 5, u s.arg.a0 = j.val ∧
      t = (s.setRes ⟨BitVec.ofNat 32 j, paramGet s.pdef j, paramGet s.pcur j⟩).complete := by
  obtain ⟨hj, hs⟩ | ⟨j, hj, hs⟩ := exec_getparam s
  · exact .inl ⟨hj, Host.Outcome.next.inj (h.symm.trans hs)⟩
  · exact .inr ⟨j, hj, Host.Outcome.next.inj (h.symm.trans hs)⟩

theorem exec_setparam_cases {s t : State} (h : exec .setparam s = .next t) :
    (5 ≤ u s.arg.a0 ∧ t = s.raise .badArg) ∨
      ∃ j : Fin 5, u s.arg.a0 = j.val ∧ t = (s.setPcur j s.arg.a1).complete := by
  obtain ⟨hj, hs⟩ | ⟨j, hj, hs⟩ := exec_setparam s
  · exact .inl ⟨hj, Host.Outcome.next.inj (h.symm.trans hs)⟩
  · exact .inr ⟨j, hj, Host.Outcome.next.inj (h.symm.trans hs)⟩

/-! ### Bits of FAULTLOG (R26) -/

/-- Logging a fault loses no bit that was there. -/
theorem logged_and_eq (k : ErrCode) {log before : Word} (h : log &&& before = before) :
    logged k log &&& before = before := by
  calc logged k log &&& before = logged k log &&& log &&& before := by rw [BitVec.and_assoc, h]
    _ = before := by rw [logged_and_self, h]

/-! ### Which command may write which state (R16 to R25) -/

/-- The commands that may write WCUR (R18). -/
def wcurWriters : List Instr := [.prepare, .process, .cursorAdv]

/-- The commands that may write the gain-ramp state (R21). -/
def lastWriters : List Instr := [.process, .rampCommit]

/-- The commands that may write RES (R25). -/
def resWriters : List Instr := [.getpcount, .getparam, .savestate, .rbRdpos, .ratediv]

/-- The commands that may write the ring (R16), with channel `c` and buffer `b`. -/
def ringWriters (c : Nat) (b : BufId) : List Instr := [.prepare, .process, .rbWrite c b, .rbWriteRamp c b]

/-- The commands that may write the buffers (R24), with channel `c`, destination `b` and source `b'`. -/
def bufWriters (c : Nat) (b b' : BufId) : List Instr :=
  [.process, .rbReadaddRamp c b, .decimate c b, .decimateBlk c b, .bufCopy c b b', .bufSub c b b', .bufCopyRamp c b b',
    .bufAddRamp c b b']

/-- From `s` to `t` nothing changed but LASTERR and what command `i` may write, and FAULTLOG lost no bit. -/
structure WritesOnly (i : Instr) (s t : State) : Prop where
  hw : t.hw = s.hw
  pdef : t.pdef = s.pdef
  arg : t.arg = s.arg
  readData : t.readData = s.readData
  inbox : t.inbox = s.inbox
  faultlog : t.faultlog &&& s.faultlog = s.faultlog
  pcur : i ≠ .setparam → t.pcur = s.pcur
  config : i ≠ .prepare →
    t.prepared = s.prepared ∧ t.sr = s.sr ∧ t.cap = s.cap ∧ t.nch = s.nch ∧ t.maxblk = s.maxblk
  wcur : i ∉ wcurWriters → t.wcur = s.wcur
  last : i ∉ lastWriters → t.last = s.last
  res : i ∉ resWriters → t.res = s.res
  ring : (∀ c b, i ∉ ringWriters c b) → t.ring = s.ring
  buf : (∀ c b b', i ∉ bufWriters c b b') → t.buf = s.buf

namespace WritesOnly

variable {i : Instr} {s t : State}

theorem refl (i : Instr) (s : State) : WritesOnly i s s :=
  ⟨rfl, rfl, rfl, rfl, rfl, BitVec.and_self, fun _ => rfl, fun _ => ⟨rfl, rfl, rfl, rfl, rfl⟩, fun _ => rfl,
    fun _ => rfl, fun _ => rfl, fun _ => rfl, fun _ => rfl⟩

theorem raise (h : WritesOnly i s t) (k : ErrCode) : WritesOnly i s (t.raise k) :=
  { h with faultlog := logged_and_eq k h.faultlog }

theorem complete (h : WritesOnly i s t) : WritesOnly i s t.complete := { h with }

theorem setPcur (h : WritesOnly .setparam s t) (j : Fin 5) (v : Word) : WritesOnly .setparam s (t.setPcur j v) :=
  { h with pcur := fun hne => absurd rfl hne }

theorem setWcur (h : WritesOnly i s t) (hi : i ∈ wcurWriters) (n : Nat) : WritesOnly i s (t.setWcur n) :=
  { h with wcur := fun hnot => absurd hi hnot }

theorem setLast (h : WritesOnly i s t) (hi : i ∈ lastWriters) (g : Gains) : WritesOnly i s (t.setLast g) :=
  { h with last := fun hnot => absurd hi hnot }

theorem setRes (h : WritesOnly i s t) (hi : i ∈ resWriters) (r : Results) : WritesOnly i s (t.setRes r) :=
  { h with res := fun hnot => absurd hi hnot }

theorem setRing (h : WritesOnly i s t) (c : Nat) (b : BufId) (hi : i ∈ ringWriters c b) (r : Ring) :
    WritesOnly i s (t.setRing r) :=
  { h with ring := fun hnot => absurd hi (hnot c b) }

theorem setBuf (h : WritesOnly i s t) (c : Nat) (b b' : BufId) (hi : i ∈ bufWriters c b b') (m : Buffers) :
    WritesOnly i s (t.setBuf m) :=
  { h with buf := fun hnot => absurd hi (hnot c b b') }

theorem configure (h : WritesOnly .prepare s t) (sr cap nch maxblk : Word) :
    WritesOnly .prepare s (t.configure sr cap nch maxblk) :=
  { h with config := fun hne => absurd rfl hne, wcur := fun hnot => absurd (by simp [wcurWriters]) hnot }

theorem unprepare (h : WritesOnly .prepare s t) : WritesOnly .prepare s t.unprepare :=
  { h with
    config := fun hne => absurd rfl hne
    wcur := fun hnot => absurd (by simp [wcurWriters]) hnot
    ring := fun hnot => absurd (by simp [ringWriters]) (hnot 0 .io) }

/-- A checked command writes only what its effect writes: a fault writes nothing else, nor does completing. -/
theorem of_runCommand {checks : List (Bool × ErrCode)} {effect : State → State}
    (hexec : exec i s = runCommand checks effect s) (h : exec i s = .next t) (heffect : WritesOnly i s (effect s)) :
    WritesOnly i s t := by
  rw [hexec] at h
  obtain ⟨k, -, rfl⟩ | ⟨-, rfl⟩ := runCommand_cases h
  · exact (refl i s).raise k
  · exact heffect.complete

theorem of_prepare (h : exec .prepare s = .next t) : WritesOnly .prepare s t := by
  have hrefl := refl .prepare s
  obtain ⟨-, rfl⟩ | ⟨-, -, rfl⟩ | ⟨-, -, -, -, rfl⟩ := exec_prepare_cases h
  · exact hrefl.raise _
  · exact hrefl.unprepare.raise _
  · exact ((hrefl.configure _ _ _ _).setRing 0 .io (by simp [ringWriters]) _).complete

theorem of_getparam (h : exec .getparam s = .next t) : WritesOnly .getparam s t := by
  obtain ⟨-, rfl⟩ | ⟨_, -, rfl⟩ := exec_getparam_cases h
  · exact (refl _ s).raise _
  · exact ((refl _ s).setRes (by simp [resWriters]) _).complete

theorem of_setparam (h : exec .setparam s = .next t) : WritesOnly .setparam s t := by
  obtain ⟨-, rfl⟩ | ⟨_, -, rfl⟩ := exec_setparam_cases h
  · exact (refl _ s).raise _
  · exact ((refl _ s).setPcur _ _).complete

theorem of_processEffect (s : State) : WritesOnly .process s (processEffect s) :=
  ((((refl _ s).setRing 0 .io (by simp [ringWriters]) _).setBuf 0 .io .io (by simp [bufWriters]) _).setLast
    (by simp [lastWriters]) _).setWcur (by simp [wcurWriters]) _

end WritesOnly

open WritesOnly in
/-- Every command writes only what it may: three branch on an operand, the others are checks and one effect. -/
theorem exec_writesOnly {i : Instr} {s t : State} (h : exec i s = .next t) : WritesOnly i s t := by
  have hrefl := WritesOnly.refl i s
  cases i with
  | prepare => exact of_prepare h
  | getparam => exact of_getparam h
  | setparam => exact of_setparam h
  | nop => exact of_runCommand (exec_nop s) h hrefl
  | loadstate => exact of_runCommand (exec_loadstate s) h hrefl
  | process => exact of_runCommand (exec_process s) h (of_processEffect s)
  | getpcount => exact of_runCommand (exec_getpcount s) h (hrefl.setRes (by simp [resWriters]) _)
  | savestate => exact of_runCommand (exec_savestate s) h (hrefl.setRes (by simp [resWriters]) _)
  | rbRdpos => exact of_runCommand (exec_rbRdpos s) h (hrefl.setRes (by simp [resWriters]) _)
  | ratediv => exact of_runCommand (exec_ratediv s) h (hrefl.setRes (by simp [resWriters]) _)
  | cursorAdv => exact of_runCommand (exec_cursorAdv s) h (hrefl.setWcur (by simp [wcurWriters]) _)
  | rampCommit => exact of_runCommand (exec_rampCommit s) h (hrefl.setLast (by simp [lastWriters]) _)
  | rbWrite c src =>
    exact of_runCommand (exec_rbWrite s c src) h (hrefl.setRing c src (by simp [ringWriters]) _)
  | rbWriteRamp c src =>
    exact of_runCommand (exec_rbWriteRamp s c src) h (hrefl.setRing c src (by simp [ringWriters]) _)
  | rbReadaddRamp c dst =>
    exact of_runCommand (exec_rbReadaddRamp s c dst) h (hrefl.setBuf c dst dst (by simp [bufWriters]) _)
  | decimate c b =>
    exact of_runCommand (exec_decimate s c b) h (hrefl.setBuf c b b (by simp [bufWriters]) _)
  | decimateBlk c b =>
    exact of_runCommand (exec_decimateBlk s c b) h (hrefl.setBuf c b b (by simp [bufWriters]) _)
  | bufCopy c dst src =>
    exact of_runCommand (exec_bufCopy s c dst src) h (hrefl.setBuf c dst src (by simp [bufWriters]) _)
  | bufSub c dst src =>
    exact of_runCommand (exec_bufSub s c dst src) h (hrefl.setBuf c dst src (by simp [bufWriters]) _)
  | bufCopyRamp c dst src =>
    exact of_runCommand (exec_bufCopyRamp s c dst src) h (hrefl.setBuf c dst src (by simp [bufWriters]) _)
  | bufAddRamp c dst src =>
    exact of_runCommand (exec_bufAddRamp s c dst src) h (hrefl.setBuf c dst src (by simp [bufWriters]) _)

/-- Settles O41: the frame of every command, field by field. -/
theorem commandsWriteOnlyTheirState : Obligations.CommandsWriteOnlyTheirState := by
  intro i s t h
  obtain ⟨hhw, hpdef, harg, hread, hinbox, -, hpcur, hconfig, hwcur, hlast, hres, hring, hbuf⟩ := exec_writesOnly h
  exact ⟨hhw, hpdef, harg, hread, hinbox, hpcur, hconfig, hwcur, hlast, hres, hring, hbuf⟩

/-! ### FAULTLOG only gains bits (R26, R32 (c)) -/

theorem writeWord_faultlog {s t : State} {addr : Nat} {v : Word} (h : s.writeWord addr v = some t) :
    t.faultlog = s.faultlog := by
  obtain ⟨k, rfl⟩ | ⟨i, rfl⟩ | ⟨-, rfl⟩ := writeWord_cases h <;> rfl

/-- No action but the reset input takes a bit off FAULTLOG: an error logs one, a command is held to its frame, and the
others leave it alone. -/
theorem perform_faultlog_and_self {a : Action} {s t : State} (ha : a ≠ .resetInput) (h : perform a s = .next t) :
    t.faultlog &&& s.faultlog = s.faultlog := by
  obtain ⟨_, -, ⟨_, rfl⟩ | rfl⟩ | ⟨_, _, -, rfl⟩ | ⟨_, _, _, -, rfl⟩ | ⟨_, _, -, -, hexec⟩ | ⟨_, _, -, -, rfl⟩ |
    ⟨_, _, -, -, hwrite | rfl⟩ | ⟨_, _, -, rfl⟩ | ⟨hreset, -⟩ := perform_cases h
  · exact BitVec.and_self
  · exact logged_and_self _ _
  · exact logged_and_self _ _
  · exact logged_and_self _ _
  · exact (exec_writesOnly hexec).faultlog
  · exact logged_and_self _ _
  · rw [writeWord_faultlog hwrite, BitVec.and_self]
  · exact logged_and_self _ _
  · exact BitVec.and_self
  · exact absurd hreset ha

/-- Settles O46: the step is the oldest pending action, and taking it off the list leaves FAULTLOG alone. -/
theorem faultlogOnlyGainsBits : Obligations.FaultlogOnlyGainsBits := by
  intro s t a rest hinbox ha hstep
  rw [step_cons hinbox] at hstep
  exact perform_faultlog_and_self (s := s.setInbox rest) ha hstep

/-! ### The state after reset (R31) -/

/-- Settles O48: each register of `State.resetOf` at its value. -/
theorem resetValues : Obligations.ResetValues :=
  ⟨rfl, rfl, rfl, rfl, rfl, rfl, rfl, rfl, rfl, rfl, rfl, rfl, rfl⟩

/-- The invariant holds after reset with any sizes that meet R6. -/
theorem State.inv_resetOf {hw : Hardware} (hok : hw.ok = true) : (State.resetOf hw).Inv where
  hardware := hok
  unprepared _ := ⟨rfl, rfl, rfl, rfl, rfl⟩
  prepared hp := (Bool.false_ne_true hp).elim
  defaults := rfl
  lasterr := Nat.zero_le _
  faultlog := BitVec.zero_and
  ringForm := rfl
  bufForm := rfl
  ringRegion := ⟨rfl, rfl⟩
  ringPlace _ hcell := nomatch hcell
  bufPlace _ hcell := nomatch hcell

theorem Config.hardware_ok : Config.hardware.ok = true := by decide

/-- Settles O45: the default sizes meet R6. -/
theorem resetHasInvariant : Obligations.ResetHasInvariant := State.inv_resetOf Config.hardware_ok

/-! ### What the invariant says of the sizes (R32) -/

section Sizes

variable {s : State} (hinv : s.Inv) (hprepared : s.prepared = true)
include hinv hprepared

theorem State.Inv.channel_lt_maxCh {c : Nat} (hc : c < u s.nch) : c < s.hw.maxCh :=
  have ⟨_, _, _, hnch, _, _⟩ := hinv.prepared hprepared
  hc.trans_le hnch

theorem State.Inv.le_blkDepth {len : Nat} (hlen : len ≤ u s.maxblk) : len ≤ s.hw.blkDepth :=
  have ⟨_, _, _, _, hmaxblk, _⟩ := hinv.prepared hprepared
  hlen.trans hmaxblk

theorem State.Inv.cap_pos : 0 < u s.cap :=
  have ⟨_, _, _, _, _, hwcur⟩ := hinv.prepared hprepared
  Nat.zero_lt_of_lt hwcur

theorem State.Inv.cap_le_ringDepth : u s.cap ≤ s.hw.ringDepth :=
  have ⟨_, _, hcap, _, _, _⟩ := hinv.prepared hprepared
  hcap

/-- The sizes PROCESS needs, once its checks have passed. -/
theorem State.Inv.blockOf_fits (hblock : s.length ≤ u s.maxblk) (hcap : s.length ≤ u s.cap) : (blockOf s).Fits where
  ok := hinv.hardware
  len := hinv.le_blkDepth hprepared hblock
  cap := hinv.cap_pos hprepared
  depth := hinv.cap_le_ringDepth hprepared
  fits := hcap

end Sizes

theorem State.Inv.storeForm {s : State} (hinv : s.Inv) : Store.Form s.hw ⟨s.ring, s.buf⟩ :=
  ⟨hinv.ringForm, hinv.ringPlace, hinv.bufForm, hinv.bufPlace⟩

/-! ### The channel loop of PROCESS (`43_block.md` R96) -/

theorem processChannels_region (p : Block) (k : Nat) (x : Store) :
    (processChannels p k x).ring.rows = x.ring.rows ∧ (processChannels p k x).ring.width = x.ring.width := by
  induction k with
  | zero => exact ⟨rfl, rfl⟩
  | succ k ih =>
    obtain ⟨hrows, hwidth⟩ := ih
    obtain ⟨hrows', hwidth'⟩ := processChannel_region p k (processChannels p k x)
    exact ⟨hrows'.trans hrows, hwidth'.trans hwidth⟩

theorem processChannels_form {p : Block} (hfits : p.Fits) {k : Nat} (hk : k ≤ p.hw.maxCh) {x : Store}
    (hwidth : p.cap = x.ring.width) (hrows : k ≤ x.ring.rows) (hx : x.Form p.hw) :
    (processChannels p k x).Form p.hw := by
  induction k with
  | zero => exact hx
  | succ k ih =>
    obtain ⟨hrows', hwidth'⟩ := processChannels_region p k x
    rw [processChannels_succ]
    exact processChannel_form hfits (by omega) (hwidth.trans hwidth'.symm) (by omega) (ih (by omega) (by omega))

/-! ### Commands keep the invariant (R32) -/

section Commands

variable {s : State} (hinv : s.Inv)
include hinv

/-- A checked command keeps the invariant when its effect does after checks that pass; no command raises `E_BUS`, which
LASTERR cannot hold. -/
theorem State.Inv.of_runCommand {i : Instr} {t : State} {checks : List (Bool × ErrCode)} {effect : State → State}
    (hexec : exec i s = runCommand checks effect s) (h : exec i s = .next t) (hbus : ∀ check ∈ checks, check.2 ≠ .bus)
    (heffect : firstFault checks = none → (effect s).Inv) : t.Inv := by
  rw [hexec] at h
  obtain ⟨k, hfault, rfl⟩ | ⟨hpass, rfl⟩ := runCommand_cases h
  · exact hinv.raise (hbus _ (mem_of_firstFault_eq_some hfault))
  · exact (heffect hpass).complete

/-- A successful PREPARE (`44_system.md` R106). -/
theorem State.Inv.configure_clear {sr nch maxblk : Word} (hsr : 1 ≤ u sr) (hcap : 2 * u sr ≤ s.hw.ringDepth)
    (hnch : u nch ≤ s.hw.maxCh) (hmaxblk : u maxblk ≤ s.hw.blkDepth) :
    ((s.configure sr (BitVec.ofNat 32 (2 * u sr)) nch maxblk).setRing (ringClear (u nch) (2 * u sr) s.ring)).Inv := by
  obtain ⟨-, -, -, hdepth⟩ := (Hardware.ok_iff s.hw).1 hinv.hardware
  have hu : u (BitVec.ofNat 32 (2 * u sr)) = 2 * u sr :=
    (BitVec.toNat_ofNat _ _).trans (Nat.mod_eq_of_lt (hcap.trans_lt hdepth))
  have hwcur : u 0#32 < u (BitVec.ofNat 32 (2 * u sr)) := by
    rw [hu]
    exact Nat.mul_pos two_pos hsr
  exact {
    hardware := hinv.hardware
    unprepared := fun hp => (Bool.false_ne_true hp.symm).elim
    prepared := fun _ => ⟨hsr, hu, hu.trans_le hcap, hnch, hmaxblk, hwcur⟩
    defaults := hinv.defaults
    lasterr := hinv.lasterr
    faultlog := hinv.faultlog
    ringForm := ringForm_ringClear _ _ _ _
    bufForm := hinv.bufForm
    ringRegion := ⟨rfl, hu.symm⟩
    ringPlace := RingPlaced.clear _ _ _ _
    bufPlace := hinv.bufPlace }

theorem State.Inv.of_prepare {t : State} (h : exec .prepare s = .next t) : t.Inv := by
  obtain ⟨-, rfl⟩ | ⟨-, -, rfl⟩ | ⟨hsr, hcap, hnch, hmaxblk, rfl⟩ := exec_prepare_cases h
  · exact hinv.raise (by decide)
  · exact hinv.unprepare.raise (by decide)
  · exact (hinv.configure_clear hsr hcap hnch hmaxblk).complete

theorem State.Inv.of_getparam {t : State} (h : exec .getparam s = .next t) : t.Inv := by
  obtain ⟨-, rfl⟩ | ⟨_, -, rfl⟩ := exec_getparam_cases h
  · exact hinv.raise (by decide)
  · exact (hinv.setRes _).complete

theorem State.Inv.of_setparam {t : State} (h : exec .setparam s = .next t) : t.Inv := by
  obtain ⟨-, rfl⟩ | ⟨_, -, rfl⟩ := exec_setparam_cases h
  · exact hinv.raise (by decide)
  · exact (hinv.setPcur _ _).complete

/-- RB.WRITE and RB.WRITE.RAMP: whatever the samples, only allocated elements are written. -/
theorem State.Inv.setRing_ringWriteBlock {c : Nat} (hpass : firstFault (ringChecks s c) = none) (f : Nat → Word) :
    (s.setRing (ringWriteBlock s.hw (u s.cap) c s.position s.length f s.ring)).Inv := by
  obtain ⟨hprepared, hc, -, -, -⟩ := ringChecks_pass hpass
  obtain ⟨hrows, hwidth⟩ := hinv.ringRegion
  obtain ⟨⟨-, hregion⟩, hform, hplace⟩ := ringWriteBlock_form (hw := s.hw) (u s.cap) c s.position s.length f s.ring
  exact hinv.setRing hregion (hform hinv.ringForm)
    (hplace (hinv.cap_pos hprepared) hwidth.symm (hinv.cap_le_ringDepth hprepared) (hrows ▸ hc) hinv.ringPlace)

/-- RB.READADD.RAMP writes only physical elements. -/
theorem State.Inv.setBuf_ringReadAddBlock {c : Nat} (hpass : firstFault (ringChecks s c) = none) (dst : BufId)
    (a b : Word) :
    (s.setBuf (ringReadAddBlock s.hw (u s.cap) c s.position s.length dst a b s.ring s.buf)).Inv := by
  obtain ⟨hprepared, hc, -, -, hlen⟩ := ringChecks_pass hpass
  obtain ⟨-, hform, hplace⟩ :=
    ringReadAddBlock_form (hw := s.hw) (u s.cap) c s.position s.length dst a b s.ring s.buf
  exact hinv.setBuf (hform hinv.bufForm) (hplace hinv.hardware (hinv.channel_lt_maxCh hprepared hc)
    (hinv.le_blkDepth hprepared hlen) hinv.bufPlace)

/-- The four BUF commands write only physical elements, whatever they compute. -/
theorem State.Inv.setBuf_mixBlock {c : Nat} (hpass : firstFault (bufChecks s c) = none) (dst src : BufId)
    (f : Nat → Word → Word → Word) : (s.setBuf (mixBlock s.hw c dst src s.length f s.buf)).Inv := by
  obtain ⟨hprepared, hc, hlen⟩ := bufChecks_pass hpass
  obtain ⟨-, hform, hplace⟩ := mixBlock_form (hw := s.hw) c dst src s.length f s.buf
  exact hinv.setBuf (hform hinv.bufForm) (hplace hinv.hardware (hinv.channel_lt_maxCh hprepared hc)
    (hinv.le_blkDepth hprepared hlen) hinv.bufPlace)

/-- DECIMATE.BLK writes only physical elements. -/
theorem State.Inv.setBuf_decimateBlock {c : Nat} (hpass : firstFault (bufChecks s c) = none) (b : BufId) (rd bd : Nat) :
    (s.setBuf (decimateBlock s.hw c b s.length rd bd s.buf)).Inv := by
  obtain ⟨hprepared, hc, hlen⟩ := bufChecks_pass hpass
  obtain ⟨-, hform, hplace⟩ := decimateBlock_form (hw := s.hw) c b s.length rd bd s.buf
  exact hinv.setBuf (hform hinv.bufForm) (hplace hinv.hardware (hinv.channel_lt_maxCh hprepared hc)
    (hinv.le_blkDepth hprepared hlen) hinv.bufPlace)

/-- DECIMATE writes one physical element. -/
theorem State.Inv.setBuf_decimateSample {c i : Nat} (hprepared : s.prepared = true) (hc : c < u s.nch)
    (hi : i < u s.maxblk) (b : BufId) (rd bd : Nat) : (s.setBuf (decimateSample s.hw c b rd bd i s.buf)).Inv := by
  obtain ⟨-, hform, hplace⟩ := decimateSample_form (hw := s.hw) c b rd bd i s.buf
  exact hinv.setBuf (hform hinv.bufForm) (hplace hinv.hardware (hinv.channel_lt_maxCh hprepared hc)
    (hinv.le_blkDepth hprepared hi) hinv.bufPlace)

/-- The cursor moves within the capacity (`40_ring.md` R75). -/
theorem State.Inv.setWcur_mod (hprepared : s.prepared = true) (n : Nat) : (s.setWcur (n % u s.cap)).Inv :=
  hinv.setWcur hprepared (Nat.mod_lt _ (hinv.cap_pos hprepared))

/-- PROCESS: the channel loop keeps the form of both memories, and the cursor stays below the capacity. -/
theorem State.Inv.processEffect (hpass : firstFault (processChecks s) = none) : (processEffect s).Inv := by
  obtain ⟨hprepared, hblock, hcap, hchannels⟩ := processChecks_pass hpass
  obtain ⟨hrows, hwidth⟩ := hinv.ringRegion
  have hmaxCh : s.channelCount ≤ s.hw.maxCh := by
    obtain ⟨-, -, -, hnch, -, -⟩ := hinv.prepared hprepared
    exact hchannels.trans hnch
  have hform := processChannels_form (hinv.blockOf_fits hprepared hblock hcap) (k := s.channelCount) hmaxCh
    (x := ⟨s.ring, s.buf⟩) hwidth.symm (hchannels.trans_eq hrows.symm) hinv.storeForm
  have hregion := processChannels_region (blockOf s) s.channelCount ⟨s.ring, s.buf⟩
  have hring := hinv.setRing hregion hform.ringForm hform.ringPlace
  have hbuf := hring.setBuf hform.bufForm hform.bufPlace
  have hlast := hbuf.setLast (paramGains s.pcur)
  refine hlast.setWcur (by simpa using hprepared) ?_
  simpa using Nat.mod_lt _ (hinv.cap_pos hprepared)

/-- Every command keeps the invariant. -/
theorem State.Inv.of_exec {i : Instr} {t : State} (h : exec i s = .next t) : t.Inv := by
  cases i with
  | prepare => exact hinv.of_prepare h
  | getparam => exact hinv.of_getparam h
  | setparam => exact hinv.of_setparam h
  | nop => exact hinv.of_runCommand (exec_nop s) h (by simp) fun _ => hinv
  | loadstate => exact hinv.of_runCommand (exec_loadstate s) h (by simp) fun _ => hinv
  | process =>
    exact hinv.of_runCommand (exec_process s) h (by simp [processChecks, needPrepared, needRate]) hinv.processEffect
  | getpcount => exact hinv.of_runCommand (exec_getpcount s) h (by simp) fun _ => hinv.setRes _
  | savestate => exact hinv.of_runCommand (exec_savestate s) h (by simp) fun _ => hinv.setRes _
  | rbRdpos => exact hinv.of_runCommand (exec_rbRdpos s) h (by simp [needPrepared]) fun _ => hinv.setRes _
  | ratediv => exact hinv.of_runCommand (exec_ratediv s) h (by simp [needPrepared, needRate]) fun _ => hinv.setRes _
  | cursorAdv =>
    exact hinv.of_runCommand (exec_cursorAdv s) h (by simp [needPrepared]) fun hpass =>
      hinv.setWcur_mod (needPrepared_pass hpass) _
  | rampCommit => exact hinv.of_runCommand (exec_rampCommit s) h (by simp) fun _ => hinv.setLast _
  | rbWrite c src =>
    exact hinv.of_runCommand (exec_rbWrite s c src) h (ringChecks_ne_bus s c) fun hpass =>
      hinv.setRing_ringWriteBlock hpass _
  | rbWriteRamp c src =>
    exact hinv.of_runCommand (exec_rbWriteRamp s c src) h (ringChecks_ne_bus s c) fun hpass =>
      hinv.setRing_ringWriteBlock hpass _
  | rbReadaddRamp c dst =>
    exact hinv.of_runCommand (exec_rbReadaddRamp s c dst) h (ringChecks_ne_bus s c) fun hpass =>
      hinv.setBuf_ringReadAddBlock hpass _ _ _
  | decimate c b =>
    refine hinv.of_runCommand (exec_decimate s c b) h (by simp [needPrepared, needChannel, needBitDepth])
      fun hpass => ?_
    obtain ⟨hprepared, hc, hi⟩ := decimateChecks_pass hpass
    exact hinv.setBuf_decimateSample hprepared hc hi _ _ _
  | decimateBlk c b =>
    exact hinv.of_runCommand (exec_decimateBlk s c b) h
      (by simp [bufChecks, needPrepared, needChannel, needBitDepth]) fun hpass =>
      hinv.setBuf_decimateBlock (bufChecks_pass_of_append hpass) _ _ _
  | bufCopy c dst src =>
    exact hinv.of_runCommand (exec_bufCopy s c dst src) h (bufChecks_ne_bus s c) fun hpass =>
      hinv.setBuf_mixBlock hpass _ _ _
  | bufSub c dst src =>
    exact hinv.of_runCommand (exec_bufSub s c dst src) h (bufChecks_ne_bus s c) fun hpass =>
      hinv.setBuf_mixBlock hpass _ _ _
  | bufCopyRamp c dst src =>
    exact hinv.of_runCommand (exec_bufCopyRamp s c dst src) h (bufChecks_ne_bus s c) fun hpass =>
      hinv.setBuf_mixBlock hpass _ _ _
  | bufAddRamp c dst src =>
    exact hinv.of_runCommand (exec_bufAddRamp s c dst src) h (bufChecks_ne_bus s c) fun hpass =>
      hinv.setBuf_mixBlock hpass _ _ _

/-- A plain write stores to a register the invariant does not name, or to a mapped element of the buffers. -/
theorem State.Inv.of_writeWord {t : State} {addr : Nat} {v : Word} (h : s.writeWord addr v = some t) : t.Inv := by
  obtain ⟨k, rfl⟩ | ⟨i, rfl⟩ | ⟨hwindow, rfl⟩ := writeWord_cases h
  · exact hinv.setArg k v
  · exact hinv.setPcur i v
  · exact hinv.setBuf (wf_setWordAt _ _ hinv.bufForm) (BufPlaced.setWordAt hinv.bufPlace v hwindow)

/-- Every action keeps the invariant. -/
theorem State.Inv.of_perform {a : Action} {t : State} (h : perform a s = .next t) : t.Inv := by
  obtain ⟨_, -, ⟨_, rfl⟩ | rfl⟩ | ⟨_, _, -, rfl⟩ | ⟨_, _, _, -, rfl⟩ | ⟨_, _, -, -, hexec⟩ | ⟨_, _, -, -, rfl⟩ |
    ⟨_, _, -, -, hwrite | rfl⟩ | ⟨_, _, -, rfl⟩ | ⟨-, rfl⟩ := perform_cases h
  · exact hinv.setReadData _
  · exact hinv.accessError.setReadData _
  · exact hinv.accessError.setReadData _
  · exact hinv.accessError
  · exact hinv.of_exec hexec
  · exact hinv.raise (by decide)
  · exact hinv.of_writeWord hwrite
  · exact hinv.accessError
  · exact hinv.setPcur _ _
  · exact hinv.resetPulse

end Commands

/-- Settles O44: a step is nothing or one action on the state without it, and every action keeps the invariant. -/
theorem stepKeepsInvariant : Obligations.StepKeepsInvariant := by
  intro s t hinv hstep
  obtain ⟨-, rfl⟩ | ⟨a, rest, -, hperform⟩ := step_cases hstep
  · exact hinv
  · exact (hinv.setInbox rest).of_perform hperform

end Sys2Proof.Machine

/-! PROOFS. The host interface (`20_memory.md`): which addresses are mapped (R36, R37, R41), what a read and a write of
the host do at a register, in a buffer window and elsewhere (R38, R42, R43), and the bytes of a word (R40). -/

namespace Sys2Proof.Machine

/-! ### The register map (R36, R41) -/

theorem regAt_arg (k : Fin 4) : regAt (0x010 + 4 * k.val) = some (.arg k) := by
  revert k
  decide

theorem regAt_pcur (i : Fin 5) : regAt (0x060 + 4 * i.val) = some (.pcur i) := by
  revert i
  decide

theorem regMap_addr_lt : ∀ row ∈ regMap, row.1 < 0x094 := by decide

theorem regAt_eq_none_of_le {addr : Nat} (h : 0x094 ≤ addr) : regAt addr = none := by
  refine List.lookup_eq_none_iff.2 fun row hrow => ?_
  have hlt := regMap_addr_lt row hrow
  simp only [bne_iff_ne]
  omega

/-- The unmapped addresses among the registers: the misaligned ones and the holes of R36. -/
theorem regAt_eq_none_iff_of_lt {addr : Nat} (h : addr < 0x094) :
    regAt addr = none ↔ addr % 4 ≠ 0 ∨ addr ∈ [0x02C, 0x044, 0x048, 0x04C, 0x074, 0x078, 0x07C] := by
  revert addr
  decide

theorem mem_regMap_of_regAt {addr : Nat} {r : Reg} (h : regAt addr = some r) : (addr, r) ∈ regMap := by
  obtain ⟨before, after, hmap, -⟩ := List.lookup_eq_some_iff.1 h
  simp [hmap]

theorem regMap_cmd : ∀ row ∈ regMap, row.2 = .cmd → row.1 = cmdAddr := by decide

theorem eq_cmdAddr_of_regAt {addr : Nat} (h : regAt addr = some .cmd) : addr = cmdAddr :=
  regMap_cmd _ (mem_regMap_of_regAt h) rfl

theorem inWindow_ge {hw : Hardware} {addr : Nat} (h : inWindow hw addr = true) : 0x01000000 ≤ addr := by
  simp only [inWindow, Bool.and_eq_true, decide_eq_true_eq] at h
  omega

/-- A misaligned or unmapped address (R41) is one with neither a register nor a buffer element. -/
theorem badAddress_iff (hw : Hardware) (addr : Nat) :
    badAddress hw addr ↔ regAt addr = none ∧ inWindow hw addr = false := by
  unfold badAddress
  rcases Nat.lt_or_ge addr 0x094 with hlt | hge
  · have hwindow : inWindow hw addr = false :=
      Bool.eq_false_iff.2 fun h => absurd (inWindow_ge h) (by omega)
    have hout : ¬ ((0x094 ≤ addr ∧ addr < 0x01000000) ∨
        (0x01000000 ≤ addr ∧ 4 * (hw.maxCh * hw.blkDepth) ≤ addr % 0x01000000) ∨ 0x04000000 ≤ addr) := by omega
    simp only [regAt_eq_none_iff_of_lt hlt, hwindow, hout, or_false, and_true]
  · have hholes : addr ∉ [0x02C, 0x044, 0x048, 0x04C, 0x074, 0x078, 0x07C] := by
      simp only [List.mem_cons, List.not_mem_nil, or_false]
      omega
    simp only [regAt_eq_none_of_le hge, Bool.eq_false_iff, inWindow, ne_eq, Bool.and_eq_true, decide_eq_true_eq,
      hholes, false_or, true_and]
    omega

/-! ### The word at an address (R36, R37) -/

section Words

variable {s : State} {addr : Nat}

theorem readWord_of_regAt {r : Reg} (h : regAt addr = some r) : s.readWord addr = s.readReg r := by
  unfold State.readWord
  rw [h]

theorem readWord_of_inWindow (h : inWindow s.hw addr = true) : s.readWord addr = some (s.buf.wordAt addr) := by
  unfold State.readWord
  rw [regAt_eq_none_of_le (Nat.le_trans (by decide) (inWindow_ge h)), if_pos h]

theorem readWord_of_badAddress (h : badAddress s.hw addr) : s.readWord addr = none := by
  obtain ⟨hreg, hwindow⟩ := (badAddress_iff _ _).1 h
  unfold State.readWord
  rw [hreg, hwindow]
  rfl

theorem writeWord_of_regAt {r : Reg} (h : regAt addr = some r) (v : Word) : s.writeWord addr v = s.writeReg v r := by
  unfold State.writeWord
  rw [h]

theorem writeWord_of_inWindow (h : inWindow s.hw addr = true) (v : Word) :
    s.writeWord addr v = some (s.setBuf (s.buf.setWordAt addr v)) := by
  unfold State.writeWord
  rw [regAt_eq_none_of_le (Nat.le_trans (by decide) (inWindow_ge h)), if_pos h]

theorem writeWord_of_badAddress (h : badAddress s.hw addr) (v : Word) : s.writeWord addr v = none := by
  obtain ⟨hreg, hwindow⟩ := (badAddress_iff _ _).1 h
  unfold State.writeWord
  rw [hreg, hwindow]
  rfl

/-- CMD is the one write-only register. -/
theorem readReg_eq_none {r : Reg} (h : s.readReg r = none) : r = .cmd := by
  cases r with
  | cmd => rfl
  | _ => cases h

/-- The reads that are access errors (R42). -/
theorem bad_of_readWord_eq_none (h : s.readWord addr = none) : addr = cmdAddr ∨ badAddress s.hw addr := by
  cases hreg : regAt addr with
  | some r =>
    rw [readWord_of_regAt hreg] at h
    exact .inl (eq_cmdAddr_of_regAt (readReg_eq_none h ▸ hreg))
  | none =>
    refine .inr ((badAddress_iff _ _).2 ⟨hreg, Bool.eq_false_iff.2 fun hwindow => ?_⟩)
    rw [readWord_of_inWindow hwindow] at h
    cases h

theorem writeWord_of_readOnly (h : readOnly addr) (v : Word) : s.writeWord addr v = none := by
  unfold readOnly at h
  fin_cases h <;> rfl

theorem ne_cmdAddr_of_badAddress {hw : Hardware} (h : badAddress hw addr) : addr ≠ cmdAddr := by
  rintro rfl
  exact absurd ((badAddress_iff _ _).1 h).1 (by decide)

theorem ne_cmdAddr_of_readOnly (h : readOnly addr) : addr ≠ cmdAddr := by
  rintro rfl
  exact absurd h (by unfold readOnly; decide)

/-! ### The host's transactions (R38, R42, R43) -/

theorem perform_hostRead {w : Word} (h : s.readWord addr = some w) :
    perform (.hostRead addr) s = .next { s with readData := some w } := by
  show Host.Outcome.next (hostRead addr s) = _
  unfold hostRead
  rw [h]
  rfl

theorem perform_hostRead_error (h : s.readWord addr = none) :
    perform (.hostRead addr) s = .next { s with readData := some 0#32, faultlog := s.faultlog ||| 0x40#32 } := by
  show Host.Outcome.next (hostRead addr s) = _
  unfold hostRead
  rw [h]
  rfl

theorem perform_hostWrite {t : State} {v : Word} (h : s.writeWord addr v = some t) :
    perform (.hostWrite addr v) s = .next t := by
  have hcmd : addr ≠ cmdAddr := by
    rintro rfl
    cases h
  show hostWrite addr v s = _
  unfold hostWrite
  rw [if_neg hcmd, h]

theorem perform_hostWrite_error {v : Word} (hcmd : addr ≠ cmdAddr) (h : s.writeWord addr v = none) :
    perform (.hostWrite addr v) s = .next { s with faultlog := s.faultlog ||| 0x40#32 } := by
  show hostWrite addr v s = _
  unfold hostWrite
  rw [if_neg hcmd, h]
  rfl

end Words

theorem perform_hostWrite_arg (s : State) (k : Fin 4) (v : Word) :
    perform (.hostWrite (0x010 + 4 * k.val) v) s = .next (s.setArg k v) :=
  perform_hostWrite (writeWord_of_regAt (regAt_arg k) v)

theorem perform_hostWrite_pcur (s : State) (i : Fin 5) (v : Word) :
    perform (.hostWrite (0x060 + 4 * i.val) v) s = .next (s.setPcur i v) :=
  perform_hostWrite (writeWord_of_regAt (regAt_pcur i) v)

/-! ### Words as numbers (R40) -/

theorem toNat_append_eq_add {m n : Nat} (x : BitVec m) (y : BitVec n) : (x ++ y).toNat = x.toNat * 2 ^ n + y.toNat := by
  rw [BitVec.toNat_append, ← Nat.shiftLeft_add_eq_or_of_lt y.isLt, Nat.shiftLeft_eq]

/-- A word of four bytes, the first the least significant. -/
theorem toNat_wordOf (b0 b1 b2 b3 : Byte) :
    u (wordOf b0 b1 b2 b3) = b0.toNat + 256 * b1.toNat + 256 ^ 2 * b2.toNat + 256 ^ 3 * b3.toNat := by
  unfold wordOf u
  simp only [toNat_append_eq_add]
  omega

theorem Buffers.toNat_byte_eq (m : Buffers) (a : Nat) {j : Nat} (hj : j < 4) :
    (m.byte (a + j)).toNat = u (m.wordAt a) / 256 ^ j % 256 := by
  have hword : u (m.wordAt a) = (m.byte (a + 0)).toNat + 256 * (m.byte (a + 1)).toNat +
      256 ^ 2 * (m.byte (a + 2)).toNat + 256 ^ 3 * (m.byte (a + 3)).toNat := toNat_wordOf _ _ _ _
  have hbyte (k : Nat) : (m.byte (a + k)).toNat < 256 := (m.byte (a + k)).isLt
  have h0 := hbyte 0
  have h1 := hbyte 1
  have h2 := hbyte 2
  have h3 := hbyte 3
  rw [hword]
  interval_cases j <;> omega

/-- The fields of STATUS (`10_state.md` R26) as a number. -/
theorem statusWord_eq_ofNat (prepared : Bool) (lasterr : BitVec 8) :
    statusWord prepared lasterr = BitVec.ofNat 32 ((if prepared then 1 else 0) + 256 * lasterr.toNat) := by
  have hlasterr := lasterr.isLt
  apply BitVec.eq_of_toNat_eq
  unfold statusWord
  simp only [toNat_append_eq_add, BitVec.toNat_ofNat, BitVec.toNat_ofBool]
  cases prepared <;> simp <;> omega

/-! ### The buffer windows and the byte order (R37, R40) -/

/-- Settles O56: the element's address is in a window, so the read and the write are those of the buffer word there. -/
theorem bufferWindowReadsBackWrites : Obligations.BufferWindowReadsBackWrites := by
  intro s b c i v hok hc hi
  have hwindow : inWindow s.hw (bufAddr s.hw b c i) = true := inWindow_bufAddr hok b hc hi
  refine ⟨perform_hostRead (readWord_of_inWindow hwindow), s.setBuf (s.buf.set s.hw b c i v),
    perform_hostWrite (writeWord_of_inWindow hwindow v), ?_, ?_, rfl⟩
  · intro b' c' i' hc' hi'
    exact Buffers.get_set_element hok s.buf v hc hi hc' hi'
  · intro x hx
    exact Buffers.byte_set_of_ne s.buf s.hw b c i v hx

/-- Settles O57: byte `j` of four is digit `j` of the word's number in base 256. -/
theorem bufferBytesAreLittleEndian : Obligations.BufferBytesAreLittleEndian := fun s b c i _ hj =>
  s.buf.toNat_byte_eq (bufAddr s.hw b c i) hj

/-! ### The registers the host reads and writes (R36, R43) -/

/-- Settles O50: row by row of R36, the content column is what the model's register map reads. -/
theorem registerReadsReturnContents : Obligations.RegisterReadsReturnContents := by
  intro s addr w hrow
  refine perform_hostRead
    (List.map_inj_left (f := fun row => s.readWord row.1) (g := fun row => some row.2).1 ?_ _ hrow)
  rw [← statusWord_eq_ofNat]
  rfl

/-- Settles O51: a read finds a word, or it is one of the access errors. -/
theorem hostReadsHaveNoOtherEffect : Obligations.HostReadsHaveNoOtherEffect := by
  intro s addr
  cases hread : s.readWord addr with
  | some w => exact ⟨w, .inl (perform_hostRead hread)⟩
  | none => exact ⟨0#32, .inr ⟨bad_of_readWord_eq_none hread, perform_hostRead_error hread⟩⟩

/-- Settles O52: at these addresses the map has no word to read, or no place to write. -/
theorem accessErrorsAreLoggedOnly : Obligations.AccessErrorsAreLoggedOnly := by
  intro s addr v
  refine ⟨fun hbad => ⟨?_, ?_⟩, ?_, fun hro => ?_⟩
  · exact perform_hostRead_error (readWord_of_badAddress hbad)
  · exact perform_hostWrite_error (ne_cmdAddr_of_badAddress hbad) (writeWord_of_badAddress hbad v)
  · exact perform_hostRead_error rfl
  · exact perform_hostWrite_error (ne_cmdAddr_of_readOnly hro) (writeWord_of_readOnly hro v)

/-- Settles O53: the four ARG registers, by their addresses. -/
theorem argWritesStoreTheWord : Obligations.ArgWritesStoreTheWord := fun s v =>
  ⟨perform_hostWrite_arg s 0 v, perform_hostWrite_arg s 1 v, perform_hostWrite_arg s 2 v, perform_hostWrite_arg s 3 v⟩

/-- Settles O54: both agents write the bank through `paramSet`. -/
theorem parameterWritesStoreTheWord : Obligations.ParameterWritesStoreTheWord := fun s i v =>
  ⟨paramSet s.pcur i v, fun j => paramGet_paramSet s.pcur i j v, rfl, perform_hostWrite_pcur s i v⟩

/-- Settles O55: a narrow access is an access error before its address is looked at (D21). -/
theorem narrowAccessesAreErrors : Obligations.NarrowAccessesAreErrors := by
  intro s n addr v
  constructor
  · show Host.Outcome.next (s.accessError.setReadData 0#32) = _
    rw [accessError_eq]
    rfl
  · show Host.Outcome.next s.accessError = _
    rw [accessError_eq]

end Sys2Proof.Machine

/-! PROOFS. The command word (`30_encoding.md`): the decoder row by row of R58 (R55 to R59), the legal words and
`E_ILLEGAL_CMD` (R60), and the actions of an assembled line (R62, R63). -/

namespace Sys2Proof

/-! ### The fields of a word (R55) -/

/-- A word with nothing in `[31:16]` is its other four fields packed. -/
theorem packWord_fields {w : Word} (hzero : zeroField w = 0#16) :
    packWord (opcField w) (chField w) (baField w) (bbField w) = w := by
  have hch : BitVec.ofNat 4 (chField w) = w.extractLsb' 8 4 := by rw [chField, BitVec.ofNat_toNat, BitVec.setWidth_eq]
  unfold packWord
  rw [hch, ← hzero]
  unfold zeroField bbField baField opcField
  rw [BitVec.extractLsb'_append_extractLsb'_eq_extractLsb' (show 16 = 14 + 2 from rfl),
    BitVec.extractLsb'_append_extractLsb'_eq_extractLsb' (show 14 = 12 + 2 from rfl),
    BitVec.extractLsb'_append_extractLsb'_eq_extractLsb' (show 12 = 8 + 4 from rfl),
    BitVec.extractLsb'_append_extractLsb'_eq_extractLsb' (show 8 = 0 + 8 from rfl)]
  exact BitVec.extractLsb'_eq_self

theorem packWord_opcode (opc : BitVec 8) : packWord opc 0 0#2 0#2 = opc.setWidth 32 := by
  simp [packWord, BitVec.setWidth_eq_append]

theorem chField_lt (w : Word) : chField w < 16 := (w.extractLsb' 8 4).isLt

/-! ### The mask test (R56) -/

/-- The fields a format does not use hold 0. -/
def Format.UnusedZero (ch : Nat) (ba bb : BitVec 2) : Format → Prop
  | .z => ch = 0 ∧ ba = 0#2 ∧ bb = 0#2
  | .ca => bb = 0#2
  | .cb => ba = 0#2
  | .cab => True

theorem and_mask_z (w : Word) : w &&& Format.z.mask = w := BitVec.and_allOnes

theorem baField_and_mask_cb (w : Word) : baField (w &&& Format.cb.mask) = baField w := by
  unfold baField
  rw [BitVec.extractLsb'_and]
  exact BitVec.and_allOnes

theorem bbField_and_mask_ca (w : Word) : bbField (w &&& Format.ca.mask) = bbField w := by
  unfold bbField
  rw [BitVec.extractLsb'_and]
  exact BitVec.and_allOnes

/-- With nothing in `[31:16]` the mask test of a format is that its unused fields hold 0. -/
theorem maskTest_iff {w : Word} (hzero : zeroField w = 0#16) (fmt : Format) :
    w &&& fmt.mask = (opcField w).setWidth 32 ↔ fmt.UnusedZero (chField w) (baField w) (bbField w) := by
  have hw := packWord_fields hzero
  constructor
  · intro htest
    rw [← packWord_opcode] at htest
    cases fmt with
    | z =>
      rw [and_mask_z] at htest
      rw [htest]
      simp [Format.UnusedZero]
    | ca => simpa [Format.UnusedZero, bbField_and_mask_ca] using congrArg bbField htest
    | cb => simpa [Format.UnusedZero, baField_and_mask_cb] using congrArg baField htest
    | cab => trivial
  · intro hunused
    cases fmt with
    | z =>
      obtain ⟨hch, hba, hbb⟩ := hunused
      rw [hch, hba, hbb, packWord_opcode] at hw
      rw [and_mask_z, hw]
    | ca =>
      rw [show bbField w = 0#2 from hunused] at hw
      simpa only [hw] using mask_ca (opcField w) (chField w) (baField w)
    | cb =>
      rw [show baField w = 0#2 from hunused] at hw
      simpa only [hw] using mask_cb (opcField w) (chField w) (bbField w)
    | cab => simpa only [hw] using mask_cab (opcField w) (chField w) (baField w) (bbField w)

/-! ### Rows of the opcode table (R58) -/

/-- Only buffer id 3 names no buffer (R60). -/
theorem exists_code_eq_iff (b : BitVec 2) : (∃ x : BufId, b = x.code) ↔ b ≠ 3#2 := by
  constructor
  · rintro ⟨x, rfl⟩
    cases x <;> decide
  · intro hb
    have hcode : ∀ b : BitVec 2, b ≠ 3#2 → b = BufId.io.code ∨ b = BufId.wet.code ∨ b = BufId.dry.code := by decide
    obtain h | h | h := hcode b hb <;> exact ⟨_, h⟩

theorem bufOfField_eq_some_iff (b : BitVec 2) (x : BufId) : bufOfField b = some x ↔ b = x.code := by
  revert b
  cases x <;> decide

/-- The command `i` is the row of opcode `opc` and format `fmt` with these operands, 0 where the format has none. -/
structure CommandRow (opc : BitVec 8) (fmt : Format) (ch : Nat) (ba bb : BufId) (i : Instr) : Prop where
  format : formatOf opc = some fmt
  unused : fmt.UnusedZero ch ba.code bb.code
  command : instrOf opc ch ba bb = some i

/-- Every command has its row, and its encoding packs the row's fields. -/
theorem exists_commandRow (i : Instr) :
    ∃ opc fmt ch ba bb, encode i = packWord opc ch ba.code bb.code ∧ CommandRow opc fmt ch ba bb i := by
  cases i with
  | nop | prepare | process | getpcount | getparam | setparam | savestate | loadstate | rbRdpos | cursorAdv | ratediv
  | rampCommit => exact ⟨_, .z, 0, .io, .io, rfl, rfl, ⟨rfl, rfl, rfl⟩, rfl⟩
  | rbWrite c src | rbWriteRamp c src => exact ⟨_, .cb, c, .io, src, rfl, rfl, rfl, rfl⟩
  | rbReadaddRamp c b | decimate c b | decimateBlk c b => exact ⟨_, .ca, c, b, .io, rfl, rfl, rfl, rfl⟩
  | bufCopy c dst src | bufSub c dst src | bufCopyRamp c dst src | bufAddRamp c dst src =>
    exact ⟨_, .cab, c, dst, src, rfl, rfl, trivial, rfl⟩

section Row

variable {opc : BitVec 8} {fmt : Format} {ch : Nat} {ba bb : BufId} {i : Instr}

/-- A row's command encodes to the row's fields. -/
theorem CommandRow.encode_eq (h : CommandRow opc fmt ch ba bb i) : encode i = packWord opc ch ba.code bb.code := by
  obtain ⟨hformat, hunused, hcommand⟩ := h
  unfold instrOf at hcommand
  split at hcommand <;> cases hcommand
  all_goals
    cases hformat
    simp_all [encode, Format.UnusedZero]

/-- A row's command is well-formed exactly when its channel fits the four bits of `CH`. -/
theorem CommandRow.wellFormed_iff (h : CommandRow opc fmt ch ba bb i) : i.wellFormed = true ↔ ch < 16 := by
  obtain ⟨hformat, hunused, hcommand⟩ := h
  unfold instrOf at hcommand
  split at hcommand <;> cases hcommand
  all_goals
    cases hformat
    simp_all [Instr.wellFormed, Instr.channel?, Format.UnusedZero]

end Row

/-- Every listed opcode names a command, whatever the operands. -/
theorem exists_instrOf_of_formatOf {opc : BitVec 8} {fmt : Format} (h : formatOf opc = some fmt) (ch : Nat)
    (ba bb : BufId) : ∃ i, instrOf opc ch ba bb = some i := by
  unfold formatOf at h
  split at h <;> cases h
  all_goals exact ⟨_, rfl⟩

/-! ### The decoder (R59) -/

/-- The decoder answers the command whose row the word's fields are. -/
theorem decode_eq_ok_iff (w : Word) (i : Instr) :
    decode w = .ok i ↔ zeroField w = 0#16 ∧ ∃ fmt ba bb, baField w = ba.code ∧ bbField w = bb.code ∧
      CommandRow (opcField w) fmt (chField w) ba bb i := by
  constructor
  · intro h
    unfold decode at h
    split at h
    · cases h
    rename_i fmt hformat
    split_ifs at h with hzero htest
    rw [not_not] at hzero htest
    split at h
    · rename_i ba bb hba hbb
      rw [bufOfField_eq_some_iff] at hba hbb
      split at h
      · rename_i hcommand
        cases h
        refine ⟨hzero, fmt, ba, bb, hba, hbb, hformat, ?_, hcommand⟩
        rw [← hba, ← hbb]
        exact (maskTest_iff hzero fmt).1 htest
      · cases h
    · cases h
  · rintro ⟨hzero, fmt, ba, bb, hba, hbb, hformat, hunused, hcommand⟩
    rw [← hba, ← hbb, ← maskTest_iff hzero] at hunused
    rw [← bufOfField_eq_some_iff] at hba hbb
    simp [decode, hformat, hzero, hunused, hba, hbb, hcommand]

/-- Settles O1: a decoded command's row packs back to the word, and the fields of a well-formed command's encoding are
its row again. -/
theorem decodeExactlyInvertsEncode : Obligations.DecodeExactlyInvertsEncode := by
  intro w i
  rw [decode_eq_ok_iff]
  constructor
  · rintro ⟨hzero, fmt, ba, bb, hba, hbb, hrow⟩
    refine ⟨hrow.wellFormed_iff.2 (chField_lt w), ?_⟩
    rw [hrow.encode_eq, ← hba, ← hbb, packWord_fields hzero]
  · rintro ⟨hwf, rfl⟩
    obtain ⟨opc, fmt, ch, ba, bb, hencode, hrow⟩ := exists_commandRow i
    rw [hencode]
    refine ⟨zeroField_packWord .., fmt, ba, bb, baField_packWord .., bbField_packWord .., ?_⟩
    rw [opcField_packWord, chField_packWord, Nat.mod_eq_of_lt (hrow.wellFormed_iff.1 hwf)]
    exact hrow

theorem decode_encode {i : Instr} (hwf : i.wellFormed = true) : decode (encode i) = .ok i :=
  (decodeExactlyInvertsEncode _ i).2 ⟨hwf, rfl⟩

/-- Settles O3: sixteen fixed words, evaluated. -/
theorem sampleCommandWordsDecode : Obligations.SampleCommandWordsDecode := by
  unfold Obligations.SampleCommandWordsDecode
  decide

/-! ### Legal words (R60) -/

/-- The words that decode, by their fields. -/
theorem exists_decode_iff (w : Word) :
    (∃ i, decode w = .ok i) ↔ zeroField w = 0#16 ∧ baField w ≠ 3#2 ∧ bbField w ≠ 3#2 ∧
      ∃ fmt, formatOf (opcField w) = some fmt ∧ fmt.UnusedZero (chField w) (baField w) (bbField w) := by
  simp only [decode_eq_ok_iff, ← exists_code_eq_iff]
  constructor
  · rintro ⟨i, hzero, fmt, ba, bb, hba, hbb, hrow⟩
    exact ⟨hzero, ⟨ba, hba⟩, ⟨bb, hbb⟩, fmt, hrow.format, hba ▸ hbb ▸ hrow.unused⟩
  · rintro ⟨hzero, ⟨ba, hba⟩, ⟨bb, hbb⟩, fmt, hformat, hunused⟩
    obtain ⟨i, hcommand⟩ := exists_instrOf_of_formatOf hformat (chField w) ba bb
    exact ⟨i, hzero, fmt, ba, bb, hba, hbb, hformat, hba ▸ hbb ▸ hunused, hcommand⟩

/-- The opcodes of a format, as R58 numbers them. -/
def Format.opcodes : Format → List Nat
  | .z => [0, 1, 2, 3, 4, 5, 6, 7, 0x13, 0x14, 0x18, 0x24]
  | .ca => [0x12, 0x19, 0x1A]
  | .cb => [0x10, 0x11]
  | .cab => [0x20, 0x21, 0x22, 0x23]

theorem formatOf_eq_some_iff (opc : BitVec 8) (fmt : Format) : formatOf opc = some fmt ↔ opc.toNat ∈ fmt.opcodes := by
  constructor
  · intro h
    unfold formatOf at h
    split at h <;> cases h
    all_goals decide
  · intro h
    have hopc : BitVec.ofNat 8 opc.toNat = opc := by simp
    rw [← hopc]
    generalize opc.toNat = n at h
    cases fmt <;> fin_cases h <;> rfl

theorem Format.exists_iff {p : Format → Prop} : (∃ fmt, p fmt) ↔ p .z ∨ p .ca ∨ p .cb ∨ p .cab :=
  ⟨fun ⟨fmt, h⟩ => by cases fmt <;> simp [h], by rintro (h | h | h | h) <;> exact ⟨_, h⟩⟩

/-! The fields as the numbers R55 gives. -/

theorem toNat_opcField (w : Word) : (opcField w).toNat = u w % 256 := by
  simp [opcField]

theorem chField_eq (w : Word) : chField w = u w / 256 % 16 := by
  simp [chField, Nat.shiftRight_eq_div_pow]

theorem toNat_baField (w : Word) : (baField w).toNat = u w / 4096 % 4 := by
  simp [baField, Nat.shiftRight_eq_div_pow]

theorem toNat_bbField (w : Word) : (bbField w).toNat = u w / 16384 % 4 := by
  simp [bbField, Nat.shiftRight_eq_div_pow]

theorem toNat_zeroField (w : Word) : (zeroField w).toNat = u w / 65536 := by
  have hlt := w.isLt
  rw [zeroField, BitVec.extractLsb'_toNat, Nat.shiftRight_eq_div_pow, Nat.mod_eq_of_lt (by omega)]

end Sys2Proof

namespace Sys2Proof.Machine

/-- The list of R60 in numbers says what the decoder tests of the fields. -/
theorem legalWord_iff (w : Word) : legalWord w ↔ ∃ i, decode w = .ok i := by
  simp only [exists_decode_iff, Format.exists_iff, formatOf_eq_some_iff, Format.opcodes, Format.UnusedZero, ne_eq,
    ← BitVec.toNat_inj, toNat_opcField, chField_eq, toNat_baField, toNat_bbField, toNat_zeroField, legalWord,
    BitVec.toNat_ofNat, Nat.reducePow, Nat.reduceMod]
  have hba : u w / 4096 % 4 = 0 → ¬ u w / 4096 % 4 = 3 := by omega
  have hbb : u w / 16384 % 4 = 0 → ¬ u w / 16384 % 4 = 3 := by omega
  grind

/-- The host's write of an illegal word to CMD is `E_ILLEGAL_CMD`, from the word alone (`60_exceptions.md` R116). -/
theorem perform_illegal_command {w : Word} {e : DecodeError} (s : State) (h : decode w = .error e) :
    perform (.hostWrite cmdAddr w) s = .next (faulted 1 s) := by
  show hostWrite cmdAddr w s = _
  unfold hostWrite command
  rw [if_pos rfl, h, ← raise_illegalCmd]

/-- Settles O2: the legal words are those that decode, and no other reaches a command. -/
theorem illegalWordsFaultAndLegalWordsDecode : Obligations.IllegalWordsFaultAndLegalWordsDecode := by
  intro w
  rw [legalWord_iff]
  refine ⟨id, fun hillegal => ?_⟩
  cases hdecode : decode w with
  | ok i => exact absurd ⟨i, hdecode⟩ hillegal
  | error e => exact ⟨⟨e, rfl⟩, fun s => perform_illegal_command s hdecode⟩

/-! ### Assembled lines (R62, R63) -/

theorem after_succ_of_step {s t : State} (h : step s = .next t) (k : Nat) : s.after (k + 1) = t.after k := by
  rw [State.after, h]

/-- The HostWrites of words to ARG registers, in the order of the list. -/
def argWrites (kws : List (Fin 4 × Word)) : List Action := kws.map fun kw => .hostWrite (argAddr kw.1) kw.2

/-- A line is the writes of its operands, then the write of its word. -/
theorem assemble_eq (i : Instr) (ws : List Word) :
    assemble i ws = argWrites ((argsUsed i).zip ws) ++ [.hostWrite cmdAddr (encode i)] := by
  rw [assemble, argWrites, List.map_zip_eq_zipWith]
  rfl

/-- ARG writes that are pending first each store their word, and the rest stays pending. -/
theorem after_argWrites (kws : List (Fin 4 × Word)) (rest : List Action) (n : Nat) (s : State) :
    ({ s with inbox := argWrites kws ++ rest } : State).after (kws.length + n) =
      ({ s with inbox := rest, arg := kws.foldl (fun a kw => a.set kw.1 kw.2) s.arg } : State).after n := by
  induction kws generalizing s with
  | nil => simp [argWrites]
  | cons kw kws ih =>
    have hstep : step { s with inbox := argWrites (kw :: kws) ++ rest } =
        .next { s.setArg kw.1 kw.2 with inbox := argWrites kws ++ rest } :=
      (step_cons rfl).trans (perform_hostWrite_arg _ kw.1 kw.2)
    rw [List.length_cons, Nat.add_right_comm, after_succ_of_step hstep, ih]
    rfl

/-- Settles O6: the ARG writes leave the state the command is to run on, and the last write is the command's word. -/
theorem assembledLineRunsCommand : Obligations.AssembledLineRunsCommand := by
  intro s t i ws hwf hlen hexec
  have hcount : ws.length = ((argsUsed i).zip ws).length := by simp [hlen]
  rw [assemble_eq, hcount, after_argWrites]
  refine after_succ_of_step ?_ 0
  exact (step_cons rfl).trans ((perform_command _ (decode_encode hwf)).trans hexec)

/-- `0.75q` of the example line. -/
theorem fx_three_quarters : fx (3 / 4) = 0x00C00000#32 := by
  have hfloor : ((3 / 4 : Rat) * 2 ^ 24).floor = 12582912 := by
    rw [show (3 / 4 : Rat) * 2 ^ 24 = ((12582912 : Int) : Rat) by norm_num, Rat.floor_intCast]
  rw [fx, hfloor]
  decide

/-- What a line assembles to, from the reading of each of its parts. -/
theorem assembleLine_eq {name : String} {operands rest : List Operand} {opc : BitVec 8} {fmt : Format} {c : Nat}
    {ba bb : BufId} {i : Instr} {ws : List Word} (hname : opcodeNamed name = some opc)
    (hformat : formatOf opc = some fmt) (hoperands : wordOperands fmt operands = some (c, ba, bb, rest))
    (hcommand : instrOf opc c ba bb = some i) (hwords : operandWords rest = some ws) (hwf : i.wellFormed = true)
    (hlen : ws.length = (argsUsed i).length) : assembleLine name operands = some (assemble i ws) := by
  simp [assembleLine, hname, hformat, hoperands, hcommand, hwords, hwf, hlen]

/-- Settles O7: the line is RB.WRITE.RAMP of channel 1 and WET, with the four words its operands stand for. -/
theorem exampleLineAssembles : Obligations.ExampleLineAssembles := by
  have hwords : operandWords [.num 5, .num 6, .num 0, .q (3 / 4)] = some [5#32, 6#32, 0#32, 0x00C00000#32] := by
    simp [operandWords, operandWord, fx_three_quarters]
  have hname : opcodeNamed "RB.WRITE.RAMP" = some 0x11#8 := by decide
  exact (assembleLine_eq (i := .rbWriteRamp 1 .wet) hname rfl rfl rfl hwords rfl rfl).trans (by decide)

end Sys2Proof.Machine

/-! PROOFS. The Ring Delay Buffer commands (`40_ring.md`): the indices of an access (R70), what the write port and the read
port store (R71, R72, R74, R76), the read position (R73), the cursor (R75), and the ring row as the history of a stream
(R77). -/

namespace Sys2Proof.Machine

/-! ### The words of the ring commands (R55) -/

/-- A packed word as a number, each field at its place. -/
theorem packWord_eq_ofNat (opc : BitVec 8) {ch : Nat} (hch : ch < 16) (ba bb : BitVec 2) :
    packWord opc ch ba bb =
      BitVec.ofNat 32 (opc.toNat + 0x100 * ch + 0x1000 * ba.toNat + 0x4000 * bb.toNat) := by
  apply BitVec.eq_of_toNat_eq
  have hba := ba.isLt
  have hbb := bb.isLt
  have hopc := opc.isLt
  simp only [packWord, toNat_append_eq_add, BitVec.toNat_ofNat]
  omega

/-- A word given as a number decodes to the command whose fields it packs. -/
theorem decode_ofNat {i : Instr} {opc : BitVec 8} {ch n : Nat} {ba bb : BitVec 2} (hwf : i.wellFormed = true)
    (hch : ch < 16) (hencode : encode i = packWord opc ch ba bb)
    (hn : opc.toNat + 0x100 * ch + 0x1000 * ba.toNat + 0x4000 * bb.toNat = n) :
    decode (BitVec.ofNat 32 n) = .ok i := by
  rw [← hn, ← packWord_eq_ofNat opc hch, ← hencode, decode_encode hwf]

/-! ### The indices of an access (R70) -/

section Index

variable {cap s i : Nat}

/-- Before the wrap: the first of the two copies. -/
theorem ringIndex_of_lt (h : s + i < cap) : ringIndex cap s i = s + i := Nat.mod_eq_of_lt h

/-- From the wrap on: the second of the two copies. -/
theorem ringIndex_of_le (hs : s < cap) (hi : i ≤ cap) (h : cap ≤ s + i) : ringIndex cap s i = s + i - cap := by
  unfold ringIndex
  rw [Nat.mod_eq_sub_mod h, Nat.mod_eq_of_lt (by omega)]

/-- Going round the ring once more is the same element. -/
theorem ringIndex_add_cap (cap s i : Nat) : ringIndex cap s (i + cap) = ringIndex cap s i := by
  unfold ringIndex
  rw [← Nat.add_assoc, Nat.add_mod_right]

/-- An access from a moved start (R75) is the access from the old start, further on. -/
theorem ringIndex_ringIndex (cap s n i : Nat) : ringIndex cap (ringIndex cap s n) i = ringIndex cap s (n + i) := by
  unfold ringIndex
  rw [Nat.mod_add_mod, Nat.add_assoc]

end Index

/-- Settles O19: the two copies on either side of the wrap, and distinctness within one capacity. -/
theorem ringAccessSplitsAtTheWrap : Obligations.RingAccessSplitsAtTheWrap := by
  intro cap s len i j hs hlen hi hj
  refine ⟨ringIndex_lt (Nat.zero_lt_of_lt hs) s i, fun hfirst => ringIndex_of_lt (by omega), fun hsecond => ?_,
    ringIndex_inj (hi.trans_le hlen) (hj.trans_le hlen)⟩
  rw [ringIndex_of_le hs (by omega) (by omega)]
  omega

/-! ### The checks common to the ring accesses (R76) -/

section Checks

variable {s : State} {c : Nat} {i : Instr} {effect : State → State}
  (hexec : exec i s = runCommand (ringChecks s c) effect s)
include hexec

theorem exec_ringAccess_unprepared (h : s.prepared = false) : exec i s = .next (faulted 2 s) := by
  have hfault : firstFault (ringChecks s c) = some .notPrepared := by rw [firstFault_ringChecks, if_pos h]
  rw [hexec, runCommand_fault effect s hfault, raise_notPrepared]

theorem exec_ringAccess_badArg (hprepared : s.prepared = true)
    (h : u s.nch ≤ c ∨ u s.cap ≤ u s.arg.a0 ∨ u s.cap < u s.arg.a1 ∨ u s.maxblk < u s.arg.a1) :
    exec i s = .next (faulted 3 s) := by
  have hfault : firstFault (ringChecks s c) = some .badArg := by
    rw [firstFault_ringChecks, if_neg (by simp [hprepared]), if_pos h]
  rw [hexec, runCommand_fault effect s hfault, raise_badArg]

theorem exec_ringAccess_pass (hprepared : s.prepared = true) (hc : c < u s.nch) (hstart : u s.arg.a0 < u s.cap)
    (hcap : u s.arg.a1 ≤ u s.cap) (hblock : u s.arg.a1 ≤ u s.maxblk) : exec i s = .next (effect s).complete := by
  have hpass : firstFault (ringChecks s c) = none := by
    rw [firstFault_ringChecks, if_neg (by simp [hprepared]), if_neg (by omega)]
  rw [hexec, runCommand_pass effect s hpass]

end Checks

/-! ### The write port (R71, R72) -/

/-- Putting the write port's pass into the state stores its samples and nothing else. -/
theorem storesRing_ringWriteBlock (s : State) (c start : Nat) {len : Nat} (hlen : len ≤ u s.cap) {f g : Nat → Word}
    (hfg : ∀ i < len, f i = g i) :
    StoresRing s (.next (s.setRing (ringWriteBlock s.hw (u s.cap) c start len f s.ring)).complete) c start len g := by
  refine ⟨_, rfl, fun i hi => (ringWriteBlock_hit hlen f s.ring hi).trans (hfg i hi), fun x hx => ?_, rfl⟩
  exact ringWriteBlock_byte s.hw (u s.cap) c start len f s.ring
    fun i hi j hj heq => hx ⟨i, hi, j, hj, heq⟩

/-- Settles O13: RB.WRITE is the checks of R76 and one pass of the write port. -/
theorem rbWriteStoresSamples : Obligations.RbWriteStoresSamples := by
  intro s c src
  have hexec := exec_rbWrite s c src
  refine ⟨fun hc => decode_ofNat (decide_eq_true hc) hc rfl (by simp), exec_ringAccess_unprepared hexec,
    exec_ringAccess_badArg hexec, ?_⟩
  intro _ hprepared hc hstart hcap hblock
  rw [exec_ringAccess_pass hexec hprepared hc hstart hcap hblock]
  exact storesRing_ringWriteBlock s c _ hcap fun i _ => rfl

/-- Settles O14: as RB.WRITE, with the integer form of the exact scaled value. -/
theorem rbWriteRampStoresScaledSamples : Obligations.RbWriteRampStoresScaledSamples := by
  intro s c src
  have hexec := exec_rbWriteRamp s c src
  refine ⟨fun hc => decode_ofNat (decide_eq_true hc) hc rfl (by simp), exec_ringAccess_unprepared hexec,
    exec_ringAccess_badArg hexec, ?_⟩
  intro _ hprepared hc hstart hcap hblock
  rw [exec_ringAccess_pass hexec hprepared hc hstart hcap hblock]
  exact storesRing_ringWriteBlock s c _ hcap fun i hi => (fx_scale _ _ _ _ (Nat.zero_lt_of_lt hi)).symm

theorem loop_congr {α : Type} {f g : Nat → α → α} {n : Nat} (h : ∀ i < n, f i = g i) (x : α) :
    loop n f x = loop n g x := by
  induction n with
  | zero => rfl
  | succ n ih => rw [loop_succ, loop_succ, h n (by omega), ih fun i hi => h i (by omega)]

/-- Only the samples of the access reach the ring. -/
theorem ringWriteBlock_congr (hw : Hardware) (cap c s : Nat) {len : Nat} {f g : Nat → Word} (h : ∀ i < len, f i = g i)
    (r : Ring) : ringWriteBlock hw cap c s len f r = ringWriteBlock hw cap c s len g r :=
  loop_congr (fun i hi => by rw [h i hi]) r

/-- Two commands with the same checks are the same where their effects are. -/
theorem runCommand_congr {effect effect' : State → State} {s : State} (checks : List (Bool × ErrCode))
    (h : effect s = effect' s) : runCommand checks effect s = runCommand checks effect' s := by
  unfold runCommand
  rw [h]

/-- Settles O15: the checks are the same, and at gain 1.0 each scaled sample is the sample. -/
theorem unityRampWriteEqualsPlainWrite : Obligations.UnityRampWriteEqualsPlainWrite := by
  intro s c src hfrom hto
  have hunity : ∀ i < s.length, rampSamples s.hw s.buf src c s.gainFrom s.gainTo s.length i =
      plainSamples s.hw s.buf src c i := by
    intro i hi
    rw [show s.gainFrom = 0x01000000#32 from hfrom, show s.gainTo = 0x01000000#32 from hto]
    exact scaled_unity _ i (Nat.zero_lt_of_lt hi)
  rw [exec_rbWriteRamp, exec_rbWrite]
  exact runCommand_congr _ (congrArg s.setRing (ringWriteBlock_congr s.hw (u s.cap) c s.position hunity s.ring))

/-! ### The read port (R74) -/

/-- Putting the read port's pass into the state adds the scaled ring samples to the block and changes nothing else. -/
theorem storesBlock_ringReadAddBlock {s : State} (hok : s.hw.ok = true) {c : Nat} (hc : c < s.hw.maxCh) (start : Nat)
    {len : Nat} (hlen : len ≤ s.hw.blkDepth) (dst : BufId) (a b : Word) :
    StoresBlock s (.next (s.setBuf (ringReadAddBlock s.hw (u s.cap) c start len dst a b s.ring s.buf)).complete) dst c
      len fun i => fx (val (s.bufAt dst c i) + scale (s.ringAt c ((start + i) % u s.cap)) a b i len) := by
  refine ⟨_, rfl, fun i hi => ?_, fun x hx => ?_, rfl⟩
  · refine Eq.trans ?_ (fx_add_scale _ _ _ _ _ (Nat.zero_lt_of_lt hi)).symm
    exact (ringReadAddBlock_get hok hc _ start hlen dst a b s.ring s.buf dst hc (hi.trans_le hlen)).trans
      (if_pos ⟨rfl, rfl, hi⟩)
  · exact ringReadAddBlock_byte s.hw (u s.cap) c start len dst a b s.ring s.buf
      fun i hi j hj heq => hx ⟨i, hi, j, hj, heq⟩

/-- Settles O16: RB.READADD.RAMP is the checks of R76 and one pass of the read port. -/
theorem rbReadaddRampAddsScaledRing : Obligations.RbReadaddRampAddsScaledRing := by
  intro s c dst
  have hexec := exec_rbReadaddRamp s c dst
  refine ⟨fun hc => decode_ofNat (decide_eq_true hc) hc rfl (by simp), exec_ringAccess_unprepared hexec,
    exec_ringAccess_badArg hexec, ?_⟩
  intro hinv hprepared hc hstart hcap hblock
  rw [exec_ringAccess_pass hexec hprepared hc hstart hcap hblock]
  exact storesBlock_ringReadAddBlock hinv.hardware (hinv.channel_lt_maxCh hprepared hc) _
    (hinv.le_blkDepth hprepared hblock) dst _ _

/-! ### The read position (R73) -/

/-- The integer delay a command computes is the floor of the exact one. -/
theorem exactDelay_eq (sr t : Word) : exactDelay sr t = delaySamples sr t := by
  have hexact : (u sr : Rat) * val t = ((u sr * raw t : Int) : Rat) / ((2 ^ 24 : Nat) : Rat) := by
    unfold val
    push_cast
    ring
  rw [exactDelay, hexact, floor_div]
  rfl

theorem readStart_eq (s : State) : readStart s = readPosition s.wcur s.cap s.sr s.pcur.time := by
  unfold readStart readPosition
  rw [exactDelay_eq]

/-- The size of a delay, for any rate and any `time`. -/
theorem abs_exactDelay_lt (sr t : Word) : |exactDelay sr t| < 2 ^ 39 := by
  obtain ⟨hlow, hhigh⟩ := raw_bounds t
  have hsr : (u sr : Int) ≤ 2 ^ 32 - 1 := Int.le_sub_one_of_lt (by exact_mod_cast sr.isLt)
  have hmin : -((2 ^ 32 - 1) * 2 ^ 31) ≤ (u sr : Int) * raw t := by nlinarith
  have hmax : (u sr : Int) * raw t ≤ (2 ^ 32 - 1) * 2 ^ 31 := by nlinarith
  rw [exactDelay_eq, delaySamples, abs_lt]
  omega

section Delay

variable {sr t : Word}

theorem exactDelay_nonneg (hlow : 0 ≤ val t) : 0 ≤ exactDelay sr t :=
  Rat.le_floor_iff.2 (by push_cast; positivity)

/-- For `time` up to 1.7 the delay is at most 1.7 seconds. -/
theorem exactDelay_le (hhigh : val t ≤ 17 / 10) : (exactDelay sr t : Rat) ≤ 17 / 10 * (u sr : Rat) := by
  have hsr : (0 : Rat) ≤ u sr := Nat.cast_nonneg _
  calc (exactDelay sr t : Rat) ≤ u sr * val t := Rat.floor_le _
    _ ≤ 17 / 10 * u sr := by nlinarith

/-- For `time` up to 1.7 the delay is below the two seconds PREPARE allocates. -/
theorem exactDelay_lt (hsr : 1 ≤ u sr) (hhigh : val t ≤ 17 / 10) : exactDelay sr t < (2 * u sr : Nat) := by
  have hle := exactDelay_le (sr := sr) hhigh
  have hpos : (1 : Rat) ≤ u sr := by exact_mod_cast hsr
  have hlt : (exactDelay sr t : Rat) < ((2 * u sr : Nat) : Int) := by
    push_cast
    linarith
  exact_mod_cast hlt

end Delay

section ReadPosition

variable {s : State}

/-- The read position is the cursor less the delay, up to a multiple of the capacity. -/
theorem readStart_eq_add_mul (hcap : 0 < u s.cap) : (readStart s : Int) =
    u s.wcur - exactDelay s.sr s.pcur.time + -((u s.wcur - exactDelay s.sr s.pcur.time) / u s.cap) * u s.cap := by
  have hmod := Int.emod_nonneg ((u s.wcur : Int) - exactDelay s.sr s.pcur.time) (b := (u s.cap : Int)) (by omega)
  rw [readStart, Int.toNat_of_nonneg hmod, Int.emod_def]
  ring

/-- A delay below the capacity wraps at most once. -/
theorem readStart_of_delay_lt (hwcur : u s.wcur < u s.cap) (hlow : 0 ≤ exactDelay s.sr s.pcur.time)
    (hhigh : exactDelay s.sr s.pcur.time < u s.cap) :
    (readStart s : Int) = if exactDelay s.sr s.pcur.time ≤ u s.wcur then u s.wcur - exactDelay s.sr s.pcur.time
      else u s.wcur - exactDelay s.sr s.pcur.time + u s.cap := by
  unfold readStart
  generalize exactDelay s.sr s.pcur.time = d at hlow hhigh ⊢
  split
  case isTrue h => rw [Int.emod_eq_of_lt (by omega) (by omega), Int.toNat_of_nonneg (by omega)]
  case isFalse h =>
    rw [← Int.add_emod_right, Int.emod_eq_of_lt (by omega) (by omega), Int.toNat_of_nonneg (by omega)]

/-- RB.RDPOS of a prepared block. -/
theorem exec_rbRdpos_prepared (hprepared : s.prepared = true) : exec .rbRdpos s = .next { s with
    lasterr := 0#8
    res := { s.res with
      r0 := BitVec.ofNat 32 (readStart s)
      r1 := BitVec.ofInt 32 (exactDelay s.sr s.pcur.time) } } := by
  rw [exec_rbRdpos, runCommand_pass _ s (by simp [needPrepared, hprepared]), readStart_eq, exactDelay_eq]
  rfl

end ReadPosition

/-- Settles O17: the command, the position as a remainder, the size of the delay, and the single wrap, which needs the
delay below `CAP = 2 * SR`. -/
theorem rbRdposReturnsReadPosition : Obligations.RbRdposReturnsReadPosition := by
  intro s
  refine ⟨rfl, fun h => ?_, exec_rbRdpos_prepared, fun hinv hprepared => ⟨?_, ?_⟩, abs_exactDelay_lt _ _,
    fun hinv hprepared hlow hhigh => ?_⟩
  · rw [exec_rbRdpos, runCommand_fault _ s (k := .notPrepared) (by simp [needPrepared, h]), raise_notPrepared]
  · rw [readStart_eq]
    exact readPosition_lt (hinv.cap_pos hprepared) _ _ _
  · exact ⟨_, readStart_eq_add_mul (hinv.cap_pos hprepared)⟩
  · obtain ⟨hsr, hcap, -, -, -, hwcur⟩ := hinv.prepared hprepared
    have hnonneg := exactDelay_nonneg (sr := s.sr) hlow
    have hlt : exactDelay s.sr s.pcur.time < u s.cap := hcap ▸ exactDelay_lt hsr hhigh
    exact ⟨hnonneg, exactDelay_le hhigh, hlt, readStart_of_delay_lt hwcur hnonneg hlt⟩

/-! ### The cursor (R75) -/

section Cursor

variable {s : State}

/-- CURSOR.ADV whose checks pass. -/
theorem exec_cursorAdv_pass (hprepared : s.prepared = true) (hlen : u s.arg.a1 ≤ u s.cap) :
    exec .cursorAdv s = .next { s with
      lasterr := 0#8
      wcur := BitVec.ofNat 32 (ringIndex (u s.cap) (u s.wcur) (u s.arg.a1)) } := by
  have hpass : firstFault [needPrepared s, (decide (u s.cap < s.length), .badArg)] = none := by
    rw [firstFault_cursorAdv, if_neg (by simp [hprepared]), if_neg (by omega)]
  rw [exec_cursorAdv, runCommand_pass _ s hpass]
  rfl

/-- A ring index fits the 32 bits of WCUR. -/
theorem u_ofNat_ringIndex {cap : Word} (hcap : 0 < u cap) (w n : Nat) :
    u (BitVec.ofNat 32 (ringIndex (u cap) w n)) = ringIndex (u cap) w n :=
  (BitVec.toNat_ofNat _ _).trans (Nat.mod_eq_of_lt ((ringIndex_lt hcap w n).trans cap.isLt))

end Cursor

/-- Settles O18: the new cursor is the ring index `L` after the old one. -/
theorem cursorAdvAdvancesModuloCapacity : Obligations.CursorAdvAdvancesModuloCapacity := by
  intro s
  refine ⟨rfl, fun h => ?_, fun hprepared h => ?_, exec_cursorAdv_pass, fun hinv hprepared hlen => ?_⟩
  · rw [exec_cursorAdv, runCommand_fault _ s (by rw [firstFault_cursorAdv, if_pos h]), raise_notPrepared]
  · have hfault : firstFault [needPrepared s, (decide (u s.cap < s.length), .badArg)] = some .badArg := by
      rw [firstFault_cursorAdv, if_neg (by simp [hprepared]), if_pos h]
    rw [exec_cursorAdv, runCommand_fault _ s hfault, raise_badArg]
  · obtain ⟨-, -, -, -, -, hwcur⟩ := hinv.prepared hprepared
    have hpos := hinv.cap_pos hprepared
    refine ⟨_, exec_cursorAdv_pass hprepared hlen, ?_⟩
    simp only [u_ofNat_ringIndex hpos]
    refine ⟨ringIndex_lt hpos _ _, ?_⟩
    split
    case isTrue hfirst => exact ringIndex_of_lt hfirst
    case isFalse hwrap => exact ringIndex_of_le hwcur hlen (by omega)

/-! ### The ring row as the history of a stream (R77) -/

/-- Row `c` of a prepared block holds the stream `xs` as far as the capacity reaches back: the newest sample just before the
cursor, each older one an element further back. The first four fields are what the checks of the next pair need; the
host may leave the buffers in any form, so `State.Inv` itself is not kept. -/
structure HoldsStream (c : Nat) (xs : List Word) (t : State) : Prop where
  prepared : t.prepared = true
  channel : c < u t.nch
  depth : u t.cap ≤ t.hw.ringDepth
  cursor : u t.wcur < u t.cap
  row : ∀ i < xs.length, xs.length ≤ i + u t.cap →
    xs[i]? = some (t.ringAt c (ringIndex (u t.cap) (u t.wcur) (i + u t.cap - xs.length)))

theorem HoldsStream.nil {s : State} {c : Nat} (hinv : s.Inv) (hprepared : s.prepared = true) (hc : c < u s.nch) :
    HoldsStream c [] s where
  prepared := hprepared
  channel := hc
  depth := hinv.cap_le_ringDepth hprepared
  cursor := by
    obtain ⟨-, -, -, -, -, hwcur⟩ := hinv.prepared hprepared
    exact hwcur
  row _ hi := absurd hi (Nat.not_lt_zero _)

/-- The state after a pair (`RB.WRITE c, b, WCUR, L`; `CURSOR.ADV L`), the host having left `m` in the buffers. -/
def afterPair (c : Nat) (b : BufId) (m : Buffers) (len a2 a3 : Word) (t : State) : State :=
  { t with
    buf := m
    arg := ⟨t.wcur, len, a2, a3⟩
    ring := ringWriteBlock t.hw (u t.cap) c (u t.wcur) (u len) (fun i => m.get t.hw b c i) t.ring
    wcur := BitVec.ofNat 32 (ringIndex (u t.cap) (u t.wcur) (u len))
    lasterr := 0#8 }

section Stream

variable {c : Nat} {b : BufId} {xs : List Word} {t : State} {m : Buffers} {len a2 a3 : Word}

/-- Both commands of a pair complete. -/
theorem HoldsStream.exec_pair (h : HoldsStream c xs t) (hcap : u len ≤ u t.cap) (hblock : u len ≤ u t.maxblk)
    {t1 t2 : State} (hwrite : exec (.rbWrite c b) { t with buf := m, arg := ⟨t.wcur, len, a2, a3⟩ } = .next t1)
    (hadv : exec .cursorAdv t1 = .next t2) : t2 = afterPair c b m len a2 a3 t := by
  have hexec := exec_rbWrite { t with buf := m, arg := ⟨t.wcur, len, a2, a3⟩ } c b
  have hwrite' := exec_ringAccess_pass hexec h.prepared h.channel h.cursor hcap hblock
  obtain rfl := Host.Outcome.next.inj (hwrite.symm.trans hwrite')
  exact Host.Outcome.next.inj (hadv.symm.trans (exec_cursorAdv_pass h.prepared hcap))

/-- An element of the row after a pair, by its distance from the old cursor: the first `L` are the new samples. -/
theorem ringAt_afterPair_new (hcap : u len ≤ u t.cap) {j : Nat} (hj : j < u len) :
    (afterPair c b m len a2 a3 t).ringAt c (ringIndex (u t.cap) (u t.wcur) j) = m.get t.hw b c j :=
  ringWriteBlock_hit hcap _ t.ring hj

/-- The others are kept: no index of the access comes round to them. -/
theorem ringAt_afterPair_old (hdepth : u t.cap ≤ t.hw.ringDepth) {k : Nat} (hlow : u len ≤ k) (hhigh : k < u t.cap) :
    (afterPair c b m len a2 a3 t).ringAt c (ringIndex (u t.cap) (u t.wcur) k) =
      t.ringAt c (ringIndex (u t.cap) (u t.wcur) k) := by
  have hpos := Nat.zero_lt_of_lt hhigh
  refine ringWriteBlock_miss hpos hdepth _ t.ring ((ringIndex_lt hpos _ _).trans_le hdepth) (.inr fun i hi heq => ?_)
  have := ringIndex_inj (by omega) hhigh heq
  omega

theorem afterPair_cap : (afterPair c b m len a2 a3 t).cap = t.cap := rfl

theorem afterPair_wcur (hpos : 0 < u t.cap) :
    u (afterPair c b m len a2 a3 t).wcur = ringIndex (u t.cap) (u t.wcur) (u len) := u_ofNat_ringIndex hpos _ _

/-- A pair appends its samples to the stream the row holds: counted from the old cursor, sample `i` stands at
`i + CAP` less the old length, which for a new sample goes once round the ring. -/
theorem HoldsStream.append (h : HoldsStream c xs t) (hcap : u len ≤ u t.cap) :
    HoldsStream c (xs ++ (List.range (u len)).map fun i => m.get t.hw b c i) (afterPair c b m len a2 a3 t) where
  prepared := h.prepared
  channel := h.channel
  depth := h.depth
  cursor := by
    have hpos := Nat.zero_lt_of_lt h.cursor
    exact (afterPair_wcur hpos).trans_lt (ringIndex_lt hpos _ _)
  row i hi hkept := by
    rw [List.length_append, List.length_map, List.length_range] at hi hkept ⊢
    rw [afterPair_cap] at hkept ⊢
    have hplace : u len + (i + u t.cap - (xs.length + u len)) = i + u t.cap - xs.length := by omega
    rw [afterPair_wcur (Nat.zero_lt_of_lt h.cursor), ringIndex_ringIndex, hplace]
    rcases lt_or_ge i xs.length with hold | hnew
    · rw [List.getElem?_append_left hold, ringAt_afterPair_old h.depth (by omega) (by omega)]
      exact h.row i hold (by omega)
    · have hround : i + u t.cap - xs.length = i - xs.length + u t.cap := by omega
      rw [hround, ringIndex_add_cap, ringAt_afterPair_new hcap (by omega), List.getElem?_append_right hnew,
        List.getElem?_map, List.getElem?_range (by omega)]
      rfl

end Stream

/-- A stream written from a prepared state with the invariant stands in the row. -/
theorem WritesStream.holdsStream {s t : State} {c : Nat} {b : BufId} {xs : List Word} (hinv : s.Inv)
    (hprepared : s.prepared = true) (hc : c < u s.nch) (h : WritesStream c b s xs t) : HoldsStream c xs t := by
  induction h with
  | start => exact .nil hinv hprepared hc
  | block m len a2 a3 _ hcap hblock hwrite hadv ih =>
    rw [ih.exec_pair hcap hblock hwrite hadv]
    exact ih.append hcap

/-- Settles O20: with a whole capacity written, the sample at the cursor is `CAP` samples back. -/
theorem ringHoldsTheLastCapacitySamples : Obligations.RingHoldsTheLastCapacitySamples := by
  intro s t c b xs hinv hprepared hc hstream hfull k hk
  have hrow := (hstream.holdsStream hinv hprepared hc).row (xs.length - u t.cap + k) (by omega) (by omega)
  rwa [show xs.length - u t.cap + k + u t.cap - xs.length = k by omega] at hrow

end Sys2Proof.Machine

/-! PROOFS. The Bitcrush/Decimate Stage commands (`41_crush.md`): the checks of a command with one further fault (R79),
the rate divider (R80), one decimated sample (R81) and a decimated block, with its idempotence (R82). -/

namespace Sys2Proof.Machine

/-! ### Commands that need preparation and have one other fault (R79, `60_exceptions.md` R121) -/

section Checks

/-! A checked command by what its checks report, in the form the `firstFault_` lemmas give it. -/

variable {s : State} {i : Instr} {checks : List (Bool × ErrCode)} {effect : State → State} {bad : Prop} [Decidable bad]
  {k : ErrCode} (hexec : exec i s = runCommand checks effect s)
  (hchecks : firstFault checks = if s.prepared = false then some .notPrepared else if bad then some k else none)
include hexec hchecks

theorem exec_checked_unprepared (h : s.prepared = false) : exec i s = .next (faulted 2 s) := by
  rw [hexec, runCommand_fault effect s (hchecks.trans (if_pos h)), raise_notPrepared]

theorem exec_checked_fault (hprepared : s.prepared = true) (h : bad) : exec i s = .next (s.raise k) := by
  rw [if_neg (by simp [hprepared]), if_pos h] at hchecks
  rw [hexec, runCommand_fault effect s hchecks]

theorem exec_checked_pass (hprepared : s.prepared = true) (h : ¬ bad) : exec i s = .next (effect s).complete := by
  rw [if_neg (by simp [hprepared]), if_neg h] at hchecks
  rw [hexec, runCommand_pass effect s hchecks]

end Checks

/-! ### The rate divider (R80) -/

/-- The exact rate is the integer one in units of `2^-24`. -/
theorem effectiveRate_eq (t : Word) : effectiveRate t = (crushRate t : Rat) / 2 ^ 24 := by
  simp only [effectiveRate, crushRate, Config.crushBase, val]
  push_cast
  ring

theorem effectiveRate_pos_iff (t : Word) : 0 < effectiveRate t ↔ 0 < crushRate t := by
  rw [effectiveRate_eq, div_pos_iff_of_pos_right (by norm_num), Int.cast_pos]

theorem effectiveRate_nonpos_iff_val (t : Word) : effectiveRate t ≤ 0 ↔ 2 ≤ val t := by
  unfold effectiveRate
  constructor <;> intro h <;> linarith

/-- The divider a command computes is the exact one, which is not negative. -/
theorem exactDivider_eq {sr t : Word} (hrate : 0 < crushRate t) : exactDivider sr t = rateDivider sr t := by
  obtain ⟨n, hn⟩ := Int.eq_ofNat_of_zero_le hrate.le
  have hexact : (u sr : Rat) / effectiveRate t = ((u sr * 2 ^ 24 : Int) : Rat) / (n : Rat) := by
    rw [effectiveRate_eq, hn, div_div_eq_mul_div]
    norm_num
  have hquotient : 0 ≤ (u sr : Int) * 2 ^ 24 / n := by positivity
  rw [exactDivider, hexact, floor_div, rateDivider, hn]
  omega

/-- Settles O21: RATEDIV, its two faults, and the exact divider as the integer quotient it computes. -/
theorem ratedivReturnsDivider : Obligations.RatedivReturnsDivider := by
  intro s
  have hexec := exec_ratediv s
  have hchecks := firstFault_ratediv s
  refine ⟨rfl, exec_checked_unprepared hexec hchecks, fun hprepared hrate => ?_, fun hprepared hrate => ?_,
    effectiveRate_nonpos_iff_val _⟩
  · rw [← not_lt, effectiveRate_pos_iff, not_lt] at hrate
    rw [exec_checked_fault hexec hchecks hprepared hrate, raise_rateUndef]
  · rw [effectiveRate_pos_iff] at hrate
    rw [exactDivider_eq hrate, exec_checked_pass hexec hchecks hprepared hrate.not_ge, BitVec.ofInt_natCast]
    exact ⟨Int.natCast_nonneg _, rfl⟩

/-! ### One sample (R81) -/

/-- Settles O22: the checks, and the element and the bytes after one decimated sample. -/
theorem decimateQuantizesOrHoldsOneSample : Obligations.DecimateQuantizesOrHoldsOneSample := by
  intro s c b
  have hexec := exec_decimate s c b
  have hchecks := firstFault_decimate s c
  refine ⟨fun hc => decode_ofNat (decide_eq_true hc) hc rfl (by simp), exec_checked_unprepared hexec hchecks,
    exec_checked_fault hexec hchecks, fun hinv hprepared hc hindex hdepth => ?_⟩
  have hchannel := hinv.channel_lt_maxCh hprepared hc
  have hi : u s.arg.a0 < s.hw.blkDepth := hinv.le_blkDepth hprepared hindex
  refine ⟨_, exec_checked_pass hexec hchecks hprepared (by omega), ?_, fun x hx => ?_, rfl⟩
  · exact (decimateSample_get hinv.hardware hchannel b _ _ hi s.buf b hchannel hi).trans (if_pos ⟨rfl, rfl, rfl⟩)
  · exact decimateSample_byte s.hw c b _ _ _ s.buf hx

/-! ### A block (R82) -/

/-- A byte of an element is fixed by the word there. -/
theorem Buffers.byte_eq_of_get_eq {m m' : Buffers} {hw : Hardware} {b : BufId} {c i j : Nat} (hj : j < 4)
    (h : m'.get hw b c i = m.get hw b c i) : m'.byte (bufAddr hw b c i + j) = m.byte (bufAddr hw b c i + j) := by
  apply BitVec.eq_of_toNat_eq
  rw [Buffers.toNat_byte_eq m' _ hj, Buffers.toNat_byte_eq m _ hj]
  exact congrArg (fun w => u w / 256 ^ j % 256) h

/-- DECIMATE.BLK whose checks pass: the closed form. -/
theorem storesBlock_decimateBlk {s : State} {c : Nat} (hinv : s.Inv) (hprepared : s.prepared = true)
    (hc : c < u s.nch) (hlen : u s.arg.a1 ≤ u s.maxblk) (hdepth : u s.arg.a3 ≤ 24) (b : BufId) :
    StoresBlock s (exec (.decimateBlk c b) s) b c (u s.arg.a1) fun i =>
      quant s.hw.quantMode (s.bufAt b c (holdIndex (u s.arg.a2) i)) (u s.arg.a3) := by
  have hchannel := hinv.channel_lt_maxCh hprepared hc
  have hblock := hinv.le_blkDepth hprepared hlen
  refine ⟨_, exec_checked_pass (exec_decimateBlk s c b) (firstFault_decimateBlk s c) hprepared (by omega),
    fun i hi => ?_, fun x hx => ?_, rfl⟩
  · exact (decimateBlock_get hinv.hardware hchannel b hblock _ _ s.buf b hchannel (hi.trans_le hblock)).trans
      (if_pos ⟨rfl, rfl, hi⟩)
  · exact decimateBlock_byte s.hw c b _ _ _ s.buf fun i hi j hj heq => hx ⟨i, hi, j, hj, heq⟩

/-- Settles O23: the checks of R79 with the bit depth, and the closed form. -/
theorem decimateBlkHoldsFromMultiples : Obligations.DecimateBlkHoldsFromMultiples := by
  intro s c b
  have hexec := exec_decimateBlk s c b
  have hchecks := firstFault_decimateBlk s c
  exact ⟨fun hc => decode_ofNat (decide_eq_true hc) hc rfl (by simp), exec_checked_unprepared hexec hchecks,
    exec_checked_fault hexec hchecks,
    fun hinv hprepared hc hlen hdepth => storesBlock_decimateBlk hinv hprepared hc hlen hdepth b⟩

/-- Settles O24: a hold index is its own hold index and a quantized word its own quantized word, so the second run gives
every element of the block the word it has; a byte outside the block is left alone. -/
theorem decimateBlkIsIdempotent : Obligations.DecimateBlkIsIdempotent := by
  intro s t t' c b hinv hprepared hc hlen hdepth hfirst hsecond x
  obtain ⟨r, hr, helement, -, hframe⟩ := storesBlock_decimateBlk hinv hprepared hc hlen hdepth b
  obtain rfl : r = t := Host.Outcome.next.inj (hr.symm.trans hfirst)
  generalize r.buf = m at hframe
  subst hframe
  obtain ⟨r', hr', helement', hbyte', -⟩ :=
    storesBlock_decimateBlk (hinv.of_exec hfirst) hprepared hc hlen hdepth b
  obtain rfl : r' = t' := Host.Outcome.next.inj (hr'.symm.trans hsecond)
  by_cases hx : inBufBlock s.hw b c (u s.arg.a1) x
  case neg => exact hbyte' x hx
  case pos =>
    obtain ⟨i, hi, j, hj, rfl⟩ := hx
    refine Buffers.byte_eq_of_get_eq hj ?_
    have hhold := (holdIndex_le (u s.arg.a2) i).trans_lt hi
    calc r'.buf.get s.hw b c i
        = r'.bufAt b c i := by rw [State.bufAt, exec_hw hsecond]
      _ = quant s.hw.quantMode (m.get s.hw b c (holdIndex (u s.arg.a2) i)) (u s.arg.a3) := helement' i hi
      _ = quant s.hw.quantMode (s.bufAt b c (holdIndex (u s.arg.a2) i)) (u s.arg.a3) := by
        rw [show m.get s.hw b c _ = _ from helement _ hhold, quant_idem _ _ hdepth, holdIndex_idem]
      _ = m.get s.hw b c i := (helement i hi).symm

end Sys2Proof.Machine

/-! PROOFS. The ramped gain and mixing commands (`42_mix.md`): the four BUF commands (R87 to R91), the commands without
a check (R92 and `44_system.md`), and silence through PROCESS (R93), with the channel loop seen from one channel. -/

namespace Sys2Proof.Machine

/-! ### Commands without a check (R92, `44_system.md` R105, R108, R111, R112) -/

/-- Settles O8: with no check to fail, each command is its effect. -/
theorem uncheckedCommandsComplete : Obligations.UncheckedCommandsComplete := by
  intro s
  refine ⟨rfl, rfl, rfl, rfl, rfl, ?nop, ?loadstate, ?getpcount, ?savestate, ?rampCommit⟩
  case nop => exact (exec_nop s).trans (runCommand_unchecked _ s)
  case loadstate => exact (exec_loadstate s).trans (runCommand_unchecked _ s)
  case getpcount => exact (exec_getpcount s).trans (runCommand_unchecked _ s)
  case savestate => exact (exec_savestate s).trans (runCommand_unchecked _ s)
  case rampCommit => exact (exec_rampCommit s).trans (runCommand_unchecked _ s)

/-! ### The four BUF commands (R87 to R91) -/

/-- Putting the element-wise pass into the state stores its block and nothing else; an element is computed from the
words both buffers held before the command, also where they are one buffer. -/
theorem storesBlock_mixBlock {s : State} (hok : s.hw.ok = true) {c : Nat} (hc : c < s.hw.maxCh) (dst src : BufId)
    {len : Nat} (hlen : len ≤ s.hw.blkDepth) {f : Nat → Word → Word → Word} {g : Nat → Word}
    (hfg : ∀ i < len, f i (s.bufAt dst c i) (s.bufAt src c i) = g i) :
    StoresBlock s (.next (s.setBuf (mixBlock s.hw c dst src len f s.buf)).complete) dst c len g := by
  refine ⟨_, rfl, fun i hi => Eq.trans ?_ (hfg i hi), fun x hx => ?_, rfl⟩
  · exact (mixBlock_get hok hc dst src hlen f s.buf dst hc (hi.trans_le hlen)).trans (if_pos ⟨rfl, rfl, hi⟩)
  · exact mixBlock_byte s.hw c dst src len f s.buf fun i hi j hj heq => hx ⟨i, hi, j, hj, heq⟩

/-- A BUF command whose checks (R79) pass stores the block its pass computes. -/
theorem exec_mixBlock_storesBlock {s : State} {c : Nat} {i : Instr} {dst src : BufId}
    {f : State → Nat → Word → Word → Word} {g : Nat → Word}
    (hexec : exec i s = runCommand (bufChecks s c)
      (fun s => s.setBuf (mixBlock s.hw c dst src s.length (f s) s.buf)) s)
    (hinv : s.Inv) (hprepared : s.prepared = true) (hc : c < u s.nch) (hlen : u s.arg.a1 ≤ u s.maxblk)
    (hfg : ∀ j < u s.arg.a1, f s j (s.bufAt dst c j) (s.bufAt src c j) = g j) :
    StoresBlock s (exec i s) dst c (u s.arg.a1) g := by
  rw [exec_checked_pass hexec (firstFault_bufChecks s c) hprepared (by omega)]
  exact storesBlock_mixBlock hinv.hardware (hinv.channel_lt_maxCh hprepared hc) dst src
    (hinv.le_blkDepth hprepared hlen) hfg

/-- Settles O26: the checks of R79, and a pass that copies, or subtracts with one saturation. -/
theorem bufCopyAndBufSubStoreBlocks : Obligations.BufCopyAndBufSubStoreBlocks := by
  intro s c dst src
  have hcopy := exec_bufCopy s c dst src
  have hsub := exec_bufSub s c dst src
  have hchecks := firstFault_bufChecks s c
  refine ⟨fun hc => ?words, fun h => ?unprepared, fun hprepared h => ?badArg, fun hinv hprepared hc hlen => ?pass⟩
  case words =>
    exact ⟨decode_ofNat (decide_eq_true hc) hc rfl (by simp), decode_ofNat (decide_eq_true hc) hc rfl (by simp)⟩
  case unprepared => exact ⟨exec_checked_unprepared hcopy hchecks h, exec_checked_unprepared hsub hchecks h⟩
  case badArg => exact ⟨exec_checked_fault hcopy hchecks hprepared h, exec_checked_fault hsub hchecks hprepared h⟩
  case pass =>
    exact ⟨exec_mixBlock_storesBlock hcopy hinv hprepared hc hlen fun i _ => rfl,
      exec_mixBlock_storesBlock hsub hinv hprepared hc hlen fun i _ => (fx_sub _ _).symm⟩

/-- Settles O27: as O26, with the integer forms of the exact scaled value (R12). -/
theorem bufRampCommandsStoreScaledBlocks : Obligations.BufRampCommandsStoreScaledBlocks := by
  intro s c dst src
  have hcopy := exec_bufCopyRamp s c dst src
  have hadd := exec_bufAddRamp s c dst src
  have hchecks := firstFault_bufChecks s c
  refine ⟨fun hc => ?words, fun h => ?unprepared, fun hprepared h => ?badArg, fun hinv hprepared hc hlen => ?pass⟩
  case words =>
    exact ⟨decode_ofNat (decide_eq_true hc) hc rfl (by simp), decode_ofNat (decide_eq_true hc) hc rfl (by simp)⟩
  case unprepared => exact ⟨exec_checked_unprepared hcopy hchecks h, exec_checked_unprepared hadd hchecks h⟩
  case badArg => exact ⟨exec_checked_fault hcopy hchecks hprepared h, exec_checked_fault hadd hchecks hprepared h⟩
  case pass =>
    exact ⟨exec_mixBlock_storesBlock (f := fun s => copyRampSample s.gainFrom s.gainTo s.length) hcopy hinv
        hprepared hc hlen fun i hi => (fx_scale _ _ _ _ (Nat.zero_lt_of_lt hi)).symm,
      exec_mixBlock_storesBlock (f := fun s => addRampSample s.gainFrom s.gainTo s.length) hadd hinv
        hprepared hc hlen fun i hi => (fx_add_scale _ _ _ _ _ (Nat.zero_lt_of_lt hi)).symm⟩

/-! ### The channel loop of PROCESS seen from one channel (`43_block.md` R96, R101) -/

/-- The two memories hold the same words in channel `c`. -/
structure Store.SameChannel (hw : Hardware) (c : Nat) (x y : Store) : Prop where
  buf : ∀ b, ∀ i < hw.blkDepth, x.buf.get hw b c i = y.buf.get hw b c i
  ring : ∀ k < hw.ringDepth, ringGet hw x.ring c k = ringGet hw y.ring c k

theorem Store.SameChannel.refl (hw : Hardware) (c : Nat) (x : Store) : x.SameChannel hw c x :=
  ⟨fun _ _ _ => rfl, fun _ _ => rfl⟩

theorem Store.SameChannel.trans {hw : Hardware} {c : Nat} {x y z : Store} (hxy : x.SameChannel hw c y)
    (hyz : y.SameChannel hw c z) : x.SameChannel hw c z :=
  ⟨fun b i hi => (hxy.buf b i hi).trans (hyz.buf b i hi), fun k hk => (hxy.ring k hk).trans (hyz.ring k hk)⟩

section Channels

variable {p : Block} (hfits : p.Fits) {c : Nat} (hc : c < p.hw.maxCh)
include hfits hc

/-- One channel's steps leave every other channel alone. -/
theorem processChannel_sameChannel {c' : Nat} (hc' : c' < p.hw.maxCh) (hne : c ≠ c') (x : Store) :
    (processChannel p c' x).SameChannel p.hw c x where
  buf b _ hi := (processChannel_get hfits hc' x b hc hi).trans (if_neg fun h => hne h.1)
  ring _ hk := processChannel_miss hfits x hk (.inl hne)

/-- The passes of the loop from channel `j` up to `k` leave the channels outside `j .. k-1` alone. -/
theorem processChannels_sameChannel {j k : Nat} (hjk : j ≤ k) (hk : k ≤ p.hw.maxCh) (hout : c < j ∨ k ≤ c) (x : Store) :
    (processChannels p k x).SameChannel p.hw c (processChannels p j x) := by
  induction k, hjk using Nat.le_induction with
  | base => exact .refl p.hw c _
  | succ k hjk ih =>
    rw [processChannels_succ]
    exact (processChannel_sameChannel hfits hc (by omega) (by omega) _).trans (ih (by omega) (by omega))

/-- The loop reaches channel `c` with that channel as it was before the command. -/
theorem processChannels_sameChannel_before (x : Store) : (processChannels p c x).SameChannel p.hw c x :=
  processChannels_sameChannel hfits hc (Nat.zero_le c) hc.le (.inr le_rfl) x

/-- The loop leaves channel `c` as its own pass left it. -/
theorem processChannels_sameChannel_after {k : Nat} (hck : c < k) (hk : k ≤ p.hw.maxCh) (x : Store) :
    (processChannels p k x).SameChannel p.hw c (processChannel p c (processChannels p c x)) :=
  processChannels_sameChannel hfits hc hck hk (.inl c.lt_succ_self) x

end Channels

/-! ### Silence (R93, `90_conflicts.md` C7) -/

/-- Before the block the input samples of channel `c` are 0, and so are the ring elements at the read position. -/
structure Block.Silent (p : Block) (c : Nat) (x : Store) : Prop where
  input : ∀ i < p.len, x.buf.get p.hw .io c i = 0#32
  ring : ∀ i < p.len, ringGet p.hw x.ring c (ringIndex p.cap p.rp i) = 0#32

/-- Whether a block is silent in a channel is read from that channel alone. -/
theorem Block.Silent.of_sameChannel {p : Block} (hfits : p.Fits) {c : Nat} {x y : Store}
    (hxy : x.SameChannel p.hw c y) (h : p.Silent c y) : p.Silent c x where
  input i hi := (hxy.buf .io i (hi.trans_le hfits.len)).trans (h.input i hi)
  ring i hi := (hxy.ring _ ((ringIndex_lt hfits.cap p.rp i).trans_le hfits.depth)).trans (h.ring i hi)

section Silence

variable {p : Block} (hfits : p.Fits) {c : Nat} (hc : c < p.hw.maxCh) {x : Store} (h : p.Silent c x)
  {i : Nat} (hi : i < p.len)
include hfits hc h hi

/-- Step 4 reads silence: either the silent input step 2 wrote there, or a silent element from before the command. -/
theorem Block.Silent.delayed_eq_zero : p.delayed c x i = 0#32 := by
  unfold Block.delayed
  by_cases hwritten : ∃ j < p.len, ringIndex p.cap p.wcur j = ringIndex p.cap p.rp i
  · obtain ⟨j, hj, hindex⟩ := hwritten
    rw [← hindex, blockWrite_hit hfits hc x hj, h.input j hj]
  · have hmiss : ∀ j < p.len, ringIndex p.cap p.wcur j ≠ ringIndex p.cap p.rp i :=
      fun j hj hindex => hwritten ⟨j, hj, hindex⟩
    rw [blockWrite_miss hfits x ((ringIndex_lt hfits.cap p.rp i).trans_le hfits.depth) (.inr hmiss), h.ring i hi]

theorem Block.Silent.wet_eq_zero : p.wet c x i = 0#32 := by
  have hheld := h.input _ ((holdIndex_le p.rd i).trans_lt hi)
  rw [Block.wet, h.delayed_eq_zero hfits hc hi, addScaled_zero, hheld, quant_zero]

theorem Block.Silent.tail_eq_zero : p.tail c x i = 0#32 := by
  rw [Block.tail, h.wet_eq_zero hfits hc hi, h.input i hi, subSat_zero]

theorem Block.Silent.out_eq_zero : p.out c x i = 0#32 := by
  rw [Block.out, h.tail_eq_zero hfits hc hi, h.input i hi, scaled_zero, addScaled_zero]

/-- The pass over a silent channel leaves 0 in every sample of the three buffers. -/
theorem Block.Silent.processChannel_buf (b : BufId) : (processChannel p c x).buf.get p.hw b c i = 0#32 := by
  rw [processChannel_get hfits hc x b hc (hi.trans_le hfits.len), if_pos ⟨rfl, hi⟩]
  cases b with
  | io => exact h.out_eq_zero hfits hc hi
  | wet => exact h.tail_eq_zero hfits hc hi
  | dry => exact h.input i hi

/-- The pass over a silent channel leaves 0 in every ring element it writes. -/
theorem Block.Silent.processChannel_ring :
    ringGet p.hw (processChannel p c x).ring c (ringIndex p.cap p.wcur i) = 0#32 := by
  rw [processChannel_hit hfits hc x hi, h.wet_eq_zero hfits hc hi, scaled_zero]

end Silence

/-- Where the checks of R96 pass, PROCESS has its effect and completes. -/
theorem ProcessRuns.exec_process {s : State} (h : ProcessRuns s) :
    exec .process s = .next (processEffect s).complete := by
  obtain ⟨hprepared, hblock, hcap, hchannels, htime⟩ := h
  have hrate := (crushRate_pos s.pcur.time).2 htime
  rw [State.length, Args.get] at hblock hcap
  rw [State.channelCount, Args.get] at hchannels
  refine (Machine.exec_process s).trans (runCommand_pass processEffect s ?_)
  rw [firstFault_processChecks, if_neg (by simp [hprepared]), if_neg (by omega), if_neg (by omega)]

theorem ProcessRuns.fits {s : State} (hinv : s.Inv) (h : ProcessRuns s) : (blockOf s).Fits :=
  have ⟨hprepared, hblock, hcap, _, _⟩ := h
  hinv.blockOf_fits hprepared hblock hcap

theorem ProcessRuns.channelCount_le_maxCh {s : State} (hinv : s.Inv) (h : ProcessRuns s) :
    s.channelCount ≤ s.hw.maxCh :=
  have ⟨hprepared, _, _, hchannels, _⟩ := h
  have ⟨_, _, _, hnch, _, _⟩ := hinv.prepared hprepared
  hchannels.trans hnch

/-- Settles O35: the loop reaches each channel as silent as it was, its pass leaves silence, later passes keep it. -/
theorem silenceInSilenceOut : Obligations.SilenceInSilenceOut := by
  intro s hinv hruns hinput hring
  rw [readStart_eq] at hring
  refine ⟨_, hruns.exec_process, fun c hc i hi => ?_⟩
  have hfits := hruns.fits hinv
  have hcount := hruns.channelCount_le_maxCh hinv
  have hchannel : c < s.hw.maxCh := lt_of_lt_of_le hc hcount
  have hindex := (ringIndex_lt hfits.cap (u s.wcur) i).trans_le hfits.depth
  have hbefore : (blockOf s).Silent c ⟨s.ring, s.buf⟩ := ⟨hinput c hc, hring c hc⟩
  have hsilent := hbefore.of_sameChannel hfits (processChannels_sameChannel_before hfits hchannel _)
  have hafter := processChannels_sameChannel_after hfits hchannel hc hcount ⟨s.ring, s.buf⟩
  have hbuf (b : BufId) :=
    (hafter.buf b i (hi.trans_le hfits.len)).trans (hsilent.processChannel_buf hfits hchannel hi b)
  exact ⟨hbuf .io, hbuf .wet, hbuf .dry, (hafter.ring _ hindex).trans (hsilent.processChannel_ring hfits hchannel hi)⟩

end Sys2Proof.Machine

/-! PROOFS. The Block Processor (`43_block.md`): the faults of PROCESS (R96), blocks of no sample or no channel (R99),
the order of the channels (R101), the closed form sample by sample (R98), and PROCESS as its micro-commands (R100). -/

namespace Sys2Proof.Machine

/-! ### Faults (R96, `60_exceptions.md` R121) -/

/-- Settles O31: what the checks report, in their order; the rate is undefined exactly from `time` 2.0 on (R80). -/
theorem processFaultsInOrder : Obligations.ProcessFaultsInOrder := by
  intro s
  have hchecks := firstFault_processChecks s
  refine ⟨fun h => ?unprepared, fun hprepared h => ?badArg, fun hprepared hblock hcap hchannels htime => ?rateUndef⟩
  case unprepared =>
    rw [if_pos h] at hchecks
    rw [exec_process, runCommand_fault _ s hchecks, raise_notPrepared]
  case badArg =>
    rw [if_neg (by simp [hprepared]), if_pos h] at hchecks
    rw [exec_process, runCommand_fault _ s hchecks, raise_badArg]
  case rateUndef =>
    have hrate : crushRate s.pcur.time ≤ 0 := by
      rwa [← not_lt, crushRate_pos, not_lt]
    rw [if_neg (by simp [hprepared]), if_neg (by omega), if_pos hrate] at hchecks
    rw [exec_process, runCommand_fault _ s hchecks, raise_rateUndef]

/-! ### Degenerate blocks (R99) -/

/-- A pass over no sample leaves both memories alone. -/
theorem processChannel_of_len_eq_zero {p : Block} (h : p.len = 0) (c : Nat) (x : Store) : processChannel p c x = x := by
  simp [processChannel, blockMix, blockRewrite, blockRead, blockWrite, mixBlock, decimateBlock, ringReadAddBlock,
    ringWriteBlock, h]

theorem processChannels_of_len_eq_zero {p : Block} (h : p.len = 0) (k : Nat) (x : Store) :
    processChannels p k x = x := by
  induction k with
  | zero => rfl
  | succ k ih => rw [processChannels_succ, ih, processChannel_of_len_eq_zero h]

/-- The state PROCESS leaves, by what its channel loop leaves in the two memories. -/
def processed (s : State) (x : Store) : State :=
  { s with
    ring := x.ring
    buf := x.buf
    last := ⟨s.pcur.echoVolume, s.pcur.regen, s.pcur.dry, s.pcur.wet⟩
    wcur := BitVec.ofNat 32 ((u s.wcur + u s.arg.a1) % u s.cap)
    lasterr := 0#8 }

theorem ProcessRuns.exec_process_eq {s : State} (h : ProcessRuns s) :
    exec .process s = .next (processed s (processChannels (blockOf s) s.channelCount ⟨s.ring, s.buf⟩)) := by
  rw [h.exec_process, processEffect_eq]
  rfl

theorem State.Inv.wcur_lt_cap {s : State} (hinv : s.Inv) (hprepared : s.prepared = true) : u s.wcur < u s.cap :=
  have ⟨_, _, _, _, _, hwcur⟩ := hinv.prepared hprepared
  hwcur

/-- Settles O32: the channel loop does nothing; for an empty block the cursor, being below the capacity, stays. -/
theorem processDegenerateBlocks : Obligations.ProcessDegenerateBlocks := by
  intro s hinv hruns
  have ⟨hprepared, _⟩ := hruns
  refine ⟨fun hlen => ?samples, fun hcount => ?channels⟩
  case samples =>
    have hwcur : BitVec.ofNat 32 ((u s.wcur + u s.arg.a1) % u s.cap) = s.wcur := by
      rw [hlen, Nat.add_zero, Nat.mod_eq_of_lt (hinv.wcur_lt_cap hprepared), BitVec.ofNat_toNat, BitVec.setWidth_eq]
    rw [hruns.exec_process_eq, processChannels_of_len_eq_zero hlen, processed, hwcur]
  case channels =>
    rw [hruns.exec_process_eq, show s.channelCount = 0 from hcount, processChannels_zero]
    rfl

/-! ### Bytes of equal words, and the bytes outside a block -/

theorem wordOf_inj {b0 b1 b2 b3 b0' b1' b2' b3' : Byte} (h : wordOf b0 b1 b2 b3 = wordOf b0' b1' b2' b3') :
    b0 = b0' ∧ b1 = b1' ∧ b2 = b2' ∧ b3 = b3' := by
  have hu := congrArg u h
  rw [toNat_wordOf, toNat_wordOf] at hu
  have hbyte (b : Byte) : b.toNat < 256 := b.isLt
  have h0 := hbyte b0
  have h1 := hbyte b1
  have h2 := hbyte b2
  have h0' := hbyte b0'
  have h1' := hbyte b1'
  have h2' := hbyte b2'
  simp only [← BitVec.toNat_inj]
  omega

/-- A byte of a ring element is fixed by the word there. -/
theorem ringByte_eq_of_ringGet_eq {hw : Hardware} {r r' : Ring} {c k j : Nat} (hj : j < 4)
    (h : ringGet hw r' c k = ringGet hw r c k) :
    ringByte hw r' (ringAddr hw c k + j) = ringByte hw r (ringAddr hw c k + j) := by
  obtain ⟨h0, h1, h2, h3⟩ := wordOf_inj h
  interval_cases j
  exacts [h0, h1, h2, h3]

section Frame

variable (p : Block) (x : Store) {a : Nat}

theorem processChannel_bufByte_of_not_inBufBlock {c : Nat} (h : ∀ b, ¬ inBufBlock p.hw b c p.len a) :
    (processChannel p c x).buf.byte a = x.buf.byte a :=
  processChannel_bufByte p c x fun b i hi j hj heq => h b ⟨i, hi, j, hj, heq⟩

theorem processChannel_ringByte_of_not_inRingBlock {c : Nat} (h : ¬ inRingBlock p.hw p.cap c p.wcur p.len a) :
    ringByte p.hw (processChannel p c x).ring a = ringByte p.hw x.ring a :=
  processChannel_ringByte p c x fun i hi j hj heq => h ⟨i, hi, j, hj, heq⟩

/-- The channel loop leaves every byte of the buffers alone but those of its channels' blocks. -/
theorem processChannels_bufByte {k : Nat} (h : ∀ c < k, ∀ b, ¬ inBufBlock p.hw b c p.len a) :
    (processChannels p k x).buf.byte a = x.buf.byte a := by
  induction k with
  | zero => rfl
  | succ k ih =>
    rw [processChannels_succ, processChannel_bufByte_of_not_inBufBlock p _ (h k k.lt_succ_self)]
    exact ih fun c hc => h c (by omega)

/-- The channel loop leaves every byte of the ring alone but those its channels' accesses write. -/
theorem processChannels_ringByte {k : Nat} (h : ∀ c < k, ¬ inRingBlock p.hw p.cap c p.wcur p.len a) :
    ringByte p.hw (processChannels p k x).ring a = ringByte p.hw x.ring a := by
  induction k with
  | zero => rfl
  | succ k ih =>
    rw [processChannels_succ, processChannel_ringByte_of_not_inRingBlock p _ (h k k.lt_succ_self)]
    exact ih fun c hc => h c (by omega)

end Frame

/-! ### What one channel's pass reads (R98, R101) -/

/-- How far behind the write cursor, going up the ring, the element is that step 4 reads for sample `i`. -/
def Block.offset (p : Block) (i : Nat) : Nat := (ringIndex p.cap p.rp i + p.cap - p.wcur) % p.cap

/-- Counted from the write cursor, that offset is the element read. -/
theorem Block.ringIndex_offset {p : Block} (hwcur : p.wcur < p.cap) (i : Nat) :
    ringIndex p.cap p.wcur (p.offset i) = ringIndex p.cap p.rp i := by
  have hlt := ringIndex_lt (Nat.zero_lt_of_lt hwcur) p.rp i
  rw [Block.offset, ringIndex, Nat.add_mod_mod, show p.wcur + (ringIndex p.cap p.rp i + p.cap - p.wcur) =
    ringIndex p.cap p.rp i + p.cap by omega, Nat.add_mod_right, Nat.mod_eq_of_lt hlt]

theorem Store.SameChannel.symm {hw : Hardware} {c : Nat} {x y : Store} (h : x.SameChannel hw c y) :
    y.SameChannel hw c x :=
  ⟨fun b i hi => (h.buf b i hi).symm, fun k hk => (h.ring k hk).symm⟩

section Channel

variable {p : Block} (hfits : p.Fits) (hwcur : p.wcur < p.cap) {c : Nat} (hc : c < p.hw.maxCh)
include hfits hwcur hc

/-- `r_i` of R98: the input sample where step 2 wrote it, else the ring element from before the command. -/
theorem Block.delayed_eq (x : Store) (i : Nat) :
    p.delayed c x i =
      if p.offset i < p.len then x.buf.get p.hw .io c (p.offset i)
      else ringGet p.hw x.ring c (ringIndex p.cap p.rp i) := by
  rw [Block.delayed, ← p.ringIndex_offset hwcur i]
  split
  case isTrue hwritten => exact blockWrite_hit hfits hc x hwritten
  case isFalse hkept =>
    have hdepth := (ringIndex_lt hfits.cap p.wcur (p.offset i)).trans_le hfits.depth
    have hlt : p.offset i < p.cap := Nat.mod_lt _ hfits.cap
    refine blockWrite_miss hfits x hdepth (.inr fun j hj hindex => hkept ?_)
    exact ringIndex_inj (hj.trans_le hfits.fits) hlt hindex ▸ hj

variable {x y : Store} (h : x.SameChannel p.hw c y)
include h

theorem Block.delayed_congr (i : Nat) : p.delayed c x i = p.delayed c y i := by
  rw [p.delayed_eq hfits hwcur hc, p.delayed_eq hfits hwcur hc]
  split
  case isTrue hwritten => exact h.buf .io _ (hwritten.trans_le hfits.len)
  case isFalse => exact h.ring _ ((ringIndex_lt hfits.cap _ _).trans_le hfits.depth)

theorem Block.wet_congr {i : Nat} (hi : i < p.len) : p.wet c x i = p.wet c y i := by
  rw [Block.wet, Block.wet, p.delayed_congr hfits hwcur hc h i,
    h.buf .io _ ((holdIndex_le p.rd i).trans_lt (hi.trans_le hfits.len))]

theorem Block.tail_congr {i : Nat} (hi : i < p.len) : p.tail c x i = p.tail c y i := by
  rw [Block.tail, Block.tail, p.wet_congr hfits hwcur hc h hi, h.buf .io i (hi.trans_le hfits.len)]

theorem Block.out_congr {i : Nat} (hi : i < p.len) : p.out c x i = p.out c y i := by
  rw [Block.out, Block.out, p.tail_congr hfits hwcur hc h hi, h.buf .io i (hi.trans_le hfits.len)]

/-- What a channel's pass leaves in its channel depends on that channel alone. -/
theorem processChannel_congr : (processChannel p c x).SameChannel p.hw c (processChannel p c y) where
  buf b i hi := by
    rw [processChannel_get hfits hc x b hc hi, processChannel_get hfits hc y b hc hi]
    split
    case isTrue hblock =>
      cases b with
      | io => exact p.out_congr hfits hwcur hc h hblock.2
      | wet => exact p.tail_congr hfits hwcur hc h hblock.2
      | dry => exact h.buf .io i hi
    case isFalse => exact h.buf b i hi
  ring k hk := by
    by_cases hwritten : ∃ i < p.len, ringIndex p.cap p.wcur i = k
    · obtain ⟨i, hi, rfl⟩ := hwritten
      rw [processChannel_hit hfits hc x hi, processChannel_hit hfits hc y hi, p.wet_congr hfits hwcur hc h hi]
    · have hmiss : ∀ i < p.len, ringIndex p.cap p.wcur i ≠ k := fun i hi hindex => hwritten ⟨i, hi, hindex⟩
      rw [processChannel_miss hfits x hk (.inr hmiss), processChannel_miss hfits y hk (.inr hmiss)]
      exact h.ring k hk

end Channel

/-! ### The order of two channels (R101) -/

section Order

variable {p : Block} (hfits : p.Fits) (hwcur : p.wcur < p.cap) {c c' : Nat} (hc : c < p.hw.maxCh)
  (hc' : c' < p.hw.maxCh) (hne : c ≠ c') (x : Store)
include hfits hwcur hc hc' hne

/-- Either order leaves channel `c` as its own pass alone leaves it. -/
theorem processChannel_comm_sameChannel :
    (processChannel p c (processChannel p c' x)).SameChannel p.hw c (processChannel p c' (processChannel p c x)) :=
  (processChannel_congr hfits hwcur hc (processChannel_sameChannel hfits hc hc' hne x)).trans
    (processChannel_sameChannel hfits hc hc' hne _).symm

/-- Both orders leave the same words in both channels. -/
theorem processChannel_comm_sameChannel_of_mem {d : Nat} (hd : d = c ∨ d = c') :
    (processChannel p c (processChannel p c' x)).SameChannel p.hw d (processChannel p c' (processChannel p c x)) := by
  obtain rfl | rfl := hd
  · exact processChannel_comm_sameChannel hfits hwcur hc hc' hne x
  · exact (processChannel_comm_sameChannel hfits hwcur hc' hc hne.symm x).symm

theorem processChannel_comm_bufByte (a : Nat) :
    (processChannel p c (processChannel p c' x)).buf.byte a =
      (processChannel p c' (processChannel p c x)).buf.byte a := by
  by_cases ha : ∃ d, (d = c ∨ d = c') ∧ ∃ b, inBufBlock p.hw b d p.len a
  · obtain ⟨d, hd, b, i, hi, j, hj, rfl⟩ := ha
    exact Buffers.byte_eq_of_get_eq hj
      ((processChannel_comm_sameChannel_of_mem hfits hwcur hc hc' hne x hd).buf b i (hi.trans_le hfits.len))
  · have hout (d : Nat) (hd : d = c ∨ d = c') (y : Store) : (processChannel p d y).buf.byte a = y.buf.byte a :=
      processChannel_bufByte_of_not_inBufBlock p y fun b hb => ha ⟨d, hd, b, hb⟩
    rw [hout c (.inl rfl), hout c' (.inr rfl), hout c' (.inr rfl), hout c (.inl rfl)]

theorem processChannel_comm_ringByte (a : Nat) :
    ringByte p.hw (processChannel p c (processChannel p c' x)).ring a =
      ringByte p.hw (processChannel p c' (processChannel p c x)).ring a := by
  by_cases ha : ∃ d, (d = c ∨ d = c') ∧ inRingBlock p.hw p.cap d p.wcur p.len a
  · obtain ⟨d, hd, i, -, j, hj, rfl⟩ := ha
    exact ringByte_eq_of_ringGet_eq hj ((processChannel_comm_sameChannel_of_mem hfits hwcur hc hc' hne x hd).ring _
      ((ringIndex_lt hfits.cap p.wcur i).trans_le hfits.depth))
  · have hout (d : Nat) (hd : d = c ∨ d = c') (y : Store) :
        ringByte p.hw (processChannel p d y).ring a = ringByte p.hw y.ring a :=
      processChannel_ringByte_of_not_inRingBlock p y fun hb => ha ⟨d, hd, hb⟩
    rw [hout c (.inl rfl), hout c' (.inr rfl), hout c' (.inr rfl), hout c (.inl rfl)]

end Order

/-- Settles O34: a channel's pass reads and writes its own channel alone, so either order leaves the same words in both
channels, and no other byte is touched. -/
theorem channelOrderIsNotObservable : Obligations.ChannelOrderIsNotObservable := by
  intro s c c' hinv hruns hc hc'
  have ⟨hprepared, _⟩ := hruns
  have hfits := hruns.fits hinv
  have hwcur := hinv.wcur_lt_cap hprepared
  have hchannel := hinv.channel_lt_maxCh hprepared hc
  have hchannel' := hinv.channel_lt_maxCh hprepared hc'
  by_cases hne : c = c'
  · subst hne
    exact ⟨fun _ => rfl, fun _ => rfl⟩
  · exact ⟨processChannel_comm_ringByte hfits hwcur hchannel hchannel' hne _,
      processChannel_comm_bufByte hfits hwcur hchannel hchannel' hne _⟩

/-! ### The closed form (R98) -/

/-- The channel loop leaves channel `c` as that channel's pass alone leaves it. -/
theorem processChannels_sameChannel_own {p : Block} (hfits : p.Fits) (hwcur : p.wcur < p.cap) {c k : Nat} (hck : c < k)
    (hk : k ≤ p.hw.maxCh) (x : Store) : (processChannels p k x).SameChannel p.hw c (processChannel p c x) :=
  have hc := hck.trans_le hk
  (processChannels_sameChannel_after hfits hc hck hk x).trans
    (processChannel_congr hfits hwcur hc (processChannels_sameChannel_before hfits hc x))

section ClosedForm

variable {s : State} (hinv : s.Inv) (hruns : ProcessRuns s) {c : Nat} (hc : c < s.hw.maxCh)
include hinv hruns hc

/-! What a channel's pass computes in integers is the closed form over exact rationals. -/

theorem blockOf_delayed_eq (i : Nat) : (blockOf s).delayed c ⟨s.ring, s.buf⟩ i = delayedSample s c i := by
  have ⟨hprepared, _⟩ := hruns
  rw [Block.delayed_eq (hruns.fits hinv) (hinv.wcur_lt_cap hprepared) hc, delayedSample, readOffset, readStart_eq]
  rfl

variable {i : Nat} (hi : i < s.length)
include hi

theorem blockOf_wet_eq : (blockOf s).wet c ⟨s.ring, s.buf⟩ i = wetSample s c i := by
  have ⟨_, _, _, _, htime⟩ := hruns
  rw [wetSample, fx_add_scale _ _ _ _ _ (Nat.zero_lt_of_lt hi), crushedSample,
    exactDivider_eq ((crushRate_pos _).2 htime), Int.toNat_natCast, ← blockOf_delayed_eq hinv hruns hc]
  rfl

theorem blockOf_trail_eq :
    scaled ((blockOf s).wet c ⟨s.ring, s.buf⟩ i) s.last.input s.pcur.echoVolume i s.length = trailSample s c i := by
  rw [trailSample, fx_scale _ _ _ _ (Nat.zero_lt_of_lt hi), blockOf_wet_eq hinv hruns hc hi]

theorem blockOf_tail_eq : (blockOf s).tail c ⟨s.ring, s.buf⟩ i = tailSample s c i := by
  rw [Block.tail, blockOf_wet_eq hinv hruns hc hi, tailSample, fx_sub]
  rfl

theorem blockOf_out_eq : (blockOf s).out c ⟨s.ring, s.buf⟩ i = outSample s c i := by
  have hpos := Nat.zero_lt_of_lt hi
  rw [Block.out, blockOf_tail_eq hinv hruns hc hi, outSample, fx_add_scale _ _ _ _ _ hpos, drySample,
    fx_scale _ _ _ _ hpos]
  rfl

end ClosedForm

/-- Settles O30: each channel ends as its own pass alone leaves it, which is the closed form; the loop writes no byte
outside its channels' blocks; the rest is step 7 and the cursor. -/
theorem processClosedForm : Obligations.ProcessClosedForm := by
  intro s hinv hruns
  have ⟨hprepared, _⟩ := hruns
  have hfits := hruns.fits hinv
  have hcount := hruns.channelCount_le_maxCh hinv
  refine ⟨_, hruns.exec_process_eq, fun c hc i hi => ?elements, fun a ha => ?bufBytes, fun a ha => ?ringBytes, rfl⟩
  case bufBytes => exact processChannels_bufByte (blockOf s) ⟨s.ring, s.buf⟩ ha
  case ringBytes => exact processChannels_ringByte (blockOf s) ⟨s.ring, s.buf⟩ ha
  case elements =>
    have hchannel : c < s.hw.maxCh := lt_of_lt_of_le hc hcount
    have hown := processChannels_sameChannel_own hfits (hinv.wcur_lt_cap hprepared) hc hcount ⟨s.ring, s.buf⟩
    have hblk := hi.trans_le hfits.len
    have hbuf (b : BufId) := (hown.buf b i hblk).trans
      ((processChannel_get hfits hchannel _ b hchannel hblk).trans (if_pos ⟨rfl, hi⟩))
    refine ⟨(hbuf .io).trans (blockOf_out_eq hinv hruns hchannel hi),
      (hbuf .wet).trans (blockOf_tail_eq hinv hruns hchannel hi), hbuf .dry, ?_⟩
    exact (hown.ring _ ((ringIndex_lt hfits.cap _ _).trans_le hfits.depth)).trans
      ((processChannel_hit hfits hchannel _ hi).trans (blockOf_trail_eq hinv hruns hchannel hi))

/-! ### Runs of pending actions (R63, `20_memory.md` R45) -/

/-- The actions `as`, pending first, lead from `s` to `t`, whatever stays pending behind them. -/
def State.Runs (s : State) (as : List Action) (t : State) : Prop :=
  ∀ (rest : List Action) (n : Nat),
    ({ s with inbox := as ++ rest } : State).after (as.length + n) = ({ t with inbox := rest } : State).after n

theorem State.Runs.refl (s : State) : s.Runs [] s := fun _ n => by rw [List.length_nil, Nat.zero_add, List.nil_append]

theorem State.Runs.append {s t v : State} {as bs : List Action} (hst : s.Runs as t) (htv : t.Runs bs v) :
    s.Runs (as ++ bs) v := by
  intro rest n
  rw [List.append_assoc, List.length_append, Nat.add_assoc, hst, htv]

/-- With nothing pending behind them, a run ends with nothing pending. -/
theorem State.Runs.after_eq {s t : State} {as : List Action} (h : s.Runs as t) :
    ({ s with inbox := as } : State).after as.length = some { t with inbox := [] } := by
  have hrun := h [] 0
  rwa [List.append_nil, Nat.add_zero] at hrun

/-- The ARG registers after the writes of a command line (R63). -/
def Args.withOperands (a : Args) (i : Instr) (ws : List Word) : Args :=
  ((argsUsed i).zip ws).foldl (fun a kw => a.set kw.1 kw.2) a

/-- An assembled line runs its command on the state whose ARG registers hold the operands. -/
theorem State.Runs.line {s t : State} {i : Instr} (ws : List Word) (hwf : i.wellFormed = true)
    (hexec : ∀ rest, exec i { s with arg := s.arg.withOperands i ws, inbox := rest } = .next { t with inbox := rest }) :
    s.Runs (assemble i ws) t := by
  intro rest n
  have hwrites := after_argWrites ((argsUsed i).zip ws) (.hostWrite cmdAddr (encode i) :: rest) (n + 1) s
  have hcommand : step { s with inbox := .hostWrite cmdAddr (encode i) :: rest, arg := s.arg.withOperands i ws } =
      .next { t with inbox := rest } :=
    (step_cons rfl).trans ((perform_command _ (decode_encode hwf)).trans (hexec rest))
  have hlength : (argWrites ((argsUsed i).zip ws) ++ [Action.hostWrite cmdAddr (encode i)]).length + n =
      ((argsUsed i).zip ws).length + (n + 1) := by
    simp only [argWrites, List.length_append, List.length_map, List.length_singleton]
    omega
  rw [assemble_eq, List.append_assoc, hlength]
  exact hwrites.trans (after_succ_of_step hcommand n)

/-! ### PROCESS as micro-commands (R100) -/

/-- The state between two micro-commands of the sequence for a block begun in `s`: `x` in the two memories, and whatever
the operands and the results left in ARG and RES. -/
def midBlock (s : State) (x : Store) (a : Args) (r : Results) : State :=
  { s with ring := x.ring, buf := x.buf, lasterr := 0#8, arg := a, res := r }

/-- In the block begun in `s`, the actions `as` take the memories from `x` to `y` and change nothing else but ARG, RES. -/
def Reaches (s : State) (as : List Action) (x y : Store) : Prop :=
  ∀ a r, ∃ a' r', (midBlock s x a r).Runs as (midBlock s y a' r')

theorem Reaches.refl (s : State) (x : Store) : Reaches s [] x x := fun a r => ⟨a, r, .refl _⟩

theorem Reaches.append {s : State} {as bs : List Action} {x y z : Store} (hxy : Reaches s as x y)
    (hyz : Reaches s bs y z) : Reaches s (as ++ bs) x z := by
  intro a r
  obtain ⟨a', r', has⟩ := hxy a r
  obtain ⟨a'', r'', hbs⟩ := hyz a' r'
  exact ⟨a'', r'', has.append hbs⟩

/-- That state when the operands `ws` of a command `i` have been written to ARG, with `rest` pending behind its word. -/
def atCommand (s : State) (x : Store) (i : Instr) (ws : List Word) (a : Args) (r : Results) (rest : List Action) :
    State :=
  { midBlock s x (a.withOperands i ws) r with inbox := rest }

/-- A command line whose checks pass on its operands and whose effect takes the memories from `x` to `y`. -/
theorem Reaches.line {s : State} {i : Instr} {checks : State → List (Bool × ErrCode)} {effect : State → State}
    {x y : Store} (ws : List Word) (hwf : i.wellFormed = true) (hexec : ∀ t, exec i t = runCommand (checks t) effect t)
    (hpass : ∀ a r rest, firstFault (checks (atCommand s x i ws a r rest)) = none)
    (heffect : ∀ a r rest, (effect (atCommand s x i ws a r rest)).complete = atCommand s y i ws a r rest) :
    Reaches s (assemble i ws) x y := by
  intro a r
  refine ⟨a.withOperands i ws, r, .line ws hwf fun rest => ?_⟩
  exact (hexec _).trans ((runCommand_pass effect _ (hpass a r rest)).trans (congrArg _ (heffect a r rest)))

/-! The checks of the micro-commands, on operands in range. -/

section Checks

variable {t : State} {c : Nat} (hprepared : t.prepared = true) (hc : c < u t.nch) (hblock : u t.arg.a1 ≤ u t.maxblk)
include hprepared hc hblock

theorem firstFault_bufChecks_eq_none : firstFault (bufChecks t c) = none := by
  rw [firstFault_bufChecks, if_neg (by simp [hprepared]), if_neg (by omega)]

theorem firstFault_decimateBlk_eq_none (hdepth : u t.arg.a3 ≤ 24) :
    firstFault (bufChecks t c ++ [needBitDepth t]) = none := by
  rw [firstFault_decimateBlk, if_neg (by simp [hprepared]), if_neg (by omega)]

theorem firstFault_ringChecks_eq_none (hstart : u t.arg.a0 < u t.cap) (hcap : u t.arg.a1 ≤ u t.cap) :
    firstFault (ringChecks t c) = none := by
  rw [firstFault_ringChecks, if_neg (by simp [hprepared]), if_neg (by omega)]

end Checks

section Channel

variable {s : State} {n : Word} {c : Nat} (hprepared : s.prepared = true) (hc : c < u s.nch) (hwf : c < 16)
  (hblock : u n ≤ u s.maxblk)
include hprepared hc hwf hblock

/-! The commands of the loop body, each with its own pass of R96. -/

theorem Reaches.bufCopy (dst src : BufId) (x : Store) : Reaches s (assemble (.bufCopy c dst src) [n]) x
    ⟨x.ring, mixBlock s.hw c dst src (u n) copySample x.buf⟩ :=
  .line [n] (decide_eq_true hwf) (exec_bufCopy · c dst src)
    (fun _ _ _ => firstFault_bufChecks_eq_none hprepared hc hblock) fun _ _ _ => rfl

theorem Reaches.bufSub (dst src : BufId) (x : Store) : Reaches s (assemble (.bufSub c dst src) [n]) x
    ⟨x.ring, mixBlock s.hw c dst src (u n) subSample x.buf⟩ :=
  .line [n] (decide_eq_true hwf) (exec_bufSub · c dst src)
    (fun _ _ _ => firstFault_bufChecks_eq_none hprepared hc hblock) fun _ _ _ => rfl

theorem Reaches.bufCopyRamp (dst src : BufId) (a b : Word) (x : Store) :
    Reaches s (assemble (.bufCopyRamp c dst src) [n, a, b]) x
      ⟨x.ring, mixBlock s.hw c dst src (u n) (copyRampSample a b (u n)) x.buf⟩ :=
  .line [n, a, b] (decide_eq_true hwf) (exec_bufCopyRamp · c dst src)
    (fun _ _ _ => firstFault_bufChecks_eq_none hprepared hc hblock) fun _ _ _ => rfl

theorem Reaches.bufAddRamp (dst src : BufId) (a b : Word) (x : Store) :
    Reaches s (assemble (.bufAddRamp c dst src) [n, a, b]) x
      ⟨x.ring, mixBlock s.hw c dst src (u n) (addRampSample a b (u n)) x.buf⟩ :=
  .line [n, a, b] (decide_eq_true hwf) (exec_bufAddRamp · c dst src)
    (fun _ _ _ => firstFault_bufChecks_eq_none hprepared hc hblock) fun _ _ _ => rfl

theorem Reaches.decimateBlk (b : BufId) {rd bd : Word} {rd' : Nat} (hrd : u rd = rd') (hdepth : u bd ≤ 24) (x : Store) :
    Reaches s (assemble (.decimateBlk c b) [n, rd, bd]) x
      ⟨x.ring, decimateBlock s.hw c b (u n) rd' (u bd) x.buf⟩ := by
  subst hrd
  exact .line [n, rd, bd] (decide_eq_true hwf) (exec_decimateBlk · c b)
    (fun _ _ _ => firstFault_decimateBlk_eq_none hprepared hc hblock hdepth) fun _ _ _ => rfl

variable {start : Word} {k : Nat} (hk : u start = k) (hstart : k < u s.cap) (hcap : u n ≤ u s.cap)
include hk hstart hcap

theorem Reaches.rbWrite (src : BufId) (x : Store) : Reaches s (assemble (.rbWrite c src) [start, n]) x
    ⟨ringWriteBlock s.hw (u s.cap) c k (u n) (plainSamples s.hw x.buf src c) x.ring, x.buf⟩ := by
  subst hk
  exact .line [start, n] (decide_eq_true hwf) (exec_rbWrite · c src)
    (fun _ _ _ => firstFault_ringChecks_eq_none hprepared hc hblock hstart hcap) fun _ _ _ => rfl

theorem Reaches.rbWriteRamp (src : BufId) (a b : Word) (x : Store) :
    Reaches s (assemble (.rbWriteRamp c src) [start, n, a, b]) x
      ⟨ringWriteBlock s.hw (u s.cap) c k (u n) (rampSamples s.hw x.buf src c a b (u n)) x.ring, x.buf⟩ := by
  subst hk
  exact .line [start, n, a, b] (decide_eq_true hwf) (exec_rbWriteRamp · c src)
    (fun _ _ _ => firstFault_ringChecks_eq_none hprepared hc hblock hstart hcap) fun _ _ _ => rfl

theorem Reaches.rbReadaddRamp (dst : BufId) (a b : Word) (x : Store) :
    Reaches s (assemble (.rbReadaddRamp c dst) [start, n, a, b]) x
      ⟨x.ring, ringReadAddBlock s.hw (u s.cap) c k (u n) dst a b x.ring x.buf⟩ := by
  subst hk
  exact .line [start, n, a, b] (decide_eq_true hwf) (exec_rbReadaddRamp · c dst)
    (fun _ _ _ => firstFault_ringChecks_eq_none hprepared hc hblock hstart hcap) fun _ _ _ => rfl

end Channel

section Sequence

variable {s : State}

/-- The operand the sequence gives DECIMATE.BLK is the divider PROCESS holds. -/
theorem u_ofInt_exactDivider (hruns : ProcessRuns s) :
    u (BitVec.ofInt 32 (exactDivider s.sr s.pcur.time)) = (blockOf s).rd := by
  have ⟨_, _, _, _, htime⟩ := hruns
  rw [exactDivider_eq ((crushRate_pos _).2 htime), BitVec.ofInt_natCast]
  exact (BitVec.toNat_ofNat _ _).trans (Nat.mod_eq_of_lt (rateDivider_lt _ _))

/-- The operand the sequence gives RB.READADD.RAMP is the read position PROCESS holds. -/
theorem u_ofNat_readStart (hcap : 0 < u s.cap) : u (BitVec.ofNat 32 (readStart s)) = (blockOf s).rp := by
  rw [readStart_eq]
  exact (BitVec.toNat_ofNat _ _).trans (Nat.mod_eq_of_lt ((readPosition_lt hcap _ _ _).trans s.cap.isLt))

variable (hruns : ProcessRuns s)
include hruns

/-- RATEDIV, the first command, leaves the divider in RES. -/
theorem runs_ratediv : s.Runs (assemble .ratediv [])
    (midBlock s ⟨s.ring, s.buf⟩ s.arg { s.res with r0 := BitVec.ofNat 32 (rateDivider s.sr s.pcur.time) }) := by
  have ⟨hprepared, _, _, _, htime⟩ := hruns
  have hrate := ((crushRate_pos _).2 htime).not_ge
  refine .line [] rfl fun rest => ?_
  exact exec_checked_pass (exec_ratediv { s with inbox := rest }) (firstFault_ratediv _) hprepared hrate

/-- RB.RDPOS writes to RES only. -/
theorem reaches_rbRdpos (x : Store) : Reaches s (assemble .rbRdpos []) x x := by
  have ⟨hprepared, _⟩ := hruns
  refine fun a r => ⟨a, { r with
    r0 := BitVec.ofNat 32 (readStart s)
    r1 := BitVec.ofInt 32 (exactDelay s.sr s.pcur.time) }, .line [] rfl fun rest => ?_⟩
  exact exec_rbRdpos_prepared (s := { midBlock s x a r with inbox := rest }) hprepared

/-- RAMP.COMMIT and CURSOR.ADV, the last two commands, are step 7 and the advance of the cursor. -/
theorem runs_commit (x : Store) (a : Args) (r : Results) :
    (midBlock s x a r).Runs (assemble .rampCommit [] ++ assemble .cursorAdv [s.arg.a1])
      { processed s x with arg := a.withOperands .cursorAdv [s.arg.a1], res := r } := by
  have ⟨hprepared, _, hcap, _, _⟩ := hruns
  have hcommit : (midBlock s x a r).Runs (assemble .rampCommit [])
      { midBlock s x a r with last := paramGains s.pcur } :=
    .line [] rfl fun _ => (exec_rampCommit _).trans (runCommand_unchecked _ _)
  refine hcommit.append (.line [s.arg.a1] rfl fun rest => ?_)
  exact exec_cursorAdv_pass (s := { midBlock s x (a.withOperands .cursorAdv [s.arg.a1]) r with
    last := paramGains s.pcur
    inbox := rest }) hprepared hcap

variable (hinv : s.Inv)
include hinv

/-- The ten commands of the loop body are the steps of R96 for their channel. -/
theorem reaches_channelCommands {c : Nat} (hc : c < u s.nch) (x : Store) :
    Reaches s (channelCommands s s.arg.a1 c) x (processChannel (blockOf s) c x) := by
  have ⟨hprepared, hblock, hcap, _, _⟩ := hruns
  have hwf : c < 16 := by
    obtain ⟨-, hmaxCh, -, -⟩ := (Hardware.ok_iff s.hw).1 hinv.hardware
    exact (hinv.channel_lt_maxCh hprepared hc).trans_le hmaxCh
  have hwcur := hinv.wcur_lt_cap hprepared
  have hpos := hinv.cap_pos hprepared
  have hrp : (blockOf s).rp < u s.cap := readPosition_lt hpos _ _ _
  have hdivider := u_ofInt_exactDivider hruns
  have hposition := u_ofNat_readStart hpos
  have hdepth : u 8#32 ≤ 24 := by decide
  have hwrite : Reaches s _ x (blockWrite (blockOf s) c x) :=
    ((Reaches.bufCopy hprepared hc hwf hblock .wet .io x).append (.bufCopy hprepared hc hwf hblock .dry .io _)).append
      (.rbWrite hprepared hc hwf hblock rfl hwcur hcap .wet _)
  have hread : Reaches s _ x (blockRead (blockOf s) c (blockWrite (blockOf s) c x)) :=
    ((hwrite.append (.decimateBlk hprepared hc hwf hblock .wet hdivider hdepth _)).append
      (.decimateBlk hprepared hc hwf hblock .io hdivider hdepth _)).append
      (.rbReadaddRamp hprepared hc hwf hblock hposition hrp hcap .wet _ _ _)
  have hrewrite : Reaches s _ x (blockRewrite (blockOf s) c (blockRead (blockOf s) c (blockWrite (blockOf s) c x))) :=
    (hread.append (.rbWriteRamp hprepared hc hwf hblock rfl hwcur hcap .wet _ _ _)).append
      (.bufSub hprepared hc hwf hblock .wet .dry _)
  exact (hrewrite.append (.bufCopyRamp hprepared hc hwf hblock .io .dry _ _ _)).append
    (.bufAddRamp hprepared hc hwf hblock .io .wet _ _ _)

/-- The micro-commands of `k` channels are the channel loop. -/
theorem reaches_channels {k : Nat} (hk : k ≤ u s.nch) (x : Store) :
    Reaches s ((List.range k).flatMap (channelCommands s s.arg.a1)) x (processChannels (blockOf s) k x) := by
  induction k with
  | zero => exact .refl s x
  | succ k ih =>
    rw [List.range_succ, List.flatMap_append, List.flatMap_singleton, processChannels_succ]
    exact (ih (by omega)).append (reaches_channelCommands hruns hinv (by omega) _)

end Sequence

/-- Settles O33: the sequence holds in its operands what PROCESS holds in its snapshot, so each channel's ten commands are
that channel's pass, and the last two are step 7 and the cursor. -/
theorem processEqualsMicroCommands : Obligations.ProcessEqualsMicroCommands := by
  intro s hinv hruns
  have ⟨_, _, _, hchannels, _⟩ := hruns
  have hratediv := runs_ratediv hruns
  obtain ⟨a, r, hrdpos⟩ := reaches_rbRdpos hruns ⟨s.ring, s.buf⟩ _ _
  obtain ⟨a', r', hloop⟩ := reaches_channels hruns hinv hchannels ⟨s.ring, s.buf⟩ a r
  have hrun := (hratediv.append hrdpos).append (hloop.append (runs_commit hruns _ a' r'))
  exact ⟨_, _, hruns.exec_process_eq, hrun.after_eq, rfl, rfl, rfl, rfl, rfl⟩

end Sys2Proof.Machine

/-! PROOFS. The system commands that take operands (`44_system.md`): PREPARE on success and its two faults (R106), and
GETPARAM (R109) and SETPARAM (R110) at an index of the bank and beyond it. -/

namespace Sys2Proof.Machine

/-! ### PREPARE (R106) -/

section Prepare

variable {s : State}

theorem exec_prepare_badArg (h : u s.arg.a0 = 0) : exec .prepare s = .next (faulted 3 s) := by
  rw [exec_prepare, if_pos h, raise_badArg]

theorem exec_prepare_alloc (hsr : 1 ≤ u s.arg.a0) (h : allocCause s) :
    exec .prepare s = .next (faulted 5 s.unprepare) := by
  unfold allocCause at h
  rw [exec_prepare, if_neg (by omega), if_pos h, raise_alloc]

theorem exec_prepare_pass (hsr : 1 ≤ u s.arg.a0) (h : ¬ allocCause s) :
    exec .prepare s = .next ((s.configure s.arg.a0 (BitVec.ofNat 32 (2 * u s.arg.a0)) s.arg.a2 s.arg.a1).setRing
      (ringClear (u s.arg.a2) (2 * u s.arg.a0) s.ring)).complete := by
  unfold allocCause at h
  rw [exec_prepare, if_neg (by omega), if_neg h]

/-- A capacity within the physical ring is the number CAP holds (`10_state.md` R17). -/
theorem u_ofNat_capacity {hw : Hardware} (hok : hw.ok = true) {n : Nat} (hn : n ≤ hw.ringDepth) :
    u (BitVec.ofNat 32 n) = n := by
  obtain ⟨-, -, -, hdepth⟩ := (Hardware.ok_iff hw).1 hok
  exact (BitVec.toNat_ofNat _ _).trans (Nat.mod_eq_of_lt (hn.trans_lt hdepth))

end Prepare

/-- Settles O11: the request passes both comparisons, its capacity fits CAP, and what the command left unlisted in the
allocated region reads as 0. -/
theorem prepareAllocatesAndClears : Obligations.PrepareAllocatesAndClears := by
  intro s hok hsr hcap hnch hblock
  have hfits : ¬ allocCause s := by
    unfold allocCause
    omega
  refine ⟨_, exec_prepare_pass hsr hfits, u_ofNat_capacity hok hcap, fun c hc k hk => ?_, rfl⟩
  exact ringGet_ringClear s.ring hc hk hcap

/-- Settles O12: the sample rate is checked first, and only the request beyond the physical sizes un-prepares. -/
theorem prepareRefusesBadRequests : Obligations.PrepareRefusesBadRequests := fun s =>
  ⟨exec_prepare_badArg, fun hsr hlarge => ⟨ringLose s.ring, exec_prepare_alloc hsr hlarge⟩⟩

/-! ### GETPARAM and SETPARAM (R109, R110) -/

/-- A command that answers `bad` beyond the bank and `good i` at an index of it, by the index: an operand names one
parameter at most. -/
theorem outcome_of_paramIndex {n : Nat} {bad : Prop} {good : Fin 5 → Prop}
    (h : (5 ≤ n ∧ bad) ∨ ∃ j : Fin 5, n = j.val ∧ good j) :
    (∀ i : Fin 5, n = i.val → good i) ∧ (5 ≤ n → bad) := by
  obtain ⟨hn, hbad⟩ | ⟨j, hj, hgood⟩ := h
  · exact ⟨fun i hi => absurd i.isLt (by omega), fun _ => hbad⟩
  · exact ⟨fun i hi => Fin.ext (hj.symm.trans hi) ▸ hgood, fun hn => absurd j.isLt (by omega)⟩

theorem regAt_pdef (i : Fin 5) : regAt (0x080 + 4 * i.val) = some (.pdef i) := by
  revert i
  decide

theorem perform_hostRead_pdef (s : State) (i : Fin 5) :
    perform (.hostRead (0x080 + 4 * i.val)) s = .next { s with readData := some (paramGet s.pdef i) } :=
  perform_hostRead (readWord_of_regAt (regAt_pdef i))

theorem perform_hostRead_pcur (s : State) (i : Fin 5) :
    perform (.hostRead (0x060 + 4 * i.val)) s = .next { s with readData := some (paramGet s.pcur i) } :=
  perform_hostRead (readWord_of_regAt (regAt_pcur i))

/-- Settles O9: the command and the register map read the same two banks. -/
theorem getparamReturnsParameter : Obligations.GetparamReturnsParameter := by
  intro s
  obtain ⟨hindex, hbeyond⟩ := outcome_of_paramIndex (exec_getparam s)
  exact ⟨rfl, fun i hi => ⟨hindex i hi, perform_hostRead_pdef s i, perform_hostRead_pcur s i⟩, hbeyond⟩

/-- Settles O10: the command, the control surface and the host's write of the register all write the bank through
`paramSet`, which looks at no bit of the word. -/
theorem setparamStoresAsGiven : Obligations.SetparamStoresAsGiven := by
  intro s
  obtain ⟨hindex, hbeyond⟩ := outcome_of_paramIndex (exec_setparam s)
  exact ⟨rfl, fun i hi => ⟨paramSet s.pcur i s.arg.a1, fun j => paramGet_paramSet s.pcur i j _, hindex i hi, rfl,
    perform_hostWrite_pcur s i s.arg.a1⟩, hbeyond⟩

end Sys2Proof.Machine

/-! PROOFS. Exceptions (`60_exceptions.md`): every command as its faults by cause and its effect (R115, R118, R119,
R121), that no command reads the status state (R122), and the two faults that come from the host (R116, `20_memory.md`
R42). -/

namespace Sys2Proof.Machine

/-! ### The causes of a command's faults, and how a command ends (R115 to R121) -/

/-- The cause of each fault a command can end with, earlier checks passed (R121); codes 1 and 6 are not a command's. -/
def FaultCause (s : State) (i : Instr) : ErrCode → Prop
  | .illegalCmd => False
  | .notPrepared => needsPreparation i ∧ s.prepared = false
  | .badArg => (needsPreparation i → s.prepared = true) ∧ badArgCause s i
  | .rateUndef => s.prepared = true ∧ ¬ badArgCause s i ∧ (i = .process ∨ i = .ratediv) ∧ 2 ≤ val s.pcur.time
  | .alloc => i = .prepare ∧ ¬ badArgCause s i ∧ allocCause s
  | .bus => False

/-- `o` is the fault with a cause, or none if there is no cause. -/
def ReportsCause (s : State) (i : Instr) (o : Option ErrCode) : Prop := ∀ k, o = some k ↔ FaultCause s i k

/-- What a fault of a command leaves: `E_ALLOC` un-prepares first (`44_system.md` R106). -/
def State.fail (s : State) : ErrCode → State
  | .alloc => s.unprepare.raise .alloc
  | k => s.raise k

/-- What a command leaves that has this effect and reports `o`. -/
def State.finish (s : State) (effect : State → State) : Option ErrCode → State
  | some k => s.fail k
  | none => (effect s).complete

/-- The status state replaced (`10_state.md` R26). -/
def State.withStatus (s : State) (e : BitVec 8) (f : Word) : State := { s with lasterr := e, faultlog := f }

/-- The effect neither reads nor writes LASTERR and FAULTLOG. -/
def IgnoresStatus (effect : State → State) : Prop :=
  ∀ s e f, effect (s.withStatus e f) = (effect s).withStatus e f

/-- Command `i` ends by the fault that has a cause, or else by this effect. -/
structure HasEffect (i : Instr) (effect : State → State) : Prop where
  ignoresStatus : IgnoresStatus effect
  exec_eq : ∀ s, ∃ o, ReportsCause s i o ∧ exec i s = .next (s.finish effect o)

theorem errByte_inj {k k' : ErrCode} : errByte k = errByte k' ↔ k = k' := by
  cases k <;> cases k' <;> decide

theorem errByte_ne_zero (k : ErrCode) : errByte k ≠ 0#8 := by cases k <;> decide

@[simp] theorem State.fail_lasterr (s : State) (k : ErrCode) : (s.fail k).lasterr = errByte k := by cases k <;> rfl

@[simp] theorem State.fail_faultlog (s : State) (k : ErrCode) : (s.fail k).faultlog = logged k s.faultlog := by
  cases k <;> rfl

theorem State.fail_of_ne_alloc (s : State) {k : ErrCode} (h : k ≠ .alloc) : s.fail k = s.raise k := by
  cases k with
  | alloc => exact absurd rfl h
  | _ => rfl

/-- An effect that ignores the status state leaves FAULTLOG alone. -/
theorem IgnoresStatus.faultlog {effect : State → State} (h : IgnoresStatus effect) (s : State) :
    (effect s).faultlog = s.faultlog := by
  have hs : effect s = (effect s).withStatus s.lasterr s.faultlog := h s s.lasterr s.faultlog
  rw [hs]
  rfl

/-- At most one fault has a cause: a later one asks that the earlier checks passed. -/
theorem FaultCause.unique {s : State} {i : Instr} {k k' : ErrCode} (h : FaultCause s i k) (h' : FaultCause s i k') :
    k = k' := by
  have hprepare : i = .prepare → ¬ needsPreparation i ∧ i ≠ .process ∧ i ≠ .ratediv := by
    rintro rfl
    exact ⟨id, nofun, nofun⟩
  unfold FaultCause at h h'
  cases k <;> cases k' <;> grind

theorem FaultCause.reports {s : State} {i : Instr} {k : ErrCode} (h : FaultCause s i k) : ReportsCause s i (some k) :=
  fun _ => Option.some_inj.trans ⟨fun heq => heq ▸ h, h.unique⟩

/-- A command that passes every check. -/
theorem reportsCause_none {s : State} {i : Instr} (hprepared : needsPreparation i → s.prepared = true)
    (hoperands : ¬ badArgCause s i) (hrate : ¬ ((i = .process ∨ i = .ratediv) ∧ 2 ≤ val s.pcur.time))
    (halloc : i = .prepare → ¬ allocCause s) : ReportsCause s i none := by
  refine fun k => iff_of_false nofun fun hcause => ?_
  unfold FaultCause at hcause
  cases k <;> grind

theorem ReportsCause.unique {s : State} {i : Instr} {o o' : Option ErrCode} (h : ReportsCause s i o)
    (h' : ReportsCause s i o') : o = o' :=
  Option.ext fun k => (h k).trans (h' k).symm

/-- No cause of a fault is in the status state. -/
theorem reportsCause_withStatus (s : State) (i : Instr) (o : Option ErrCode) (e : BitVec 8) (f : Word) :
    ReportsCause (s.withStatus e f) i o ↔ ReportsCause s i o := Iff.rfl

/-! ### What the checks of each command report -/

/-- A checked command that allocates nothing ends by the fault its checks report. -/
theorem HasEffect.of_runCommand {i : Instr} {checks : State → List (Bool × ErrCode)} {effect : State → State}
    (hexec : ∀ s, exec i s = runCommand (checks s) effect s) (hstatus : IgnoresStatus effect) (hi : i ≠ .prepare)
    (hchecks : ∀ s, ReportsCause s i (firstFault (checks s))) : HasEffect i effect where
  ignoresStatus := hstatus
  exec_eq s := by
    refine ⟨_, hchecks s, (hexec s).trans ?_⟩
    cases hfault : firstFault (checks s) with
    | none => exact runCommand_pass effect s hfault
    | some k =>
      have hk : k ≠ .alloc := by
        rintro rfl
        exact hi ((hchecks s .alloc).1 hfault).1
      rw [runCommand_fault effect s hfault]
      exact congrArg _ (s.fail_of_ne_alloc hk).symm

section Checks

variable {s : State} {i : Instr} {bad rate : Prop} [Decidable bad] [Decidable rate]

/-- The order of R121: preparation, then operands, then the rate. -/
theorem reportsCause_inOrder (hneeds : needsPreparation i) (hbad : badArgCause s i ↔ bad)
    (hrate : (i = .process ∨ i = .ratediv) ∧ 2 ≤ val s.pcur.time ↔ rate) :
    ReportsCause s i (if s.prepared = false then some .notPrepared else if bad then some .badArg
      else if rate then some .rateUndef else none) := by
  have hi : i ≠ .prepare := by
    rintro rfl
    exact hneeds
  by_cases hprep : s.prepared = false
  · rw [if_pos hprep]
    exact FaultCause.reports (k := .notPrepared) ⟨hneeds, hprep⟩
  have hprepared : s.prepared = true := Bool.eq_true_of_not_eq_false hprep
  rw [if_neg hprep]
  by_cases hb : bad
  · rw [if_pos hb]
    exact FaultCause.reports (k := .badArg) ⟨fun _ => hprepared, hbad.2 hb⟩
  have hoperands : ¬ badArgCause s i := mt hbad.1 hb
  rw [if_neg hb]
  by_cases hr : rate
  · rw [if_pos hr]
    exact FaultCause.reports (k := .rateUndef) ⟨hprepared, hoperands, hrate.2 hr⟩
  · rw [if_neg hr]
    exact reportsCause_none (fun _ => hprepared) hoperands (mt hrate.1 hr) fun hprepare => absurd hprepare hi

/-- A command that needs preparation and does not look at the rate. -/
theorem reportsCause_operands (hneeds : needsPreparation i) (hbad : badArgCause s i ↔ bad)
    (hrate : i ≠ .process ∧ i ≠ .ratediv) :
    ReportsCause s i (if s.prepared = false then some .notPrepared else if bad then some .badArg else none) := by
  have h := reportsCause_inOrder (rate := False) hneeds hbad (by simp [hrate])
  rwa [if_neg not_false] at h

/-- A host-interface command that allocates nothing. -/
theorem reportsCause_index (hneeds : ¬ needsPreparation i) (hbad : badArgCause s i ↔ bad)
    (hi : i ≠ .process ∧ i ≠ .ratediv ∧ i ≠ .prepare) :
    ReportsCause s i (if bad then some .badArg else none) := by
  obtain ⟨hprocess, hratediv, hprepare⟩ := hi
  by_cases hb : bad
  · rw [if_pos hb]
    exact FaultCause.reports (k := .badArg) ⟨fun h => absurd h hneeds, hbad.2 hb⟩
  · rw [if_neg hb]
    exact reportsCause_none (fun h => absurd h hneeds) (mt hbad.1 hb) (by simp [hprocess, hratediv])
      fun h => absurd h hprepare

end Checks

theorem two_le_val_iff (t : Word) : 2 ≤ val t ↔ crushRate t ≤ 0 := by
  rw [← not_lt, ← crushRate_pos, not_lt]

/-- The commands without a check. -/
theorem hasEffect_unchecked {i : Instr} {effect : State → State}
    (hi : i ∈ [Instr.nop, .loadstate, .getpcount, .savestate, .rampCommit])
    (hexec : ∀ s, exec i s = runCommand [] effect s) (hstatus : IgnoresStatus effect) : HasEffect i effect := by
  refine .of_runCommand hexec hstatus (by rintro rfl; simp at hi) fun s => ?_
  fin_cases hi <;> exact reportsCause_index (bad := False) id Iff.rfl (by decide)

/-- The ring accesses, by their common checks (`40_ring.md` R76). -/
theorem hasEffect_ringAccess {i : Instr} {c : Nat} {b : BufId} {effect : State → State}
    (hi : i ∈ [Instr.rbWrite c b, .rbWriteRamp c b, .rbReadaddRamp c b])
    (hexec : ∀ s, exec i s = runCommand (ringChecks s c) effect s) (hstatus : IgnoresStatus effect) :
    HasEffect i effect := by
  refine .of_runCommand hexec hstatus (by rintro rfl; simp at hi) fun s => ?_
  rw [firstFault_ringChecks]
  fin_cases hi <;> exact reportsCause_operands trivial Iff.rfl ⟨nofun, nofun⟩

/-- The four BUF commands, by their common checks (`42_mix.md` R87). -/
theorem hasEffect_bufAccess {i : Instr} {c : Nat} {dst src : BufId} {effect : State → State}
    (hi : i ∈ [Instr.bufCopy c dst src, .bufSub c dst src, .bufCopyRamp c dst src, .bufAddRamp c dst src])
    (hexec : ∀ s, exec i s = runCommand (bufChecks s c) effect s) (hstatus : IgnoresStatus effect) :
    HasEffect i effect := by
  refine .of_runCommand hexec hstatus (by rintro rfl; simp at hi) fun s => ?_
  rw [firstFault_bufChecks]
  fin_cases hi <;> exact reportsCause_operands trivial Iff.rfl ⟨nofun, nofun⟩

theorem reportsCause_processChecks (s : State) : ReportsCause s .process (firstFault (processChecks s)) := by
  rw [firstFault_processChecks]
  exact reportsCause_inOrder trivial Iff.rfl (by simp [two_le_val_iff])

theorem reportsCause_ratediv (s : State) : ReportsCause s .ratediv (firstFault [needPrepared s, needRate s]) := by
  have h := reportsCause_inOrder (s := s) (i := .ratediv) (bad := False) (rate := crushRate s.pcur.time ≤ 0) trivial
    Iff.rfl (by simp [two_le_val_iff])
  rwa [if_neg not_false, ← firstFault_ratediv] at h

theorem reportsCause_rbRdpos (s : State) : ReportsCause s .rbRdpos (firstFault [needPrepared s]) := by
  have h := reportsCause_operands (s := s) (i := .rbRdpos) (bad := False) trivial Iff.rfl ⟨nofun, nofun⟩
  have hchecks : firstFault [needPrepared s] = if s.prepared = false then some .notPrepared else none := by
    cases hp : s.prepared <;> simp [needPrepared, hp]
  rwa [if_neg not_false, ← hchecks] at h

/-! ### Every command by its causes and its effect -/

/-- What PREPARE reports (`44_system.md` R106). -/
theorem reportsCause_prepare (s : State) [Decidable (allocCause s)] :
    ReportsCause s .prepare (if u s.arg.a0 = 0 then some .badArg else if allocCause s then some .alloc else none) := by
  by_cases hzero : u s.arg.a0 = 0
  · rw [if_pos hzero]
    exact FaultCause.reports (k := .badArg) ⟨False.elim, hzero⟩
  rw [if_neg hzero]
  by_cases halloc : allocCause s
  · rw [if_pos halloc]
    exact FaultCause.reports (k := .alloc) ⟨rfl, hzero, halloc⟩
  · rw [if_neg halloc]
    exact reportsCause_none False.elim hzero (by simp) fun _ => halloc

/-- A successful PREPARE. -/
def prepareEffect (s : State) : State :=
  (s.configure s.arg.a0 (BitVec.ofNat 32 (2 * u s.arg.a0)) s.arg.a2 s.arg.a1).setRing
    (ringClear (u s.arg.a2) (2 * u s.arg.a0) s.ring)

theorem hasEffect_prepare : HasEffect .prepare prepareEffect where
  ignoresStatus _ _ _ := rfl
  exec_eq s := by
    classical
    refine ⟨_, reportsCause_prepare s, ?_⟩
    rcases Nat.eq_zero_or_pos (u s.arg.a0) with hzero | hpos
    · rw [if_pos hzero]
      exact exec_prepare_badArg hzero
    rw [if_neg hpos.ne']
    by_cases halloc : allocCause s
    · rw [if_pos halloc]
      exact exec_prepare_alloc hpos halloc
    · rw [if_neg halloc]
      exact exec_prepare_pass hpos halloc

/-- What a command does to the parameter its first operand names; nothing beyond the bank (`44_system.md` R109, R110). -/
def paramEffect (write : Fin 5 → State → State) (s : State) : State := (paramIndex (u s.arg.a0)).elim s (write · s)

/-- GETPARAM and SETPARAM, by their two outcomes. -/
theorem hasEffect_paramEffect {i : Instr} {write : Fin 5 → State → State} (hi : i ∈ [Instr.getparam, .setparam])
    (hexec : ∀ s, (5 ≤ u s.arg.a0 ∧ exec i s = .next (s.raise .badArg)) ∨
      ∃ j : Fin 5, u s.arg.a0 = j.val ∧ exec i s = .next (write j s).complete)
    (hstatus : ∀ j, IgnoresStatus (write j)) : HasEffect i (paramEffect write) where
  ignoresStatus s e f := by
    show (paramIndex (u s.arg.a0)).elim _ _ = ((paramIndex (u s.arg.a0)).elim _ _ : State).withStatus e f
    cases paramIndex (u s.arg.a0) with
    | none => rfl
    | some j => exact hstatus j s e f
  exec_eq s := by
    have hcause : ReportsCause s i (if 5 ≤ u s.arg.a0 then some .badArg else none) := by
      fin_cases hi <;> exact reportsCause_index id Iff.rfl (by decide)
    refine ⟨_, hcause, ?_⟩
    obtain ⟨hbad, hfault⟩ | ⟨j, hj, hpass⟩ := hexec s
    · rw [if_pos hbad, hfault]
      rfl
    · rw [if_neg (by omega), hpass]
      unfold State.finish paramEffect
      rw [hj, paramIndex_val]
      rfl

open HasEffect in
/-- Every command: three branch on an operand, the others are a list of checks and one effect. -/
theorem exists_hasEffect (i : Instr) : ∃ effect, HasEffect i effect := by
  cases i with
  | prepare => exact ⟨_, hasEffect_prepare⟩
  | getparam => exact ⟨_, hasEffect_paramEffect (by decide) exec_getparam fun _ _ _ _ => rfl⟩
  | setparam => exact ⟨_, hasEffect_paramEffect (by decide) exec_setparam fun _ _ _ _ => rfl⟩
  | nop => exact ⟨_, hasEffect_unchecked (by decide) exec_nop fun _ _ _ => rfl⟩
  | loadstate => exact ⟨_, hasEffect_unchecked (by decide) exec_loadstate fun _ _ _ => rfl⟩
  | getpcount => exact ⟨_, hasEffect_unchecked (by decide) exec_getpcount fun _ _ _ => rfl⟩
  | savestate => exact ⟨_, hasEffect_unchecked (by decide) exec_savestate fun _ _ _ => rfl⟩
  | rampCommit => exact ⟨_, hasEffect_unchecked (by decide) exec_rampCommit fun _ _ _ => rfl⟩
  | process => exact ⟨_, of_runCommand exec_process (fun _ _ _ => rfl) nofun reportsCause_processChecks⟩
  | ratediv => exact ⟨_, of_runCommand exec_ratediv (fun _ _ _ => rfl) nofun reportsCause_ratediv⟩
  | rbRdpos => exact ⟨_, of_runCommand exec_rbRdpos (fun _ _ _ => rfl) nofun reportsCause_rbRdpos⟩
  | cursorAdv =>
    refine ⟨_, of_runCommand exec_cursorAdv (fun _ _ _ => rfl) nofun fun s => ?_⟩
    exact firstFault_cursorAdv s ▸ reportsCause_operands trivial Iff.rfl (by decide)
  | rbWrite c b => exact ⟨_, hasEffect_ringAccess (b := b) (by simp) (exec_rbWrite · c b) fun _ _ _ => rfl⟩
  | rbWriteRamp c b => exact ⟨_, hasEffect_ringAccess (b := b) (by simp) (exec_rbWriteRamp · c b) fun _ _ _ => rfl⟩
  | rbReadaddRamp c b => exact ⟨_, hasEffect_ringAccess (b := b) (by simp) (exec_rbReadaddRamp · c b) fun _ _ _ => rfl⟩
  | decimate c b =>
    refine ⟨_, of_runCommand (fun s => exec_decimate s c b) (fun _ _ _ => rfl) nofun fun s => ?_⟩
    exact firstFault_decimate s c ▸ reportsCause_operands trivial Iff.rfl ⟨nofun, nofun⟩
  | decimateBlk c b =>
    refine ⟨_, of_runCommand (fun s => exec_decimateBlk s c b) (fun _ _ _ => rfl) nofun fun s => ?_⟩
    exact firstFault_decimateBlk s c ▸ reportsCause_operands trivial Iff.rfl ⟨nofun, nofun⟩
  | bufCopy c dst src =>
    exact ⟨_, hasEffect_bufAccess (dst := dst) (src := src) (by simp) (exec_bufCopy · c dst src) fun _ _ _ => rfl⟩
  | bufSub c dst src =>
    exact ⟨_, hasEffect_bufAccess (dst := dst) (src := src) (by simp) (exec_bufSub · c dst src) fun _ _ _ => rfl⟩
  | bufCopyRamp c dst src =>
    exact ⟨_, hasEffect_bufAccess (dst := dst) (src := src) (by simp) (exec_bufCopyRamp · c dst src) fun _ _ _ => rfl⟩
  | bufAddRamp c dst src =>
    exact ⟨_, hasEffect_bufAccess (dst := dst) (src := src) (by simp) (exec_bufAddRamp · c dst src) fun _ _ _ => rfl⟩

/-- One command, everything it can do: it ends by a fault for its cause, or it completes with none. -/
theorem exec_ends {i : Instr} {s t : State} (h : exec i s = .next t) :
    ∃ effect o, IgnoresStatus effect ∧ ReportsCause s i o ∧ t = s.finish effect o := by
  obtain ⟨effect, heffect⟩ := exists_hasEffect i
  obtain ⟨o, hcause, hexec⟩ := heffect.exec_eq s
  exact ⟨effect, o, heffect.ignoresStatus, hcause, Host.Outcome.next.inj (h.symm.trans hexec)⟩

/-- A command ends with a fault's code exactly if there is the cause of that fault. -/
theorem exec_lasterr_iff {i : Instr} {s t : State} (h : exec i s = .next t) (k : ErrCode) :
    t.lasterr = errByte k ↔ FaultCause s i k := by
  obtain ⟨effect, o, -, hcause, rfl⟩ := exec_ends h
  rw [← hcause k]
  cases o with
  | none => exact iff_of_false (errByte_ne_zero k).symm nofun
  | some k' =>
    show (s.fail k').lasterr = _ ↔ _
    rw [State.fail_lasterr, errByte_inj, Option.some_inj]

/-- One command: it completes and leaves FAULTLOG alone, or it takes the fault that has a cause. -/
theorem exec_cases {i : Instr} {s t : State} (h : exec i s = .next t) :
    (t.lasterr = 0#8 ∧ t.faultlog = s.faultlog) ∨ ∃ k, FaultCause s i k ∧ t = s.fail k := by
  obtain ⟨effect, o, hstatus, hcause, rfl⟩ := exec_ends h
  cases o with
  | none => exact .inl ⟨rfl, hstatus.faultlog s⟩
  | some k => exact .inr ⟨k, (hcause k).1 rfl, rfl⟩

/-! ### Precise faults (R118) -/

/-- Settles O38: a command completes or takes a fault, and only `E_ALLOC` un-prepares on the way. -/
theorem commandFaultsArePrecise : Obligations.CommandFaultsArePrecise := by
  intro i s t h
  obtain ⟨hlasterr, hlog⟩ | ⟨k, hcause, rfl⟩ := exec_cases h
  · exact ⟨fun _ => hlog, fun hne => absurd hlasterr hne⟩
  refine ⟨fun hzero => absurd hzero (by rw [State.fail_lasterr]; exact errByte_ne_zero k), fun _ => ?_⟩
  cases k with
  | illegalCmd => exact hcause.elim
  | bus => exact hcause.elim
  | notPrepared => exact .inl ⟨rfl, by rw [State.fail_lasterr]; decide⟩
  | badArg => exact .inl ⟨rfl, by rw [State.fail_lasterr]; decide⟩
  | rateUndef => exact .inl ⟨rfl, by rw [State.fail_lasterr]; decide⟩
  | alloc =>
    obtain ⟨hprepare, -, -⟩ := hcause
    exact .inr ⟨hprepare, rfl⟩

/-! ### Codes and causes (R115, R119, R121) -/

/-- Settles O39: each code by its cause, and what `E_NOT_PREPARED` leaves. -/
theorem faultsAreRaisedByTheirCommands : Obligations.FaultsAreRaisedByTheirCommands := by
  intro i s t h
  refine ⟨exec_lasterr_iff h .notPrepared, exec_lasterr_iff h .badArg, exec_lasterr_iff h .rateUndef,
    exec_lasterr_iff h .alloc, ?codes, fun hneeds hunprepared => ?unprepared⟩
  case codes =>
    obtain ⟨hlasterr, -⟩ | ⟨k, hcause, rfl⟩ := exec_cases h
    · simp [hlasterr]
    · rw [State.fail_lasterr]
      cases k with
      | illegalCmd => exact hcause.elim
      | bus => exact hcause.elim
      | _ => decide
  case unprepared =>
    obtain ⟨effect, o, -, hcause, rfl⟩ := exec_ends h
    rw [(hcause .notPrepared).2 ⟨hneeds, hunprepared⟩]
    rfl

/-! ### No command reads the status state (R122) -/

/-- What a command leaves from another status state: the same but for FAULTLOG, with the same bits added. -/
theorem finish_withStatus {effect : State → State} (h : IgnoresStatus effect) (s : State) (o : Option ErrCode)
    (e : BitVec 8) (f : Word) :
    ((s.withStatus e f).finish effect o).faultlog ||| s.faultlog = (s.finish effect o).faultlog ||| f ∧
      (s.withStatus e f).finish effect o =
        { s.finish effect o with faultlog := ((s.withStatus e f).finish effect o).faultlog } := by
  cases o with
  | none =>
    have hleft : ((s.withStatus e f).finish effect none).faultlog = f := h.faultlog (s.withStatus e f)
    have hright : (s.finish effect none).faultlog = s.faultlog := h.faultlog s
    refine ⟨by rw [hleft, hright, BitVec.or_comm], ?_⟩
    rw [hleft]
    exact congrArg State.complete (h s e f)
  | some k =>
    constructor
    · show ((s.withStatus e f).fail k).faultlog ||| s.faultlog = (s.fail k).faultlog ||| f
      rw [State.fail_faultlog, State.fail_faultlog]
      show f ||| _ ||| s.faultlog = s.faultlog ||| _ ||| f
      ac_rfl
    · cases k <;> rfl

/-- Settles O42: the causes and the effect of a command are the same from either status state. -/
theorem faultsDoNotChangeLaterCommands : Obligations.FaultsDoNotChangeLaterCommands := by
  intro i s t e f h
  obtain ⟨effect, heffect⟩ := exists_hasEffect i
  obtain ⟨o, hcause, hexec⟩ := heffect.exec_eq s
  obtain ⟨o', hcause', hexec'⟩ := heffect.exec_eq (s.withStatus e f)
  obtain rfl : o' = o := ((reportsCause_withStatus s i o' e f).1 hcause').unique hcause
  obtain rfl : t = s.finish effect o' := Host.Outcome.next.inj (h.symm.trans hexec)
  obtain ⟨hlog, hrest⟩ := finish_withStatus heffect.ignoresStatus s o' e f
  exact ⟨_, hexec', hlog, hrest⟩

/-! ### Every step goes on (`10_state.md` R15, R128) -/

theorem exists_exec (i : Instr) (s : State) : ∃ t, exec i s = .next t := by
  obtain ⟨effect, heffect⟩ := exists_hasEffect i
  obtain ⟨o, -, hexec⟩ := heffect.exec_eq s
  exact ⟨_, hexec⟩

/-- Every action is answered: what the host may not do is an access error or an illegal command, never a stop. -/
theorem exists_perform (a : Action) (s : State) : ∃ t, perform a s = .next t := by
  cases a with
  | hostWrite addr v =>
    by_cases hcmd : addr = cmdAddr
    · subst hcmd
      cases hdecode : decode v with
      | ok i =>
        rw [perform_command s hdecode]
        exact exists_exec i s
      | error e => exact ⟨_, perform_illegal_command s hdecode⟩
    · cases hwrite : s.writeWord addr v with
      | some t => exact ⟨t, perform_hostWrite hwrite⟩
      | none => exact ⟨_, perform_hostWrite_error hcmd hwrite⟩
  | _ => exact ⟨_, rfl⟩

/-- No action takes or adds a pending one. -/
theorem perform_inbox {a : Action} {s t : State} (h : perform a s = .next t) : t.inbox = s.inbox := by
  obtain ⟨_, -, ⟨_, rfl⟩ | rfl⟩ | ⟨_, _, -, rfl⟩ | ⟨_, _, _, -, rfl⟩ | ⟨_, _, -, -, hexec⟩ | ⟨_, _, -, -, rfl⟩ |
    ⟨_, _, -, -, hwrite | rfl⟩ | ⟨_, _, -, rfl⟩ | ⟨-, rfl⟩ := perform_cases h
  · rfl
  · rfl
  · rfl
  · rfl
  · exact (exec_writesOnly hexec).inbox
  · rfl
  · obtain ⟨_, rfl⟩ | ⟨_, rfl⟩ | ⟨-, rfl⟩ := writeWord_cases hwrite <;> rfl
  · rfl
  · rfl
  · rfl

theorem step_nil {s : State} (h : s.inbox = []) : step s = .next s := by
  unfold step nextAction
  rw [h]

/-- Settles O5: a step is idle or the oldest pending action, which is answered and leaves the other pending ones. -/
theorem everyStepGoesOn : Obligations.EveryStepGoesOn := by
  intro s
  refine ⟨?_, step_nil, fun a rest hinbox => step_cons hinbox, fun a rest t hinbox hstep => ?_⟩
  · cases hinbox : s.inbox with
    | nil => exact ⟨s, step_nil hinbox⟩
    | cons a rest =>
      rw [step_cons hinbox]
      exact exists_perform a _
  · rw [step_cons hinbox] at hstep
    rw [perform_inbox hstep, State.setInbox_inbox]

/-! ### Codes 1 and 6 (R116, `20_memory.md` R42) -/

theorem logged_getLsbD (k : ErrCode) (log : Word) (n : Nat) :
    (logged k log).getLsbD n = true ↔ log.getLsbD n = true ∨ n = errNumber k := by
  have hbit : (1#32 <<< errNumber k).getLsbD n = true ↔ n = errNumber k := by
    rw [BitVec.getLsbD_shiftLeft, BitVec.getLsbD_one]
    have hk : errNumber k < 32 := by cases k <;> decide
    simp only [Bool.and_eq_true, decide_eq_true_eq, Bool.not_eq_true', decide_eq_false_iff_not]
    omega
  rw [logged, BitVec.getLsbD_or, Bool.or_eq_true, hbit]

theorem writeReg_eq_none {s : State} {v : Word} {r : Reg} (h : s.writeReg v r = none) :
    (∀ k, r ≠ .arg k) ∧ ∀ i, r ≠ .pcur i := by
  constructor <;> rintro _ rfl <;> cases h

theorem regMap_readOnly : ∀ row ∈ regMap, (∀ k, row.2 ≠ .arg k) ∧ (∀ i, row.2 ≠ .pcur i) →
    row.1 = cmdAddr ∨ readOnly row.1 := by
  unfold readOnly
  decide

/-- The writes that are access errors (R42), CMD aside. -/
theorem bad_of_writeWord_eq_none {s : State} {addr : Nat} {v : Word} (hcmd : addr ≠ cmdAddr)
    (h : s.writeWord addr v = none) : badAddress s.hw addr ∨ readOnly addr := by
  cases hreg : regAt addr with
  | some r =>
    rw [writeWord_of_regAt hreg] at h
    exact .inr ((regMap_readOnly _ (mem_regMap_of_regAt hreg) (writeReg_eq_none h)).resolve_left hcmd)
  | none =>
    refine .inl ((badAddress_iff _ _).2 ⟨hreg, Bool.eq_false_iff.2 fun hwindow => ?_⟩)
    rw [writeWord_of_inWindow hwindow] at h
    cases h

/-- The host writes a word to CMD that is no legal encoding (`30_encoding.md` R60). -/
def IsIllegalCommand (a : Action) : Prop := ∃ w, a = .hostWrite 0x00C w ∧ ¬ legalWord w

theorem not_isAccessError_cmd (hw : Hardware) (w : Word) : ¬ isAccessError hw (.hostWrite cmdAddr w) := by
  rintro (hbad | hro)
  · exact ne_cmdAddr_of_badAddress hbad rfl
  · exact ne_cmdAddr_of_readOnly hro rfl

theorem errNumber_inj {k k' : ErrCode} : errNumber k = errNumber k' ↔ k = k' := by cases k <;> cases k' <;> decide

/-- An access error is logged, and LASTERR is left alone (R42). -/
theorem perform_accessError {a : Action} {s t : State} (ha : isAccessError s.hw a) (h : perform a s = .next t) :
    t.faultlog = logged .bus s.faultlog ∧ t.lasterr = s.lasterr := by
  cases a with
  | hostRead addr =>
    have hread : s.readWord addr = none := by
      obtain hbad | rfl := ha
      · exact readWord_of_badAddress hbad
      · rfl
    cases (perform_hostRead_error hread).symm.trans h
    exact ⟨rfl, rfl⟩
  | hostWrite addr v =>
    have hwrite : addr ≠ cmdAddr ∧ s.writeWord addr v = none := by
      obtain hbad | hro := ha
      · exact ⟨ne_cmdAddr_of_badAddress hbad, writeWord_of_badAddress hbad v⟩
      · exact ⟨ne_cmdAddr_of_readOnly hro, writeWord_of_readOnly hro v⟩
    obtain ⟨hcmd, hnone⟩ := hwrite
    cases (perform_hostWrite_error hcmd hnone).symm.trans h
    exact ⟨rfl, rfl⟩
  | narrowRead size addr =>
    cases h
    exact ⟨rfl, rfl⟩
  | narrowWrite size addr v =>
    cases h
    exact ⟨rfl, rfl⟩
  | ctrlWrite i v => exact ha.elim
  | resetInput => exact ha.elim

/-- An illegal command word is a fault in every state (R116). -/
theorem perform_isIllegalCommand {a : Action} {s t : State} (ha : IsIllegalCommand a) (h : perform a s = .next t) :
    t = s.raise .illegalCmd := by
  obtain ⟨w, rfl, hillegal⟩ := ha
  obtain ⟨-, hfault⟩ := illegalWordsFaultAndLegalWordsDecode w
  obtain ⟨-, hperform⟩ := hfault hillegal
  exact Host.Outcome.next.inj (h.symm.trans (hperform s))

/-- The two faults no command takes. -/
def hostFaults : List ErrCode := [.illegalCmd, .bus]

theorem not_faultCause_of_hostFaults {k : ErrCode} (hk : k ∈ hostFaults) (s : State) (i : Instr) :
    ¬ FaultCause s i k := by
  unfold hostFaults at hk
  fin_cases hk <;> exact id

theorem exec_hostFaults_bit {i : Instr} {s t : State} (h : exec i s = .next t) {k : ErrCode} (hk : k ∈ hostFaults) :
    t.faultlog.getLsbD (errNumber k) = true ↔ s.faultlog.getLsbD (errNumber k) = true := by
  obtain ⟨-, hlog⟩ | ⟨k', hcause, rfl⟩ := exec_cases h
  · rw [hlog]
  · rw [State.fail_faultlog, logged_getLsbD, errNumber_inj]
    refine or_iff_left ?_
    rintro rfl
    exact not_faultCause_of_hostFaults hk s i hcause

/-- Any other action but the reset input leaves the bits of these two faults alone. -/
theorem perform_hostFaults_bit {a : Action} {s t : State} (hreset : a ≠ .resetInput) (haccess : ¬ isAccessError s.hw a)
    (hlegal : ¬ IsIllegalCommand a) (h : perform a s = .next t) {k : ErrCode} (hk : k ∈ hostFaults) :
    t.faultlog.getLsbD (errNumber k) = true ↔ s.faultlog.getLsbD (errNumber k) = true := by
  cases a with
  | hostRead addr =>
    cases hread : s.readWord addr with
    | none => exact absurd (bad_of_readWord_eq_none hread).symm haccess
    | some w =>
      cases (perform_hostRead hread).symm.trans h
      exact Iff.rfl
  | hostWrite addr v =>
    by_cases hcmd : addr = cmdAddr
    · subst hcmd
      have hword : legalWord v := by_contra fun hillegal => hlegal ⟨v, rfl, hillegal⟩
      obtain ⟨i, hdecode⟩ := (legalWord_iff v).1 hword
      exact exec_hostFaults_bit ((perform_command s hdecode).symm.trans h) hk
    · cases hwrite : s.writeWord addr v with
      | none => exact absurd (bad_of_writeWord_eq_none hcmd hwrite) haccess
      | some t' =>
        cases (perform_hostWrite hwrite).symm.trans h
        rw [writeWord_faultlog hwrite]
  | narrowRead size addr => exact absurd trivial haccess
  | narrowWrite size addr v => exact absurd trivial haccess
  | ctrlWrite i v =>
    cases h
    exact Iff.rfl
  | resetInput => exact absurd rfl hreset

/-- Settles O40: an action is an access error, an illegal command, or neither, and never both. -/
theorem faultBitsOneAndSixComeFromTheHost : Obligations.FaultBitsOneAndSixComeFromTheHost := by
  intro a s t h hreset
  show (_ ↔ _ ∨ IsIllegalCommand a) ∧ _ ∧ _ ∧ (IsIllegalCommand a → _)
  by_cases haccess : isAccessError s.hw a
  · obtain ⟨hlog, hlasterr⟩ := perform_accessError haccess h
    have hlegal : ¬ IsIllegalCommand a := by
      rintro ⟨w, rfl, -⟩
      exact not_isAccessError_cmd s.hw w haccess
    rw [hlog, logged_getLsbD, logged_getLsbD]
    simp [errNumber, haccess, hlegal, hlasterr]
  by_cases hillegal : IsIllegalCommand a
  · rw [perform_isIllegalCommand hillegal h, State.raise_faultlog, logged_getLsbD, logged_getLsbD]
    simp [errNumber, errByte, haccess, hillegal]
  · have hone : t.faultlog.getLsbD 1 = true ↔ s.faultlog.getLsbD 1 = true :=
      perform_hostFaults_bit hreset haccess hillegal h (k := .illegalCmd) (by decide)
    have hsix : t.faultlog.getLsbD 6 = true ↔ s.faultlog.getLsbD 6 = true :=
      perform_hostFaults_bit hreset haccess hillegal h (k := .bus) (by decide)
    rw [hone, hsix]
    simp [haccess, hillegal]

end Sys2Proof.Machine

/-! PROOFS. Reset and hazards (`70_reset_and_hazards.md`): the reset input (R135), a delay shorter than the block
(R141), the first block after reset (R144), and that the ring outside the allocation is never observed (R136). -/

namespace Sys2Proof.Machine

/-! ### The reset input (R135) -/

/-- Settles O49: the pending pulse is the action performed, and each register is that of `State.resetOf`. -/
theorem resetInputResetsEveryRegister : Obligations.ResetInputResetsEveryRegister := by
  intro s rest hinbox
  refine ⟨resetPulse (s.setInbox rest), step_cons hinbox, rfl, ?_⟩
  exact ⟨rfl, rfl, rfl, rfl, rfl, rfl, rfl, rfl, rfl, rfl, rfl, rfl, rfl⟩

/-! ### A delay shorter than the block (R141) -/

/-- Counted from the read position, sample `i` is at the element of sample `i - d` counted from the write cursor: both
are `WCUR - D + i` modulo the capacity. -/
theorem ringIndex_readPosition {wcur cap sr t : Word} (hcap : 0 < u cap) {d i : Nat}
    (hd : (d : Int) = exactDelay sr t % (u cap : Int)) (hdi : d ≤ i) :
    ringIndex (u cap) (readPosition wcur cap sr t) i = ringIndex (u cap) (u wcur) (i - d) := by
  have hpos : (u cap : Int) ≠ 0 := by omega
  rw [exactDelay_eq] at hd
  have hrp : (readPosition wcur cap sr t : Int) = ((u wcur : Int) - delaySamples sr t) % (u cap : Int) :=
    Int.toNat_of_nonneg (Int.emod_nonneg _ hpos)
  unfold ringIndex
  zify [hdi]
  rw [hrp, hd, Int.emod_add_emod, ← add_sub_assoc, Int.sub_emod_emod, sub_add_eq_add_sub]

/-- Settles O37: step 4 reads the ring step 2 left, at an index where step 2 wrote sample `i - d`. -/
theorem shortDelayReadsTheSameBlock : Obligations.ShortDelayReadsTheSameBlock := by
  intro s c d i hinv hruns hc hd hdi hi
  have ⟨hprepared, _⟩ := hruns
  have hwritten : i - d < (blockOf s).len := lt_of_le_of_lt (Nat.sub_le i d) hi
  rw [ringIndex_readPosition (hinv.cap_pos hprepared) hd hdi]
  exact blockWrite_hit (hruns.fits hinv) (hinv.channel_lt_maxCh hprepared hc) ⟨s.ring, s.buf⟩ hwritten

/-! ### The first block after reset (R144) -/

theorem ramp_zero_left (b : Word) (i len : Nat) : ramp 0#32 b i len = val b * (i : Rat) / (len : Rat) := by
  simp [ramp]

/-- The first sample of a ramp from gain 0 is exactly 0. -/
@[simp] theorem scale_zero_first (x b : Word) (len : Nat) : scale x 0#32 b 0 len = 0 := by simp [scale]

@[simp] theorem fx_zero : fx 0 = 0#32 := by simpa using fx_val 0#32

section FirstBlock

variable {s : State} (hlast : s.last = ⟨0#32, 0#32, 0#32, 0#32⟩) (c : Nat)
include hlast

theorem trailSample_first : trailSample s c 0 = 0#32 := by simp [trailSample, hlast]

theorem drySample_first : drySample s c 0 = 0#32 := by simp [drySample, hlast]

theorem outSample_first : outSample s c 0 = 0#32 := by simp [outSample, drySample_first hlast, hlast]

variable (i : Nat)

/-! Each ramp of R98 from gain 0 is `i / N` of its parameter. -/

theorem wetSample_from_zero : wetSample s c i =
    fx (val (crushedSample s c i) + val (delayedSample s c i) * (val s.pcur.regen * (i : Rat) / (s.length : Rat))) := by
  rw [wetSample, scale, hlast, ramp_zero_left]

theorem trailSample_from_zero : trailSample s c i =
    fx (val (wetSample s c i) * (val s.pcur.echoVolume * (i : Rat) / (s.length : Rat))) := by
  rw [trailSample, scale, hlast, ramp_zero_left]

theorem outSample_from_zero : outSample s c i =
    fx (val (fx (val (inSample s c i) * (val s.pcur.dry * (i : Rat) / (s.length : Rat)))) +
      val (tailSample s c i) * (val s.pcur.wet * (i : Rat) / (s.length : Rat))) := by
  rw [outSample, drySample, scale, scale, hlast, ramp_zero_left, ramp_zero_left]

end FirstBlock

/-- Settles O36: the closed form of PROCESS (R98) with every ramp from gain 0. -/
theorem firstBlockRampsFromZero : Obligations.FirstBlockRampsFromZero := by
  intro s hinv hruns hlast hlen
  have ⟨hprepared, _⟩ := hruns
  obtain ⟨t, hexec, hsamples, -, -, hrest⟩ := processClosedForm s hinv hruns
  have hcommitted : t.last = ⟨s.pcur.echoVolume, s.pcur.regen, s.pcur.dry, s.pcur.wet⟩ := by rw [hrest]
  refine ⟨t, hexec, hcommitted, fun c hc => ?first, fun c hc i hi => ?ramps⟩
  case first =>
    obtain ⟨hio, -, -, hring⟩ := hsamples c hc 0 hlen
    rw [Nat.add_zero, Nat.mod_eq_of_lt (hinv.wcur_lt_cap hprepared)] at hring
    exact ⟨hio.trans (outSample_first hlast c), hring.trans (trailSample_first hlast c)⟩
  case ramps =>
    obtain ⟨hio, hwet, -, hring⟩ := hsamples c hc i hi
    refine ⟨wetSample s c i, wetSample_from_zero hlast c i, hring.trans (trailSample_from_zero hlast c i), hwet, ?_⟩
    rw [hwet]
    exact hio.trans (outSample_from_zero hlast c i)

/-! ### Two rings that agree on the allocation (R136, `93_implementation_defined.md` U12) -/

/-- The rings hold the same words in the first `cap` elements of the first `nch` rows. -/
def Ring.SameWithin (hw : Hardware) (nch cap : Nat) (r r' : Ring) : Prop :=
  ∀ c < nch, ∀ k < cap, ringGet hw r' c k = ringGet hw r c k

section Passes

variable {hw : Hardware} {nch cap : Nat} {r r' : Ring} (h : r.SameWithin hw nch cap r')
include h

/-- A write of one element keeps the agreement, wherever it goes. -/
theorem Ring.SameWithin.set (c k : Nat) (w : Word) :
    (ringSet hw r c k w).SameWithin hw nch cap (ringSet hw r' c k w) := by
  intro c' hc' k' hk'
  rw [ringGet_ringSet, ringGet_ringSet, h c' hc' k' hk']

/-- So does the write port, from the same samples. -/
theorem Ring.SameWithin.ringWriteBlock (cap' c s len : Nat) (f : Nat → Word) :
    (ringWriteBlock hw cap' c s len f r).SameWithin hw nch cap (ringWriteBlock hw cap' c s len f r') := by
  induction len with
  | zero => exact h
  | succ n ih => exact ih.set _ _ _

/-- The read port of an allocated channel reads nothing else. -/
theorem Ring.SameWithin.ringReadAddBlock (hcap : 0 < cap) {c : Nat} (hc : c < nch) (s len : Nat) (dst : BufId)
    (a b : Word) (m : Buffers) :
    ringReadAddBlock hw cap c s len dst a b r' m = ringReadAddBlock hw cap c s len dst a b r m := by
  refine loop_congr (fun i _ => funext fun m => ?_) m
  rw [h c hc _ (ringIndex_lt hcap s i)]

end Passes

/-- The same buffers, and rings that agree on the allocation. -/
structure Store.SameWithin (hw : Hardware) (nch cap : Nat) (x y : Store) : Prop where
  ring : x.ring.SameWithin hw nch cap y.ring
  buf : y.buf = x.buf

section Channels

variable {p : Block} {nch : Nat} {x y : Store} (h : x.SameWithin p.hw nch p.cap y)
include h

theorem Store.SameWithin.blockWrite (c : Nat) :
    (blockWrite p c x).SameWithin p.hw nch p.cap (blockWrite p c y) := by
  obtain ⟨r, m⟩ := x
  obtain ⟨r', _⟩ := y
  obtain ⟨hring, rfl⟩ := h
  exact ⟨hring.ringWriteBlock _ _ _ _ _, rfl⟩

/-- Step 4 is the one that reads the ring. -/
theorem Store.SameWithin.blockRead (hcap : 0 < p.cap) {c : Nat} (hc : c < nch) :
    (blockRead p c x).SameWithin p.hw nch p.cap (blockRead p c y) := by
  obtain ⟨r, m⟩ := x
  obtain ⟨r', _⟩ := y
  obtain ⟨hring, rfl⟩ := h
  exact ⟨hring, hring.ringReadAddBlock hcap hc _ _ _ _ _ _⟩

theorem Store.SameWithin.blockRewrite (c : Nat) :
    (blockRewrite p c x).SameWithin p.hw nch p.cap (blockRewrite p c y) := by
  obtain ⟨r, m⟩ := x
  obtain ⟨r', _⟩ := y
  obtain ⟨hring, rfl⟩ := h
  exact ⟨hring.ringWriteBlock _ _ _ _ _, rfl⟩

theorem Store.SameWithin.blockMix (c : Nat) : (blockMix p c x).SameWithin p.hw nch p.cap (blockMix p c y) := by
  obtain ⟨r, m⟩ := x
  obtain ⟨r', _⟩ := y
  obtain ⟨hring, rfl⟩ := h
  exact ⟨hring, rfl⟩

theorem Store.SameWithin.processChannels (hcap : 0 < p.cap) {k : Nat} (hk : k ≤ nch) :
    (processChannels p k x).SameWithin p.hw nch p.cap (processChannels p k y) := by
  induction k with
  | zero => exact h
  | succ k ih => exact ((((ih (by omega)).blockWrite k).blockRead hcap hk).blockRewrite k).blockMix k

end Channels

/-! ### States that differ in the ring outside the allocation -/

/-- The second state is the first but for the ring, and the rings agree on the elements the first one allocates. -/
def State.SameButRing (s s' : State) : Prop :=
  ∃ r, s.ring.SameWithin s.hw (u s.nch) (u s.cap) r ∧ s' = s.setRing r

/-- The command leads both states on, to states that again differ in the ring outside the allocation alone. -/
def SameOutcome (i : Instr) (s s' : State) : Prop :=
  ∃ t t', exec i s = .next t ∧ exec i s' = .next t' ∧ t.SameButRing t'

/-- The effect neither reads nor writes the ring, and leaves the allocation alone. -/
def IgnoresRing (effect : State → State) : Prop :=
  ∀ s r, effect (s.setRing r) = (effect s).setRing r ∧ (effect s).ring = s.ring ∧ (effect s).hw = s.hw ∧
    (effect s).nch = s.nch ∧ (effect s).cap = s.cap

theorem IgnoresRing.sameButRing {effect : State → State} (heffect : IgnoresRing effect) {s s' : State}
    (h : s.SameButRing s') : (effect s).SameButRing (effect s') := by
  obtain ⟨r, hring, rfl⟩ := h
  obtain ⟨hset, hsame, hhw, hnch, hcap⟩ := heffect s r
  refine ⟨r, ?_, hset⟩
  rwa [hsame, hhw, hnch, hcap]

theorem ignoresRing_complete : IgnoresRing State.complete := fun _ _ => ⟨rfl, rfl, rfl, rfl, rfl⟩

theorem ignoresRing_raise (k : ErrCode) : IgnoresRing (·.raise k) := fun _ _ => ⟨rfl, rfl, rfl, rfl, rfl⟩

theorem ignoresRing_paramEffect {write : Fin 5 → State → State} (hwrite : ∀ j, IgnoresRing (write j)) :
    IgnoresRing (paramEffect write) := by
  intro s r
  unfold paramEffect
  rw [State.setRing_arg]
  cases paramIndex (u s.arg.a0) with
  | none => exact ⟨rfl, rfl, rfl, rfl, rfl⟩
  | some j => exact hwrite j s r

/-- Two memories put into states that differ in the ring alone. -/
theorem Store.SameWithin.sameButRing {s : State} {x y : Store} (h : x.SameWithin s.hw (u s.nch) (u s.cap) y)
    (r : Ring) :
    ((s.setRing x.ring).setBuf x.buf).SameButRing (((s.setRing r).setRing y.ring).setBuf y.buf) := by
  obtain ⟨ringY, _⟩ := y
  obtain ⟨hring, rfl⟩ := h
  exact ⟨ringY, hring, rfl⟩

/-- No cause of a fault is in the ring. -/
theorem reportsCause_setRing (s : State) (r : Ring) (i : Instr) (o : Option ErrCode) :
    ReportsCause (s.setRing r) i o ↔ ReportsCause s i o := Iff.rfl

section Outcomes

variable {s s' : State} (h : s.SameButRing s')
include h

/-- A fault leaves the ring alone, but for `E_ALLOC`, after which nothing is allocated. -/
theorem State.SameButRing.fail (k : ErrCode) : (s.fail k).SameButRing (s'.fail k) := by
  cases k with
  | alloc =>
    obtain ⟨r, -, rfl⟩ := h
    exact ⟨ringLose r, fun c hc => absurd hc (Nat.not_lt_zero c), rfl⟩
  | _ => exact (ignoresRing_raise _).sameButRing h

/-- A command known by its causes and its effect, where the effect keeps the agreement. -/
theorem HasEffect.sameOutcome {i : Instr} {effect : State → State} (hi : HasEffect i effect)
    (heffect : ReportsCause s i none → (effect s).SameButRing (effect s')) : SameOutcome i s s' := by
  obtain ⟨o, hcause, hexec⟩ := hi.exec_eq s
  obtain ⟨o', hcause', hexec'⟩ := hi.exec_eq s'
  obtain rfl : o' = o := by
    obtain ⟨r, -, rfl⟩ := h
    exact ((reportsCause_setRing s r i o').1 hcause').unique hcause
  refine ⟨_, _, hexec, hexec', ?_⟩
  cases o' with
  | some k => exact h.fail k
  | none => exact ignoresRing_complete.sameButRing (heffect hcause)

/-- A command known by its checks and its effect, where the effect keeps the agreement. -/
theorem State.SameButRing.of_runCommand {i : Instr} {checks : State → List (Bool × ErrCode)} {effect : State → State}
    (hexec : ∀ s, exec i s = runCommand (checks s) effect s) (hchecks : ∀ s r, checks (s.setRing r) = checks s)
    (heffect : firstFault (checks s) = none → (effect s).SameButRing (effect s')) : SameOutcome i s s' := by
  have hchecks' : checks s' = checks s := by
    obtain ⟨r, -, rfl⟩ := h
    exact hchecks s r
  unfold SameOutcome
  rw [hexec s, hexec s', hchecks']
  cases hfault : firstFault (checks s) with
  | some k =>
    exact ⟨_, _, runCommand_fault effect s hfault, runCommand_fault effect s' hfault,
      (ignoresRing_raise k).sameButRing h⟩
  | none =>
    exact ⟨_, _, runCommand_pass effect s hfault, runCommand_pass effect s' hfault,
      ignoresRing_complete.sameButRing (heffect hfault)⟩

/-- The checked commands that have nothing to do with the ring. -/
theorem State.SameButRing.of_ignoresRing {i : Instr} {checks : State → List (Bool × ErrCode)} {effect : State → State}
    (hexec : ∀ s, exec i s = runCommand (checks s) effect s) (hchecks : ∀ s r, checks (s.setRing r) = checks s)
    (heffect : IgnoresRing effect) : SameOutcome i s s' :=
  h.of_runCommand hexec hchecks fun _ => heffect.sameButRing h

/-! The commands that write or read the ring. -/

/-- A successful PREPARE clears every element of the new allocation, whatever was there (`44_system.md` R106). -/
theorem State.SameButRing.prepareEffect (hok : s.hw.ok = true) (hdepth : 2 * u s.arg.a0 ≤ s.hw.ringDepth) :
    (prepareEffect s).SameButRing (prepareEffect s') := by
  obtain ⟨r, -, rfl⟩ := h
  refine ⟨ringClear (u s.arg.a2) (2 * u s.arg.a0) r, fun c hc k hk => ?_, rfl⟩
  have hwidth : k < 2 * u s.arg.a0 := hk.trans_eq (u_ofNat_capacity hok hdepth)
  exact (ringGet_ringClear r hc hwidth hdepth).trans (ringGet_ringClear s.ring hc hwidth hdepth).symm

theorem State.SameButRing.rbWrite (c : Nat) (src : BufId) : SameOutcome (.rbWrite c src) s s' :=
  h.of_runCommand (exec_rbWrite · c src) (fun _ _ => rfl) fun _ => by
    obtain ⟨r, hring, rfl⟩ := h
    exact ⟨_, hring.ringWriteBlock _ _ _ _ _, rfl⟩

theorem State.SameButRing.rbWriteRamp (c : Nat) (src : BufId) : SameOutcome (.rbWriteRamp c src) s s' :=
  h.of_runCommand (exec_rbWriteRamp · c src) (fun _ _ => rfl) fun _ => by
    obtain ⟨r, hring, rfl⟩ := h
    exact ⟨_, hring.ringWriteBlock _ _ _ _ _, rfl⟩

theorem State.SameButRing.rbReadaddRamp (c : Nat) (dst : BufId) : SameOutcome (.rbReadaddRamp c dst) s s' :=
  h.of_runCommand (exec_rbReadaddRamp · c dst) (fun _ _ => rfl) fun hpass => by
    obtain ⟨-, hc, hposition, -, -⟩ := ringChecks_pass hpass
    obtain ⟨r, hring, rfl⟩ := h
    refine ⟨r, hring, congrArg (fun m => (s.setRing r).setBuf m) ?_⟩
    exact hring.ringReadAddBlock (Nat.zero_lt_of_lt hposition) hc _ _ _ _ _ _

/-- PROCESS, whose channels are allocated ones; step 7 and the cursor ignore the ring. -/
theorem State.SameButRing.process (hinv : s.Inv) : SameOutcome .process s s' :=
  h.of_runCommand exec_process (fun _ _ => rfl) fun hpass => by
    obtain ⟨hprepared, -, -, hchannels⟩ := processChecks_pass hpass
    obtain ⟨r, hring, rfl⟩ := h
    have hstores : Store.SameWithin s.hw (u s.nch) (u s.cap) ⟨s.ring, s.buf⟩ ⟨r, s.buf⟩ := ⟨hring, rfl⟩
    have hloop := Store.SameWithin.processChannels (p := blockOf s) hstores (hinv.cap_pos hprepared) hchannels
    exact IgnoresRing.sameButRing
      (effect := fun t => (t.setLast (paramGains t.pcur)).setWcur ((u t.wcur + t.length) % u t.cap))
      (fun _ _ => ⟨rfl, rfl, rfl, rfl, rfl⟩) (hloop.sameButRing r)

/-- PREPARE, whose operands that pass its checks fit the ring. -/
theorem State.SameButRing.prepare (hok : s.hw.ok = true) : SameOutcome .prepare s s' :=
  hasEffect_prepare.sameOutcome h fun hnone => by
    have hoperands : ¬ badArgCause s .prepare := fun hbad => nomatch (hnone .badArg).2 ⟨False.elim, hbad⟩
    have halloc : ¬ allocCause s := fun hcause => nomatch (hnone .alloc).2 ⟨rfl, hoperands, hcause⟩
    exact h.prepareEffect hok (not_lt.1 fun hlarge => halloc (.inl hlarge))

/-- Every command: PREPARE clears what it allocates, PROCESS and the ring commands write and read allocated elements
alone, and the others ignore the ring. -/
theorem State.SameButRing.exec (hinv : s.Inv) (i : Instr) : SameOutcome i s s' := by
  cases i with
  | prepare => exact h.prepare hinv.hardware
  | process => exact h.process hinv
  | rbWrite c src => exact h.rbWrite c src
  | rbWriteRamp c src => exact h.rbWriteRamp c src
  | rbReadaddRamp c dst => exact h.rbReadaddRamp c dst
  | getparam =>
    refine (hasEffect_paramEffect (by decide) exec_getparam fun _ _ _ _ => rfl).sameOutcome h fun _ => ?_
    refine (ignoresRing_paramEffect ?_).sameButRing h
    exact fun _ _ _ => ⟨rfl, rfl, rfl, rfl, rfl⟩
  | setparam =>
    refine (hasEffect_paramEffect (by decide) exec_setparam fun _ _ _ _ => rfl).sameOutcome h fun _ => ?_
    refine (ignoresRing_paramEffect ?_).sameButRing h
    exact fun _ _ _ => ⟨rfl, rfl, rfl, rfl, rfl⟩
  | nop => exact h.of_ignoresRing exec_nop (fun _ _ => rfl) fun _ _ => ⟨rfl, rfl, rfl, rfl, rfl⟩
  | getpcount => exact h.of_ignoresRing exec_getpcount (fun _ _ => rfl) fun _ _ => ⟨rfl, rfl, rfl, rfl, rfl⟩
  | savestate => exact h.of_ignoresRing exec_savestate (fun _ _ => rfl) fun _ _ => ⟨rfl, rfl, rfl, rfl, rfl⟩
  | loadstate => exact h.of_ignoresRing exec_loadstate (fun _ _ => rfl) fun _ _ => ⟨rfl, rfl, rfl, rfl, rfl⟩
  | rbRdpos => exact h.of_ignoresRing exec_rbRdpos (fun _ _ => rfl) fun _ _ => ⟨rfl, rfl, rfl, rfl, rfl⟩
  | cursorAdv => exact h.of_ignoresRing exec_cursorAdv (fun _ _ => rfl) fun _ _ => ⟨rfl, rfl, rfl, rfl, rfl⟩
  | ratediv => exact h.of_ignoresRing exec_ratediv (fun _ _ => rfl) fun _ _ => ⟨rfl, rfl, rfl, rfl, rfl⟩
  | rampCommit => exact h.of_ignoresRing exec_rampCommit (fun _ _ => rfl) fun _ _ => ⟨rfl, rfl, rfl, rfl, rfl⟩
  | decimate c b =>
    exact h.of_ignoresRing (exec_decimate · c b) (fun _ _ => rfl) fun _ _ => ⟨rfl, rfl, rfl, rfl, rfl⟩
  | decimateBlk c b =>
    exact h.of_ignoresRing (exec_decimateBlk · c b) (fun _ _ => rfl) fun _ _ => ⟨rfl, rfl, rfl, rfl, rfl⟩
  | bufCopy c dst src =>
    exact h.of_ignoresRing (exec_bufCopy · c dst src) (fun _ _ => rfl) fun _ _ => ⟨rfl, rfl, rfl, rfl, rfl⟩
  | bufSub c dst src =>
    exact h.of_ignoresRing (exec_bufSub · c dst src) (fun _ _ => rfl) fun _ _ => ⟨rfl, rfl, rfl, rfl, rfl⟩
  | bufCopyRamp c dst src =>
    exact h.of_ignoresRing (exec_bufCopyRamp · c dst src) (fun _ _ => rfl) fun _ _ => ⟨rfl, rfl, rfl, rfl, rfl⟩
  | bufAddRamp c dst src =>
    exact h.of_ignoresRing (exec_bufAddRamp · c dst src) (fun _ _ => rfl) fun _ _ => ⟨rfl, rfl, rfl, rfl, rfl⟩

end Outcomes

/-- Settles O43: the command leads on from both states, and the first outcome is the one given. -/
theorem unallocatedRingIsUnobservable : Obligations.UnallocatedRingIsUnobservable := by
  intro i s t r hinv hring h
  have hsame : s.SameButRing (s.setRing r) := ⟨r, hring, rfl⟩
  obtain ⟨t₀, _, hexec, hexec', r', hring', rfl⟩ := hsame.exec hinv i
  obtain rfl : t = t₀ := Host.Outcome.next.inj (h.symm.trans hexec)
  exact ⟨t.setRing r', hexec', hring', rfl⟩

end Sys2Proof.Machine
